-- ==== Sys2Proof/Word.lean ====
section
/-! DEFINITION. The bit vectors that the spec treats as bits: bytes, addresses and their two parts, register cells
and opcodes. -/

namespace Sys2Proof

/-- One byte of memory or of a device port. -/
abbrev Byte := BitVec 8

/-- A 32-bit address of the one address space (10_state.md R44). -/
abbrev Addr := BitVec 32

/-- A 64-bit register cell (00_scope.md R9), also an operand word of at most 64 bits. -/
abbrev Word := BitVec 64

/-- A 16-bit opcode (30_encoding.md R91). -/
abbrev Opcode := BitVec 16

/-- A 20-bit page number (20_memory.md R51). -/
abbrev PageNo := BitVec 20

/-- A 12-bit offset in a page (20_memory.md R51). -/
abbrev Offset := BitVec 12

end Sys2Proof
end

