-- ==== Sys2Proof/Config.lean ====
section
/-! DEFINITION. What one implementation of gArch64 fixes (00_scope.md R8, 10_state.md R42), and the one free
value of the model. The opcode numbers are OPEN in the spec, so the dispatch table is data of a `Config`, not a
constant: every statement that does not name a table holds for all of them (log 1). -/

namespace Sys2Proof

/-- The block size bs (10_state.md R32): exactly the values 1, 2 and 4. The fourth two-bit code is unreachable
(R32), so it is no value of this type (`BlockSize.code`, Machine/Width.lean; log 15). -/
inductive BlockSize where
  | one | two | four
deriving DecidableEq, Repr

/-- The 72 actions of the dispatch table (30_encoding.md R93), in the order of spec/opcode_table.json. -/
inductive Action where
  -- Arithmetic, shift and compare
  | add | sub | mul | div | mod | shl | shr | cmpi | cmp
  -- Moves
  | movax | movay | movxa | movxy | movya | movyx
  -- Immediate loads
  | ldia | ldix | ldiy
  -- Loads
  | ldba | ldbx | ldby | ldwa | ldwx | ldwy | ldda | lddx | lddy | ldqa | ldqx | ldqy
  -- Stores
  | stba | stbx | stby | stwa | stwx | stwy | stda | stdx | stdy | stqa | stqx | stqy
  -- Stack
  | pusha | pushx | pushy | popa | popx | popy | setstack
  -- Control transfer
  | jmp | jmpa | jz | jnz | jc | jnc | call | calla | bz | bnz | bc | bnc | ret
  -- System
  | int | defint | setivt | page | pageat | free | reduce | extend | halt | haltz
deriving DecidableEq, Repr

/-- OPTABLE (30_encoding.md R92): a partial map from 16-bit opcodes to actions. The first entry of an opcode counts;
several opcodes may name one action. -/
abbrev OpTable := List (Opcode × Action)

/-- MISSING_VECTOR_POLICY (60_exceptions.md R233). -/
inductive MissingVectorPolicy where
  /-- A zero entry is fatal(NoHandler) for every vector: the spec's default. -/
  | fatal
  /-- A zero entry routes UndefinedInterrupt, but for vector 0x100, where it is fatal(NoHandler). -/
  | escalate
deriving DecidableEq, Repr

/-- ROUTER_FAULT_POLICY (60_exceptions.md R234). -/
inductive RouterFaultPolicy where
  /-- A fault inside the router routes UndefinedInterrupt, but while vector 0x100 is serviced, where it is
  fatal(DoubleFault): the spec's default. -/
  | escalate
  /-- A fault inside the router is fatal(DoubleFault). -/
  | fatal
deriving DecidableEq, Repr

/-- The named parameters of the model (00_scope.md R8, 10_state.md R42). NUM_PORTS is no field of it: the host sets
it by registering ports, so it is `State.ports` (10_state.md R40). -/
structure Config where
  /-- OPTABLE (R92). -/
  opTable : OpTable
  /-- RESET_BS (10_state.md R32). -/
  resetBs : BlockSize
  /-- BIOS_ENTRY (70_reset_and_hazards.md R252). -/
  biosEntry : Addr
  /-- BOOT_BASE (20_memory.md R74). -/
  bootBase : Addr
  /-- BIOS_BASE (20_memory.md R74). -/
  biosBase : Addr
  /-- DEVICE_PAGE (20_memory.md R53). -/
  devicePage : PageNo
  /-- DEVICE_FRAME (20_memory.md R53, R60). -/
  deviceFrame : Nat
  /-- NUM_FRAMES (20_memory.md R60); `none` is the default, unbounded. -/
  numFrames : Option Nat
  /-- IVT_MAX_ID (20_memory.md R80). -/
  ivtMaxId : Nat
  /-- MISSING_VECTOR_POLICY (60_exceptions.md R233). -/
  missingVector : MissingVectorPolicy
  /-- ROUTER_FAULT_POLICY (60_exceptions.md R234). -/
  routerFault : RouterFaultPolicy
deriving DecidableEq, Repr

/-- DEVICE_READ, the FREE VALUE of the model (20_memory.md R72: "a draw: any of the 256 values"): the byte the n-th
port read of a run returns. It has no body, so nothing can be proved of its value (log 8). -/
opaque Config.deviceRead : Nat → Byte

end Sys2Proof
end

