-- ==== Sys2Proof/Machine/Platform.lean ====
section
/-! DEFINITION. The example assignment EXA of opcode numbers and the example platform of 95_test_vectors.md Part 2.
"EXA is not the hardware's opcode table": it is one legal value of the parameter OPTABLE, used where one evaluated
machine is needed (`State.reset`, `decodeTableWord`); log 2 to 6. -/

namespace Sys2Proof

/-- EXA: arithmetic, shift and compare (95_test_vectors.md Part 2). -/
def exaArithmetic : OpTable :=
  [(0x0101#16, .add), (0x0102#16, .sub), (0x0103#16, .mul), (0x0104#16, .div), (0x0105#16, .mod),
   (0x0106#16, .shl), (0x0107#16, .shr), (0x0108#16, .cmpi), (0x0109#16, .cmp)]

/-- EXA: moves (95_test_vectors.md Part 2). -/
def exaMoves : OpTable :=
  [(0x0201#16, .movax), (0x0202#16, .movay), (0x0203#16, .movxa), (0x0204#16, .movxy), (0x0205#16, .movya),
   (0x0206#16, .movyx)]

/-- EXA: immediate loads (95_test_vectors.md Part 2). -/
def exaImmediates : OpTable :=
  [(0x0211#16, .ldia), (0x0212#16, .ldix), (0x0213#16, .ldiy)]

/-- EXA: loads (95_test_vectors.md Part 2). -/
def exaLoads : OpTable :=
  [(0x0301#16, .ldba), (0x0302#16, .ldbx), (0x0303#16, .ldby), (0x0311#16, .ldwa), (0x0312#16, .ldwx),
   (0x0313#16, .ldwy), (0x0321#16, .ldda), (0x0322#16, .lddx), (0x0323#16, .lddy), (0x0331#16, .ldqa),
   (0x0332#16, .ldqx), (0x0333#16, .ldqy)]

/-- EXA: stores (95_test_vectors.md Part 2). -/
def exaStores : OpTable :=
  [(0x0401#16, .stba), (0x0402#16, .stbx), (0x0403#16, .stby), (0x0411#16, .stwa), (0x0412#16, .stwx),
   (0x0413#16, .stwy), (0x0421#16, .stda), (0x0422#16, .stdx), (0x0423#16, .stdy), (0x0431#16, .stqa),
   (0x0432#16, .stqx), (0x0433#16, .stqy)]

/-- EXA: stack (95_test_vectors.md Part 2). -/
def exaStack : OpTable :=
  [(0x0501#16, .pusha), (0x0502#16, .pushx), (0x0503#16, .pushy), (0x0511#16, .popa), (0x0512#16, .popx),
   (0x0513#16, .popy), (0x0006#16, .setstack)]

/-- EXA: control transfer (95_test_vectors.md Part 2). -/
def exaControl : OpTable :=
  [(0x0601#16, .jmp), (0x0602#16, .jmpa), (0x0603#16, .jz), (0x0604#16, .jnz), (0x0605#16, .jc),
   (0x0606#16, .jnc), (0x0611#16, .call), (0x0612#16, .calla), (0x0613#16, .bz), (0x0614#16, .bnz),
   (0x0615#16, .bc), (0x0616#16, .bnc), (0x0620#16, .ret)]

/-- EXA: system (95_test_vectors.md Part 2). -/
def exaSystem : OpTable :=
  [(0x0007#16, .int), (0x0008#16, .defint), (0x0005#16, .setivt), (0x0009#16, .page), (0x000A#16, .pageat),
   (0x000B#16, .free), (0x0003#16, .reduce), (0x0004#16, .extend), (0x0001#16, .halt), (0x0002#16, .haltz)]

/-- EXA (95_test_vectors.md Part 2; the `example_match` of spec/opcode_table.json). DESIGN CHOICE, log 2. -/
def exaTable : OpTable :=
  exaArithmetic ++ exaMoves ++ exaImmediates ++ exaLoads ++ exaStores ++ exaStack ++ exaControl ++ exaSystem

/-- The example platform of 95_test_vectors.md Part 2. BIOS_BASE and RESET_BS stand in no line of it: DESIGN CHOICE,
log 3 to 6. -/
def examplePlatform : Config where
  opTable := exaTable
  resetBs := .one
  biosEntry := 0x1000
  bootBase := 0x1000
  biosBase := 0xFFFF0000
  devicePage := 0xFFFFF
  deviceFrame := 0xFFFFFFFF
  numFrames := none
  ivtMaxId := 512
  missingVector := .fatal
  routerFault := .escalate

end Sys2Proof
end

