-- ==== Sys2Proof/Machine/Width.lean ====
section
/-! DEFINITION. What the block size fixes: the operand width W, the operand word size WB, masking and the
two's-complement reading (00_scope.md R11, 10_state.md R32). -/

namespace Sys2Proof

/-- bs as a number, 1, 2 or 4 (10_state.md R32). -/
def BlockSize.count : BlockSize → Nat
  | .one => 1
  | .two => 2
  | .four => 4

/-- W = 16 * bs, the operand width in bits (00_scope.md R11). -/
def BlockSize.width (bs : BlockSize) : Nat := 16 * bs.count

/-- WB = 2 * bs, the operand word size in bytes (00_scope.md R11). -/
def BlockSize.bytes (bs : BlockSize) : Nat := 2 * bs.count

/-- The two-bit code of a block size: 00 = 1, 01 = 2, 10 = 4 (10_state.md R32). -/
def BlockSize.code : BlockSize → BitVec 2
  | .one => 0
  | .two => 1
  | .four => 2

/-- The block size of a two-bit code; 11 is none (10_state.md R32, 93_implementation_defined.md I25). -/
def BlockSize.ofCode (code : BitVec 2) : Option BlockSize :=
  if code = 0 then some .one else if code = 1 then some .two else if code = 2 then some .four else none

/-- `max(1, bs / 2)` (45_system.md R218). -/
def BlockSize.halve : BlockSize → BlockSize
  | .one => .one
  | .two => .one
  | .four => .two

/-- `min(4, 2 * bs)` (45_system.md R219). -/
def BlockSize.double : BlockSize → BlockSize
  | .one => .two
  | .two => .four
  | .four => .four

/-- mask_W(v) = v mod 2^W of an exact integer (00_scope.md R11), a natural number below 2^W. -/
def maskW (bs : BlockSize) (v : Int) : Nat := (v % (2 ^ bs.width : Int)).toNat

/-- sext_W(v): the W-bit value `v` read as two's complement (00_scope.md R11). -/
def sextW (bs : BlockSize) (v : Nat) : Int :=
  if v < 2 ^ (bs.width - 1) then (v : Int) else (v : Int) - (2 ^ bs.width : Int)

end Sys2Proof
end

