-- ==== Sys2Proof/Syntax.lean ====
section
/-! DEFINITION. The instructions: one constructor per row of spec/opcode_table.json, in its order, with the reduced
operands of 30_encoding.md R94. -/

namespace Sys2Proof

/-- A decoded instruction (30_encoding.md R93) with its operands after the reduction of R94: an immediate, an
interrupt id and a frame are the operand word itself, an address and an absolute target are 32 bits, a displacement
is a signed integer, a page is 20 bits. -/
inductive Instr where
  -- Arithmetic, shift and compare
  | add
  | sub
  | mul
  | div
  | mod
  | shl
  | shr
  | cmpi (imm : Word)
  | cmp
  -- Moves
  | movax
  | movay
  | movxa
  | movxy
  | movya
  | movyx
  -- Immediate loads
  | ldia (imm : Word)
  | ldix (imm : Word)
  | ldiy (imm : Word)
  -- Loads
  | ldba (addr : Addr)
  | ldbx (addr : Addr)
  | ldby (addr : Addr)
  | ldwa (addr : Addr)
  | ldwx (addr : Addr)
  | ldwy (addr : Addr)
  | ldda (addr : Addr)
  | lddx (addr : Addr)
  | lddy (addr : Addr)
  | ldqa (addr : Addr)
  | ldqx (addr : Addr)
  | ldqy (addr : Addr)
  -- Stores
  | stba (addr : Addr)
  | stbx (addr : Addr)
  | stby (addr : Addr)
  | stwa (addr : Addr)
  | stwx (addr : Addr)
  | stwy (addr : Addr)
  | stda (addr : Addr)
  | stdx (addr : Addr)
  | stdy (addr : Addr)
  | stqa (addr : Addr)
  | stqx (addr : Addr)
  | stqy (addr : Addr)
  -- Stack
  | pusha
  | pushx
  | pushy
  | popa
  | popx
  | popy
  | setstack (addr : Addr)
  -- Control transfer
  | jmp (disp : Int)
  | jmpa (tgt : Addr)
  | jz (disp : Int)
  | jnz (disp : Int)
  | jc (disp : Int)
  | jnc (disp : Int)
  | call (disp : Int)
  | calla (tgt : Addr)
  | bz (disp : Int)
  | bnz (disp : Int)
  | bc (disp : Int)
  | bnc (disp : Int)
  | ret
  -- System
  | int (id : Word)
  | defint (id : Word) (tgt : Addr)
  | setivt (addr : Addr)
  | page (page : PageNo)
  | pageat (page : PageNo) (frame : Word)
  | free (page : PageNo)
  | reduce
  | extend
  | halt
  | haltz
deriving DecidableEq, Repr

end Sys2Proof
end

