-- ==== Sys2Proof/WellFormed.lean ====
section
/-! DEFINITION. Which instructions exist at a block size: every operand must fit the operand word of W bits that
encodes it (30_encoding.md R94). Nothing else is checked: "Operand words are never checked for legality" (R104). -/

namespace Sys2Proof

/-- One reduced operand with its kind (30_encoding.md R94). -/
inductive Operand where
  | imm (v : Word)
  | addr (a : Addr)
  | tgt (t : Addr)
  | disp (d : Int)
  | id (n : Word)
  | page (p : PageNo)
  | frame (f : Word)
deriving DecidableEq, Repr

/-- An operand fits the operand word of block size `bs`: an unsigned operand is below 2^W, a displacement is in
[-2^(W-1), 2^(W-1)) (30_encoding.md R94). -/
def Operand.fits (bs : BlockSize) : Operand → Bool
  | .imm v => decide (v.toNat < 2 ^ bs.width)
  | .addr a => decide (a.toNat < 2 ^ bs.width)
  | .tgt t => decide (t.toNat < 2 ^ bs.width)
  | .disp d => decide (-(2 ^ (bs.width - 1) : Int) ≤ d ∧ d < (2 ^ (bs.width - 1) : Int))
  | .id n => decide (n.toNat < 2 ^ bs.width)
  | .page p => decide (p.toNat < 2 ^ bs.width)
  | .frame f => decide (f.toNat < 2 ^ bs.width)

/-- The action an instruction is an occurrence of (30_encoding.md R93). -/
def Instr.action : Instr → Action
  | .add => .add
  | .sub => .sub
  | .mul => .mul
  | .div => .div
  | .mod => .mod
  | .shl => .shl
  | .shr => .shr
  | .cmpi _ => .cmpi
  | .cmp => .cmp
  | .movax => .movax
  | .movay => .movay
  | .movxa => .movxa
  | .movxy => .movxy
  | .movya => .movya
  | .movyx => .movyx
  | .ldia _ => .ldia
  | .ldix _ => .ldix
  | .ldiy _ => .ldiy
  | .ldba _ => .ldba
  | .ldbx _ => .ldbx
  | .ldby _ => .ldby
  | .ldwa _ => .ldwa
  | .ldwx _ => .ldwx
  | .ldwy _ => .ldwy
  | .ldda _ => .ldda
  | .lddx _ => .lddx
  | .lddy _ => .lddy
  | .ldqa _ => .ldqa
  | .ldqx _ => .ldqx
  | .ldqy _ => .ldqy
  | .stba _ => .stba
  | .stbx _ => .stbx
  | .stby _ => .stby
  | .stwa _ => .stwa
  | .stwx _ => .stwx
  | .stwy _ => .stwy
  | .stda _ => .stda
  | .stdx _ => .stdx
  | .stdy _ => .stdy
  | .stqa _ => .stqa
  | .stqx _ => .stqx
  | .stqy _ => .stqy
  | .pusha => .pusha
  | .pushx => .pushx
  | .pushy => .pushy
  | .popa => .popa
  | .popx => .popx
  | .popy => .popy
  | .setstack _ => .setstack
  | .jmp _ => .jmp
  | .jmpa _ => .jmpa
  | .jz _ => .jz
  | .jnz _ => .jnz
  | .jc _ => .jc
  | .jnc _ => .jnc
  | .call _ => .call
  | .calla _ => .calla
  | .bz _ => .bz
  | .bnz _ => .bnz
  | .bc _ => .bc
  | .bnc _ => .bnc
  | .ret => .ret
  | .int _ => .int
  | .defint _ _ => .defint
  | .setivt _ => .setivt
  | .page _ => .page
  | .pageat _ _ => .pageat
  | .free _ => .free
  | .reduce => .reduce
  | .extend => .extend
  | .halt => .halt
  | .haltz => .haltz

/-- The operands of an instruction, in order, each with the kind that 30_encoding.md R93 gives it. -/
def Instr.operands : Instr → List Operand
  | .add => []
  | .sub => []
  | .mul => []
  | .div => []
  | .mod => []
  | .shl => []
  | .shr => []
  | .cmpi v => [.imm v]
  | .cmp => []
  | .movax => []
  | .movay => []
  | .movxa => []
  | .movxy => []
  | .movya => []
  | .movyx => []
  | .ldia v => [.imm v]
  | .ldix v => [.imm v]
  | .ldiy v => [.imm v]
  | .ldba a => [.addr a]
  | .ldbx a => [.addr a]
  | .ldby a => [.addr a]
  | .ldwa a => [.addr a]
  | .ldwx a => [.addr a]
  | .ldwy a => [.addr a]
  | .ldda a => [.addr a]
  | .lddx a => [.addr a]
  | .lddy a => [.addr a]
  | .ldqa a => [.addr a]
  | .ldqx a => [.addr a]
  | .ldqy a => [.addr a]
  | .stba a => [.addr a]
  | .stbx a => [.addr a]
  | .stby a => [.addr a]
  | .stwa a => [.addr a]
  | .stwx a => [.addr a]
  | .stwy a => [.addr a]
  | .stda a => [.addr a]
  | .stdx a => [.addr a]
  | .stdy a => [.addr a]
  | .stqa a => [.addr a]
  | .stqx a => [.addr a]
  | .stqy a => [.addr a]
  | .pusha => []
  | .pushx => []
  | .pushy => []
  | .popa => []
  | .popx => []
  | .popy => []
  | .setstack a => [.addr a]
  | .jmp d => [.disp d]
  | .jmpa t => [.tgt t]
  | .jz d => [.disp d]
  | .jnz d => [.disp d]
  | .jc d => [.disp d]
  | .jnc d => [.disp d]
  | .call d => [.disp d]
  | .calla t => [.tgt t]
  | .bz d => [.disp d]
  | .bnz d => [.disp d]
  | .bc d => [.disp d]
  | .bnc d => [.disp d]
  | .ret => []
  | .int n => [.id n]
  | .defint n t => [.id n, .tgt t]
  | .setivt a => [.addr a]
  | .page p => [.page p]
  | .pageat p f => [.page p, .frame f]
  | .free p => [.page p]
  | .reduce => []
  | .extend => []
  | .halt => []
  | .haltz => []

/-- An instruction can be encoded at block size `bs`: each operand fits its word. -/
def Instr.wellFormed (bs : BlockSize) (i : Instr) : Bool := i.operands.all (Operand.fits bs)

end Sys2Proof
end

