-- ==== Sys2Proof/Decode.lean ====
section
/-! DEFINITION. Decoding and encoding (30_encoding.md): the opcode is two bytes, high byte first (R95), and selects
the action and with it the format (R93, R106); each operand word is WB bytes, little-endian (R96), reduced by its
kind (R94). -/

namespace Sys2Proof

/-! ## Operand reduction (R94) -/

/-- An imm operand is the word itself (R100). -/
def immOperand (v : Nat) : Word := BitVec.ofNat 64 v

/-- An addr or tgt operand is `v mod 2^32` (R99). -/
def addrOperand (v : Nat) : Addr := BitVec.ofNat 32 v

/-- A disp operand is `sext_W(v)`, a signed integer (R98). -/
def dispOperand (bs : BlockSize) (v : Nat) : Int := sextW bs v

/-- An id operand is the word itself (R101). -/
def idOperand (v : Nat) : Word := BitVec.ofNat 64 v

/-- A page operand is `v mod 2^20` (R102). -/
def pageOperand (v : Nat) : PageNo := BitVec.ofNat 20 v

/-- A frame operand is the word itself (R102). -/
def frameOperand (v : Nat) : Word := BitVec.ofNat 64 v

/-! ## The action table (R93) -/

/-- A format (R106) with what its operand words, as unsigned values, make of it. -/
inductive Format where
  /-- F0: no operand word. -/
  | f0 (i : Instr)
  /-- F1: one operand word. -/
  | f1 (build : Nat → Instr)
  /-- F2: two operand words. -/
  | f2 (build : Nat → Nat → Instr)

/-- The operand count k of a format (R97). -/
def Format.count : Format → Nat
  | .f0 _ => 0
  | .f1 _ => 1
  | .f2 _ => 2

/-- The format and the operand kinds of each action (R93), at the block size its operands are fetched at (R98). -/
def Action.format (bs : BlockSize) : Action → Format
  | .add => .f0 .add
  | .sub => .f0 .sub
  | .mul => .f0 .mul
  | .div => .f0 .div
  | .mod => .f0 .mod
  | .shl => .f0 .shl
  | .shr => .f0 .shr
  | .cmpi => .f1 fun v => .cmpi (immOperand v)
  | .cmp => .f0 .cmp
  | .movax => .f0 .movax
  | .movay => .f0 .movay
  | .movxa => .f0 .movxa
  | .movxy => .f0 .movxy
  | .movya => .f0 .movya
  | .movyx => .f0 .movyx
  | .ldia => .f1 fun v => .ldia (immOperand v)
  | .ldix => .f1 fun v => .ldix (immOperand v)
  | .ldiy => .f1 fun v => .ldiy (immOperand v)
  | .ldba => .f1 fun v => .ldba (addrOperand v)
  | .ldbx => .f1 fun v => .ldbx (addrOperand v)
  | .ldby => .f1 fun v => .ldby (addrOperand v)
  | .ldwa => .f1 fun v => .ldwa (addrOperand v)
  | .ldwx => .f1 fun v => .ldwx (addrOperand v)
  | .ldwy => .f1 fun v => .ldwy (addrOperand v)
  | .ldda => .f1 fun v => .ldda (addrOperand v)
  | .lddx => .f1 fun v => .lddx (addrOperand v)
  | .lddy => .f1 fun v => .lddy (addrOperand v)
  | .ldqa => .f1 fun v => .ldqa (addrOperand v)
  | .ldqx => .f1 fun v => .ldqx (addrOperand v)
  | .ldqy => .f1 fun v => .ldqy (addrOperand v)
  | .stba => .f1 fun v => .stba (addrOperand v)
  | .stbx => .f1 fun v => .stbx (addrOperand v)
  | .stby => .f1 fun v => .stby (addrOperand v)
  | .stwa => .f1 fun v => .stwa (addrOperand v)
  | .stwx => .f1 fun v => .stwx (addrOperand v)
  | .stwy => .f1 fun v => .stwy (addrOperand v)
  | .stda => .f1 fun v => .stda (addrOperand v)
  | .stdx => .f1 fun v => .stdx (addrOperand v)
  | .stdy => .f1 fun v => .stdy (addrOperand v)
  | .stqa => .f1 fun v => .stqa (addrOperand v)
  | .stqx => .f1 fun v => .stqx (addrOperand v)
  | .stqy => .f1 fun v => .stqy (addrOperand v)
  | .pusha => .f0 .pusha
  | .pushx => .f0 .pushx
  | .pushy => .f0 .pushy
  | .popa => .f0 .popa
  | .popx => .f0 .popx
  | .popy => .f0 .popy
  | .setstack => .f1 fun v => .setstack (addrOperand v)
  | .jmp => .f1 fun v => .jmp (dispOperand bs v)
  | .jmpa => .f1 fun v => .jmpa (addrOperand v)
  | .jz => .f1 fun v => .jz (dispOperand bs v)
  | .jnz => .f1 fun v => .jnz (dispOperand bs v)
  | .jc => .f1 fun v => .jc (dispOperand bs v)
  | .jnc => .f1 fun v => .jnc (dispOperand bs v)
  | .call => .f1 fun v => .call (dispOperand bs v)
  | .calla => .f1 fun v => .calla (addrOperand v)
  | .bz => .f1 fun v => .bz (dispOperand bs v)
  | .bnz => .f1 fun v => .bnz (dispOperand bs v)
  | .bc => .f1 fun v => .bc (dispOperand bs v)
  | .bnc => .f1 fun v => .bnc (dispOperand bs v)
  | .ret => .f0 .ret
  | .int => .f1 fun v => .int (idOperand v)
  | .defint => .f2 fun v u => .defint (idOperand v) (addrOperand u)
  | .setivt => .f1 fun v => .setivt (addrOperand v)
  | .page => .f1 fun v => .page (pageOperand v)
  | .pageat => .f2 fun v u => .pageat (pageOperand v) (frameOperand u)
  | .free => .f1 fun v => .free (pageOperand v)
  | .reduce => .f0 .reduce
  | .extend => .f0 .extend
  | .halt => .f0 .halt
  | .haltz => .f0 .haltz

/-- OPTABLE[opcode] (R92): the action of the opcode's first entry, or none. -/
def OpTable.action (tbl : OpTable) (op : Opcode) : Option Action :=
  (tbl.find? fun e => e.1 == op).map Prod.snd

/-! ## Bytes -/

/-- The opcode of two bytes: the first, at the lower address, is the high byte (R95; log 16). -/
def opcodeOf (hi lo : Byte) : Opcode := BitVec.ofNat 16 (hi.toNat * 256 + lo.toNat)

/-- The little-endian value of a list of bytes, the first at the lowest address (20_memory.md R63). -/
def leValue : List Byte → Nat
  | [] => 0
  | b :: l => b.toNat + 256 * leValue l

/-- The low `n` bytes of `v`, the least significant first (20_memory.md R64). -/
def leBytes : Nat → Nat → List Byte
  | 0, _ => []
  | n + 1, v => BitVec.ofNat 8 v :: leBytes n (v / 256)

/-- Take one operand word of `n` bytes off a list of bytes (R96). -/
def takeWord (n : Nat) (l : List Byte) : Option (Nat × List Byte) :=
  if n ≤ l.length then some (leValue (l.take n), l.drop n) else none

/-! ## Decoding -/

/-- Why bytes are no instruction. -/
inductive DecodeError where
  /-- The opcode is absent from OPTABLE (R103); the machine raises UnknownOpcode there. -/
  | unknownOpcode (op : Opcode)
  /-- The bytes end inside the instruction. -/
  | truncated
deriving DecidableEq, Repr

/-- The operand words of a format at the head of a list of bytes, reduced, with the bytes after them. -/
def decodeOperands (bs : BlockSize) (f : Format) (l : List Byte) : Option (Instr × List Byte) :=
  match f with
  | .f0 i => some (i, l)
  | .f1 f => (takeWord bs.bytes l).map fun p => (f p.1, p.2)
  | .f2 f => (takeWord bs.bytes l).bind fun p => (takeWord bs.bytes p.2).map fun q => (f p.1 q.1, q.2)

/-- Decode the instruction at the head of a list of bytes, and give it with the bytes after it. -/
def decode (tbl : OpTable) (bs : BlockSize) : List Byte → Except DecodeError (Instr × List Byte)
  | b0 :: b1 :: l =>
    match tbl.action (opcodeOf b0 b1) with
    | none => .error (.unknownOpcode (opcodeOf b0 b1))
    | some act =>
      match decodeOperands bs (act.format bs) l with
      | none => .error .truncated
      | some p => .ok p
  | _ => .error .truncated

/-! ## Encoding -/

/-- The operand word that an operand reduces from: a displacement in two's complement over W bits (R98), every other
operand as an unsigned number (R94). -/
def Operand.word (bs : BlockSize) : Operand → Nat
  | .imm v => v.toNat
  | .addr a => a.toNat
  | .tgt t => t.toNat
  | .disp d => maskW bs d
  | .id n => n.toNat
  | .page p => p.toNat
  | .frame f => f.toNat

/-- The bytes of an instruction under the opcode `op`: the opcode high byte first (R95), then each operand word in
WB bytes, little-endian (R96, R106). -/
def encodeWith (op : Opcode) (bs : BlockSize) (i : Instr) : List Byte :=
  BitVec.ofNat 8 (op.toNat / 256) :: BitVec.ofNat 8 op.toNat ::
    (i.operands.map fun o => leBytes bs.bytes (o.word bs)).flatten

/-- An opcode that a table gives to an action: the first entry that the table itself reads back as the action. -/
def OpTable.opcodeFor (tbl : OpTable) (act : Action) : Option Opcode :=
  (tbl.find? fun e => tbl.action e.1 == some act).map Prod.fst

/-- The bytes of an instruction at block size `bs` under a table, where the table has the action (R91). -/
def encode (tbl : OpTable) (bs : BlockSize) (i : Instr) : Option (List Byte) :=
  (tbl.opcodeFor i.action).map fun op => encodeWith op bs i

/-- len = 2 + k * WB (R97). -/
def Instr.length (bs : BlockSize) (i : Instr) : Nat := 2 + i.operands.length * bs.bytes

/-! ## Words of the opcode table -/

/-- The bytes in memory, in address order, of an instruction whose bits are `w`: bits 15..0 are the opcode, stored
high byte first (R95), and bit 16 upward are the operand words, stored little-endian (R96); bits from `nbits` on are
0. Eighteen bytes, the longest instruction (R97); log 12. -/
def tableBytes (nbits w : Nat) : List Byte :=
  let v := w % 2 ^ nbits
  BitVec.ofNat 8 (v / 256) :: BitVec.ofNat 8 v :: leBytes 16 (v / 65536)

/-- The instruction the decoder reads from an instruction whose bits are `w`, under EXA at the example platform's
reset block size (log 2, 3, 12). -/
def decodeTableWord (nbits w : Nat) : Option Instr :=
  match decode examplePlatform.opTable examplePlatform.resetBs (tableBytes nbits w) with
  | .ok (i, _) => some i
  | .error _ => none

end Sys2Proof
end

