-- ==== Sys2Proof/Machine/Memory.lean ====
section
/-! DEFINITION. Sparse maps as sorted lists of pairs, and the frame store over them (10_state.md R36, R37). -/

namespace Sys2Proof.Machine

/-! ## Finite maps: lists of (key, value), keys strictly rising -/

/-- The value at key `k`. -/
def mapGet {α : Type} : List (Nat × α) → Nat → Option α
  | [], _ => none
  | (j, v) :: m, k => if k = j then some v else mapGet m k

/-- Put `v` at key `k`, in place of the value there, or as a new entry before the first greater key. -/
def mapSet {α : Type} : List (Nat × α) → Nat → α → List (Nat × α)
  | [], k, v => [(k, v)]
  | (j, u) :: m, k, v =>
    if k < j then (k, v) :: (j, u) :: m
    else if k = j then (k, v) :: m
    else (j, u) :: mapSet m k v

/-- Remove key `k`. -/
def mapErase {α : Type} (m : List (Nat × α)) (k : Nat) : List (Nat × α) :=
  m.filter fun e => decide (e.1 ≠ k)

/-- The canonical form of a map: keys strictly rising, so that equal maps are equal lists. -/
abbrev mapSorted {α : Type} (m : List (Nat × α)) : Prop := m.Pairwise fun e f => e.1 < f.1

/-! ## The frame store -/

/-- FRAMES (10_state.md R37): byte `offset` of frame `f` stands at key `4096 * f + offset`. -/
abbrev Memory := List Host.Cell

/-- The key of a byte of a frame. -/
def cellKey (frame : Nat) (offset : Offset) : Nat := 4096 * frame + offset.toNat

/-- A byte of the store; "every byte of a frame that has not been written reads as 0" (10_state.md R37). -/
def Memory.read (m : Memory) (k : Nat) : Byte := (mapGet m k).getD 0

/-- Write a byte. A zero is what an unlisted cell reads as, so writing it removes the entry. -/
def Memory.write (m : Memory) (k : Nat) (b : Byte) : Memory :=
  if b = 0 then mapErase m k else mapSet m k b

/-- The canonical form of the store: keys strictly rising and no zero byte listed. -/
abbrev Memory.wf (m : Memory) : Prop := mapSorted m ∧ ∀ e ∈ m, e.2 ≠ 0

end Sys2Proof.Machine
end

