-- ==== Sys2Proof/Machine/State.lean ====
section
/-! DEFINITION. The state of the machine (10_state.md), as plain data, and its value after reset (R43). -/

namespace Sys2Proof.Machine

/-- The general registers (10_state.md R21). -/
inductive Reg where
  | A | X | Y
deriving DecidableEq, Repr

/-- The recoverable fault kinds (60_exceptions.md R227). -/
inductive FaultKind where
  /-- A zero entry read for an id below 0x100. -/
  | undefinedInterrupt
  /-- An opcode absent from OPTABLE. -/
  | unknownOpcode
  /-- A byte access to an unmapped page other than DEVICE_PAGE. -/
  | pageFault
  /-- RegisterInt with an id above IVT_MAX_ID. -/
  | ivtOverflow
deriving DecidableEq, Repr

/-- The fatal reason codes (10_state.md R39). -/
inductive FatalReason where
  | missingImage | noHandler | doubleFault | unsetBase | divideByZero | noPort | reservedFrame | outOfFrames
deriving DecidableEq, Repr

/-- Which halting instruction ran (10_state.md R38). -/
inductive HaltKind where
  | halt | haltz
deriving DecidableEq, Repr

/-- The controller's state `run` (10_state.md R38). -/
inductive RunState where
  | running
  | haltedBy (k : HaltKind)
  | haltedFatal (r : FatalReason)
deriving DecidableEq, Repr

/-- One call of a device port (20_memory.md R70), with the byte that passed. -/
inductive PortCall where
  | read (port : Nat) (b : Byte)
  | write (port : Nat) (b : Byte)
deriving DecidableEq, Repr

/-- Everything the machine holds (10_state.md R43), the parameters (R42), and two fields of the model's own. -/
structure State where
  /-- x[A] (R21), a 64-bit cell (00_scope.md R9). -/
  a : Word
  /-- x[X] (R21). -/
  x : Word
  /-- x[Y] (R21). -/
  y : Word
  /-- The carry flag C (R28). -/
  c : Bool
  /-- The zero or comparison flag Z (R29). -/
  z : Bool
  /-- The program counter (R25). -/
  pc : Addr
  /-- The latched start address of the current instruction (R27). -/
  start : Addr
  /-- The block size (R32). -/
  bs : BlockSize
  /-- stack_base (R33). -/
  stackBase : Addr
  /-- stack_base_valid (R33). -/
  stackBaseValid : Bool
  /-- stack_pos, the byte offset below stack_base (R34). -/
  stackPos : Addr
  /-- ivt_base (R35). -/
  ivtBase : Addr
  /-- ivt_base_valid (R35). -/
  ivtBaseValid : Bool
  /-- PT, the page table: page number to frame id (R36). -/
  pt : List (Nat × Nat)
  /-- FRAMES, the frame store (R37). -/
  frames : Memory
  /-- The controller's state (R38). -/
  run : RunState
  /-- NUM_PORTS, how many device ports the host has registered (R40). -/
  ports : Nat
  /-- The vector the router is servicing; clear outside a router transaction (R41). -/
  routing : Option Nat
  /-- The parameters (R42): no step changes them; log 1. -/
  cfg : Config
  /-- The MODEL's own: the number of port reads made, the index of the next free value; log 8. -/
  draws : Nat
  /-- The MODEL's own: the port calls made, newest first; log 9. -/
  portLog : List PortCall
deriving DecidableEq, Repr

/-- Why a step stops the model. -/
inductive Fault where
  /-- Raised by `step` alone, in a state whose `run` is not Running: no step is enabled there (40_cycle.md R111,
  R120), so the machine is stuck, as the spec says. Safe: no behaviour of the hardware is left out; log 11. -/
  | notRunning
deriving DecidableEq, Repr

/-- Why the model gives an instruction no meaning. -/
inductive Refusal where
  /-- Raised by an arm of `exec` whose instruction has no meaning yet; no arm does. Safe: the model stops where the
  hardware goes on. -/
  | notModelled (mnemonic : String)
deriving DecidableEq, Repr

/-- The machine right after reset with the parameters `cfg` (10_state.md R43, 70_reset_and_hazards.md R251).
`stackBase` and `ivtBase` are unspecified and unobservable while their valid bits are clear: 0, DESIGN CHOICE,
log 7. -/
def State.resetWith (cfg : Config) : State where
  a := 0
  x := 0
  y := 0
  c := false
  z := false
  pc := cfg.biosEntry
  start := 0
  bs := cfg.resetBs
  stackBase := 0
  stackBaseValid := false
  stackPos := 0
  ivtBase := 0
  ivtBaseValid := false
  pt := []
  frames := []
  run := .running
  ports := 0
  routing := none
  cfg := cfg
  draws := 0
  portLog := []

/-- The machine right after reset on the example platform; its parameters are DESIGN CHOICE (log 2 to 6), everything
else is `State.resetWith`. -/
def State.reset : State := State.resetWith examplePlatform

end Sys2Proof.Machine
end

