-- ==== Sys2Proof/Machine/Operands.lean ====
section
/-! DEFINITION. What the execute phase makes of its operands: registers, relative targets and a register's new value
(10_state.md R21 to R24, 44_control_transfer.md R191). -/

namespace Sys2Proof.Machine

/-- `x[r]` (00_scope.md R12). -/
def getReg (r : Reg) (s : State) : Word :=
  match r with
  | .A => s.a
  | .X => s.x
  | .Y => s.y

/-- `x[r] <- v` (00_scope.md R12). -/
def setReg (r : Reg) (v : Word) (s : State) : State :=
  match r with
  | .A => { s with a := v }
  | .X => { s with x := v }
  | .Y => { s with y := v }

/-- The register cell that holds mask_W(v) (00_scope.md R11). -/
def maskedCell (bs : BlockSize) (v : Int) : Word := BitVec.ofNat 64 (maskW bs v)

/-- `x[r] <- mask_W(v)` at the block size in force (42_data_movement.md R142). -/
def setRegMasked (r : Reg) (v : Nat) (s : State) : State := setReg r (maskedCell s.bs v) s

/-- The target `(start + d) mod 2^32` of a relative transfer (44_control_transfer.md R191). -/
def relTarget (d : Int) (s : State) : Addr := s.start + BitVec.ofInt 32 d

/-- `pc <- t` (00_scope.md R12). -/
def jump (t : Addr) (s : State) : State := { s with pc := t }

/-- The page number of an address, bits 31..12 (20_memory.md R51). -/
def pageOf (a : Addr) : PageNo := a.extractLsb' 12 20

/-- The offset of an address in its page, bits 11..0 (20_memory.md R51). -/
def offsetOf (a : Addr) : Offset := a.extractLsb' 0 12

end Sys2Proof.Machine
end

