-- ==== Sys2Proof/Machine/Ops.lean ====
section
/-! DEFINITION. The named operations over memory, ports, page table, stack and IVT (20_memory.md), and taking a fault
(60_exceptions.md R232 to R235): the fault router, shared by every instruction and by the fetch. -/

namespace Sys2Proof.Machine

/-! ## Outcomes inside a step (00_scope.md R14) -/

/-- What a part of a step comes to. Every case carries the state with the effects made so far, because nothing is
rolled back (20_memory.md R68, 40_cycle.md R119). -/
inductive Res (α : Type) where
  /-- The part completed with the value `v`. -/
  | ok (v : α) (s : State)
  /-- `raise K`: the rest is abandoned and the fault is routed. -/
  | raise (k : FaultKind) (s : State)
  /-- `fatal(reason)`: the rest is abandoned and the machine halts. -/
  | fatal (r : FatalReason) (s : State)
deriving DecidableEq, Repr

/-- Statements in sequence: what follows a raise or a fatal does not run (00_scope.md R15). -/
def Res.bind {α β : Type} (m : Res α) (f : α → State → Res β) : Res β :=
  match m with
  | .ok v s => f v s
  | .raise k s => .raise k s
  | .fatal r s => .fatal r s

/-! ## Translation (20_memory.md section 1) -/

/-- Where a byte access goes. -/
inductive Place where
  /-- The port at this index (R53, R69). -/
  | port (k : Nat)
  /-- A byte of a frame, by its key in the store (R52). -/
  | cell (key : Nat)
  /-- Nowhere: the access raises PageFault (R54). -/
  | unmapped
deriving DecidableEq, Repr

/-- Translate an address: the device page first, then the page table (R51 to R54). -/
def translate (s : State) (a : Addr) : Place :=
  if pageOf a = s.cfg.devicePage then .port (offsetOf a).toNat
  else
    match mapGet s.pt (pageOf a).toNat with
    | some f => .cell (cellKey f (offsetOf a))
    | none => .unmapped

/-- The byte an address of a mapped frame holds, with no effect: how statements look at memory. A port has none. -/
def peek (s : State) (a : Addr) : Option Byte :=
  match translate s a with
  | .cell key => some (s.frames.read key)
  | _ => none

/-! ## Ports (20_memory.md section 5) -/

/-- `PortRead(k)` (R72): a port that is absent is fatal(NoPort) (R71); the byte is a draw. -/
def portRead (k : Nat) (s : State) : Res Byte :=
  if k < s.ports then
    .ok (Config.deviceRead s.draws)
      { s with draws := s.draws + 1, portLog := .read k (Config.deviceRead s.draws) :: s.portLog }
  else .fatal .noPort s

/-- `PortWrite(k, b)` (R72): no frame changes. -/
def portWrite (k : Nat) (b : Byte) (s : State) : Res Unit :=
  if k < s.ports then .ok () { s with portLog := .write k b :: s.portLog }
  else .fatal .noPort s

/-! ## Byte and multi-byte access (20_memory.md sections 2 and 4) -/

/-- `Load(a)` (R57). -/
def load (a : Addr) (s : State) : Res Byte :=
  match translate s a with
  | .port k => portRead k s
  | .cell key => .ok (s.frames.read key) s
  | .unmapped => .raise .pageFault s

/-- `Store(a, b)` (R58). -/
def store (a : Addr) (b : Byte) (s : State) : Res Unit :=
  match translate s a with
  | .port k => portWrite k b s
  | .cell key => .ok () { s with frames := s.frames.write key b }
  | .unmapped => .raise .pageFault s

/-- `MemRead(a, n)` (R63): bytes in ascending order, modulo 2^32, little-endian. -/
def memRead (a : Addr) : Nat → State → Res Nat
  | 0, s => .ok 0 s
  | n + 1, s =>
    (load a s).bind fun b s =>
    (memRead (a + 1#32) n s).bind fun v s => .ok (b.toNat + 256 * v) s

/-- `MemWrite(a, n, v)` (R64): the low `n` bytes of `v`, in ascending order, modulo 2^32. -/
def memWrite (a : Addr) : Nat → Nat → State → Res Unit
  | 0, _, s => .ok () s
  | n + 1, v, s =>
    (store a (BitVec.ofNat 8 v) s).bind fun _ s => memWrite (a + 1#32) n (v / 256) s

/-! ## Page table (20_memory.md section 3) -/

/-- The frames that `LowestFree` may not pick: DEVICE_FRAME and every frame some page maps to (R60). -/
def usedFrames (s : State) : List Nat := s.cfg.deviceFrame :: s.pt.map Prod.snd

/-- The first number from `f` on that is not in `used`, looking at `fuel` numbers before it takes the next. -/
def firstUnused (used : List Nat) : Nat → Nat → Nat
  | 0, f => f
  | fuel + 1, f => if f ∈ used then firstUnused used fuel (f + 1) else f

/-- `LowestFree` (R60): among the first `used.length + 1` numbers one is unused. -/
def lowestFree (s : State) : Nat := firstUnused (usedFrames s) (usedFrames s).length 0

/-- A frame id lies at or above a finite NUM_FRAMES (R60, D38). -/
def beyondFrames (s : State) (f : Nat) : Bool :=
  match s.cfg.numFrames with
  | none => false
  | some n => decide (n ≤ f)

/-- `PT[page] <- f` (R59). -/
def mapPage (p : PageNo) (f : Nat) (s : State) : State := { s with pt := mapSet s.pt p.toNat f }

/-- `allocate_page(page)` with no frame given (R59, R60). -/
def allocatePage (p : PageNo) (s : State) : Res Unit :=
  if beyondFrames s (lowestFree s) then .fatal .outOfFrames s
  else .ok () (mapPage p (lowestFree s) s)

/-- `allocate_page(page, frame)` as PAGEAT does it (45_system.md R216). -/
def allocatePageAt (p : PageNo) (f : Nat) (s : State) : Res Unit :=
  if f = s.cfg.deviceFrame then .fatal .reservedFrame s
  else if beyondFrames s f then .fatal .outOfFrames s
  else .ok () (mapPage p f s)

/-- `free_page(page)` (R61). -/
def freePage (p : PageNo) (s : State) : State := { s with pt := mapErase s.pt p.toNat }

/-! ## Stack (20_memory.md section 7) -/

/-- The address of the current slot, `(stack_base - stack_pos) mod 2^32` (R75). -/
def stackSlot (s : State) : Addr := s.stackBase - s.stackPos

/-- `Push(n, v)` (R76): the increment comes first and stays if the write faults. -/
def push (n : Nat) (v : Nat) (s : State) : Res Unit :=
  if s.stackBaseValid then
    let t := { s with stackPos := s.stackPos + BitVec.ofNat 32 n }
    memWrite (stackSlot t) n v t
  else .fatal .unsetBase s

/-- `Pop(n)` (R77): the decrement comes last, so a faulting read leaves stack_pos. -/
def pop (n : Nat) (s : State) : Res Nat :=
  if s.stackBaseValid then
    (memRead (stackSlot s) n s).bind fun v s => .ok v { s with stackPos := s.stackPos - BitVec.ofNat 32 n }
  else .fatal .unsetBase s

/-- `Push(4, pc)`, then `pc <- t`: how calls (44_control_transfer.md R199), INT (45_system.md R212) and the router
(60_exceptions.md R232) transfer. -/
def pushPcAndJump (t : Addr) (s : State) : Res Unit :=
  (push 4 s.pc.toNat s).bind fun _ s => .ok () (jump t s)

/-! ## IVT (20_memory.md section 8) -/

/-- The address of entry `id`, `(ivt_base + 4*id) mod 2^32` (R79). -/
def ivtSlot (id : Nat) (s : State) : Addr := s.ivtBase + BitVec.ofNat 32 (4 * id)

/-- `RegisterInt(id, t)` (R80): the overflow check comes before the base check. -/
def registerInt (id : Nat) (t : Addr) (s : State) : Res Unit :=
  if s.cfg.ivtMaxId < id then .raise .ivtOverflow s
  else if s.ivtBaseValid then memWrite (ivtSlot id s) 4 t.toNat s
  else .fatal .unsetBase s

/-- `FindInt(id)` (R81). -/
def findInt (id : Nat) (s : State) : Res Nat :=
  if s.ivtBaseValid then
    (memRead (ivtSlot id s) 4 s).bind fun t s =>
      if t = 0 ∧ id < 0x100 then .raise .undefinedInterrupt s else .ok t s
  else .fatal .unsetBase s

/-! ## The fault router (60_exceptions.md section 4) -/

/-- The vector of a fault kind (R227). -/
def vectorOf : FaultKind → Nat
  | .undefinedInterrupt => 0x100
  | .unknownOpcode => 0x101
  | .pageFault => 0x102
  | .ivtOverflow => 0x103

/-- `routing <- v` (10_state.md R41). -/
def servicing (v : Nat) (s : State) : State := { s with routing := some v }

/-- One transaction of the router for vector `v` (R232): entry, push, jump. `missing` is what a zero entry comes to
(R233), `nested` what a fault inside the transaction comes to (R234). The router reads its entry directly, not
through `findInt`. -/
def transaction (v : Nat) (missing nested : State → Res Unit) (s : State) : Res Unit :=
  if s.ivtBaseValid then
    match memRead (ivtSlot v s) 4 (servicing v s) with
    | .ok t s =>
      if t = 0 then missing s
      else
        match pushPcAndJump (BitVec.ofNat 32 t) s with
        | .ok _ s => .ok () { s with routing := none }
        | .raise _ s => nested s
        | .fatal r s => .fatal r s
    | .raise _ s => nested s
    | .fatal r s => .fatal r s
  else .fatal .unsetBase (servicing v s)

/-- The router servicing vector 0x100, where it escalates no further: a zero entry is fatal(NoHandler) (R233), a
fault inside is fatal(DoubleFault) (R234). -/
def routeLast (s : State) : Res Unit :=
  transaction 0x100 (fun s => .fatal .noHandler s) (fun s => .fatal .doubleFault s) s

/-- What a zero entry of a vector other than 0x100 comes to (R233). -/
def missingVector (s : State) : Res Unit :=
  match s.cfg.missingVector with
  | .fatal => .fatal .noHandler s
  | .escalate => routeLast s

/-- What a fault inside the router at a vector other than 0x100 comes to (R234). -/
def nestedFault (s : State) : Res Unit :=
  match s.cfg.routerFault with
  | .fatal => .fatal .doubleFault s
  | .escalate => routeLast s

/-- TAKING A FAULT: `Route(K)` (R232). -/
def route (k : FaultKind) (s : State) : Res Unit :=
  if vectorOf k = 0x100 then routeLast s else transaction (vectorOf k) missingVector nestedFault s

/-- RETURNING FROM A FAULT OR A CALL: `pc <- Pop(4)`, which restores pc only (R240, 44_control_transfer.md R205). -/
def returnPc (s : State) : Res Unit :=
  (pop 4 s).bind fun v s => .ok () (jump (BitVec.ofNat 32 v) s)

/-! ## The end of a step (40_cycle.md R118, R119) -/

/-- `run <- Halted(fatal, r)`; `routing` lives only inside a router transaction, which is over (10_state.md R41,
log 11). -/
def haltFatal (r : FatalReason) (s : State) : State := { s with run := .haltedFatal r, routing := none }

/-- The state after the router has run. Its last `raise` is never reached: both transactions turn a fault inside into
a routing or a fatal outcome (Laws/Router.lean proves it). -/
def afterRoute : Res Unit → State
  | .ok _ s => s
  | .raise _ s => haltFatal .doubleFault s
  | .fatal r s => haltFatal r s

/-- The state at the end of a step: a raised fault is routed inside the same step (40_cycle.md R118), a fatal outcome
halts (R119). -/
def settle : Res Unit → State
  | .ok _ s => s
  | .raise k s => afterRoute (route k s)
  | .fatal r s => haltFatal r s

/-- The answer of a meaning: the step always has a next state, a fatal outcome included. -/
def finish (m : Res Unit) : Host.Outcome State Fault Refusal := .next (settle m)

end Sys2Proof.Machine
end

