-- ==== Sys2Proof/Machine/Boot.lean ====
section
/-! DEFINITION. What the host does to the block between reset and the first step (70_reset_and_hazards.md R251 to
R256), and the placing of one instruction, which stands for it. -/

namespace Sys2Proof.Machine

/-- The host's reset, at any time (R256) and the only way out of a Halted state (10_state.md R38): R251. The model's own
two fields go on, so that later port reads are new draws (log 8, 9, 17). -/
def hostReset (s : State) : State := { State.resetWith s.cfg with draws := s.draws, portLog := s.portLog }

/-- `register_port` (R253 step 2): one more port, with its index, while there are fewer than 4096 (10_state.md R40). -/
def registerPort (s : State) : Option (State × Nat) :=
  if s.ports < 4096 then some ({ s with ports := s.ports + 1 }, s.ports) else none

/-- `register_port` `n` times; what goes beyond 4096 ports is not registered (10_state.md R40). -/
def registerPorts (n : Nat) (s : State) : State := { s with ports := min (s.ports + n) 4096 }

/-- `allocate_page` for the page of an address that has none yet (R253 step 3; log 13). -/
def ensureMapped (a : Addr) (s : State) : Res Unit :=
  match mapGet s.pt (pageOf a).toNat with
  | some _ => .ok () s
  | none => allocatePage (pageOf a) s

/-- R253 step 3 for one image at `a`: its pages in ascending order. -/
def mapImage : Addr → List Byte → State → Res Unit
  | _, [], s => .ok () s
  | a, _ :: l, s => (ensureMapped a s).bind fun _ s => mapImage (a + 1#32) l s

/-- R253 step 4 for one image at `a`: byte by byte, through `Store` (20_memory.md R88). -/
def flash : Addr → List Byte → State → Res Unit
  | _, [], s => .ok () s
  | a, b :: l, s => (store a b s).bind fun _ s => flash (a + 1#32) l s

/-- The state a host operation leaves: nothing routes a fault outside a step, and a fatal outcome halts. -/
def hostState : Res Unit → State
  | .ok _ s => s
  | .raise _ s => s
  | .fatal r s => haltFatal r s

/-- The boot sequence of R253 with `n` ports and the two images; a missing image is fatal(MissingImage) before the
first step (R254). DESIGN CHOICE (log 13): where in R253's sequence it is found. Here that is after step 2: the ports are
registered, no page is mapped and nothing is flashed, not even the image that is present. -/
def boot (cfg : Config) (n : Nat) (bootImage biosImage : Option (List Byte)) : State :=
  let s := registerPorts n (State.resetWith cfg)
  match bootImage, biosImage with
  | some p, some q =>
    hostState
      ((mapImage cfg.bootBase p s).bind fun _ s =>
        (mapImage cfg.biosBase q s).bind fun _ s =>
        (flash cfg.bootBase p s).bind fun _ s =>
        (flash cfg.biosBase q s).bind fun _ s => .ok () { s with pc := cfg.biosEntry })
  | _, _ => haltFatal .missingImage s

/-- `s`, running, with bytes in memory at its pc, their pages mapped: the host's flashing of one instruction
(log 12). -/
def placeAtPc (bytes : List Byte) (s : State) : State :=
  hostState
    ((mapImage s.pc bytes { s with run := .running }).bind fun _ t => flash s.pc bytes t)

end Sys2Proof.Machine
end

