-- ==== Sys2Proof/Machine/Flags.lean ====
section
/-! DEFINITION. The two flag computations of the block (10_state.md R28, R29, R31). -/

namespace Sys2Proof.Machine

/-- `C <- (r != mask_W(r))` for an exact result `r` (10_state.md R28). -/
def carryOf (bs : BlockSize) (r : Int) : Bool := decide (r ≠ maskW bs r)

/-- `Z <- (mask_W(r) == 0)` for an exact result `r` (10_state.md R29). -/
def zeroOf (bs : BlockSize) (r : Int) : Bool := decide (maskW bs r = 0)

/-- The shape of every arithmetic and shift instruction (41_arithmetic.md R126): the exact result `r`, masked, goes
to A, and C and Z are derived from it. -/
def setArith (r : Int) (s : State) : State :=
  { s with a := maskedCell s.bs r, c := carryOf s.bs r, z := zeroOf s.bs r }

/-- The effect of a compare instruction: Z is the outcome, C stays (10_state.md R29, R31). -/
def setCompare (left right : Word) (s : State) : State := { s with z := decide (left = right) }

end Sys2Proof.Machine
end

