-- ==== Sys2Proof/Machine/Arithmetic.lean ====
section
/-! DEFINITION. Arithmetic, shift and compare instructions (41_arithmetic.md). -/

namespace Sys2Proof.Machine

/-- The shift `r = x[X] * 2^x[Y]` of R132, computed with the count cut to W: from a count of W on, the masked result
is 0 and a bit is lost exactly when X is not 0, whatever the count (Laws/Arithmetic.lean proves the two equal). -/
def shiftedLeft (s : State) : Int := s.x.toNat * 2 ^ min s.y.toNat s.bs.width

/-- The shift `r = floor(x[X] / 2^x[Y])` of R133, computed with the count cut to 64, the width of a cell, from which
on it is 0 (Laws/Arithmetic.lean). -/
def shiftedRight (s : State) : Int := (s.x.toNat / 2 ^ min s.y.toNat 64 : Nat)

/-- `ADD` (R127). -/
def execAdd (s : State) : Host.Outcome State Fault Refusal :=
  finish (.ok () (setArith (s.x.toNat + s.y.toNat) s))

/-- `SUB` (R128). -/
def execSub (s : State) : Host.Outcome State Fault Refusal :=
  finish (.ok () (setArith (s.x.toNat - s.y.toNat) s))

/-- `MUL` (R129). -/
def execMul (s : State) : Host.Outcome State Fault Refusal :=
  finish (.ok () (setArith (s.x.toNat * s.y.toNat) s))

/-- `DIV` (R130): unsigned; a zero divisor is fatal(DivideByZero). -/
def execDiv (s : State) : Host.Outcome State Fault Refusal :=
  finish (if s.y = 0 then .fatal .divideByZero s else .ok () (setArith ((s.x.toNat / s.y.toNat : Nat) : Int) s))

/-- `MOD` (R131): unsigned; a zero divisor is fatal(DivideByZero). -/
def execMod (s : State) : Host.Outcome State Fault Refusal :=
  finish (if s.y = 0 then .fatal .divideByZero s else .ok () (setArith ((s.x.toNat % s.y.toNat : Nat) : Int) s))

/-- `SHL` (R132). -/
def execShl (s : State) : Host.Outcome State Fault Refusal :=
  finish (.ok () (setArith (shiftedLeft s) s))

/-- `SHR` (R133). -/
def execShr (s : State) : Host.Outcome State Fault Refusal :=
  finish (.ok () (setArith (shiftedRight s) s))

/-- `CMPI imm` (R134). -/
def execCmpi (v : Word) (s : State) : Host.Outcome State Fault Refusal :=
  finish (.ok () (setCompare s.a v s))

/-- `CMP` (R135). -/
def execCmp (s : State) : Host.Outcome State Fault Refusal :=
  finish (.ok () (setCompare s.x s.y s))

end Sys2Proof.Machine
end

