-- ==== Sys2Proof/Machine/Control.lean ====
section
/-! DEFINITION. Control transfer instructions (44_control_transfer.md). -/

namespace Sys2Proof.Machine

/-- A relative jump on a condition (R195 to R198); otherwise pc stays at the next instruction. -/
def jumpIf (cond : Bool) (d : Int) (s : State) : Res Unit := .ok () (if cond then jump (relTarget d s) s else s)

/-- A call: push the return address, which is pc after the operand fetch, then jump (R192, R199). -/
def callTo (t : Addr) (s : State) : Res Unit := pushPcAndJump t s

/-- A relative call on a condition (R201 to R204); not taken, nothing is pushed. -/
def callIf (cond : Bool) (d : Int) (s : State) : Res Unit := if cond then callTo (relTarget d s) s else .ok () s

/-- `JMP disp` (R193). -/
def execJmp (d : Int) (s : State) : Host.Outcome State Fault Refusal := finish (.ok () (jump (relTarget d s) s))

/-- `JMPA tgt` (R194). -/
def execJmpa (t : Addr) (s : State) : Host.Outcome State Fault Refusal := finish (.ok () (jump t s))

/-- `JZ disp` (R195). -/
def execJz (d : Int) (s : State) : Host.Outcome State Fault Refusal := finish (jumpIf s.z d s)

/-- `JNZ disp` (R196). -/
def execJnz (d : Int) (s : State) : Host.Outcome State Fault Refusal := finish (jumpIf (!s.z) d s)

/-- `JC disp` (R197). -/
def execJc (d : Int) (s : State) : Host.Outcome State Fault Refusal := finish (jumpIf s.c d s)

/-- `JNC disp` (R198). -/
def execJnc (d : Int) (s : State) : Host.Outcome State Fault Refusal := finish (jumpIf (!s.c) d s)

/-- `CALL disp` (R199). -/
def execCall (d : Int) (s : State) : Host.Outcome State Fault Refusal := finish (callTo (relTarget d s) s)

/-- `CALLA tgt` (R200). -/
def execCalla (t : Addr) (s : State) : Host.Outcome State Fault Refusal := finish (callTo t s)

/-- `BZ disp` (R201). -/
def execBz (d : Int) (s : State) : Host.Outcome State Fault Refusal := finish (callIf s.z d s)

/-- `BNZ disp` (R202). -/
def execBnz (d : Int) (s : State) : Host.Outcome State Fault Refusal := finish (callIf (!s.z) d s)

/-- `BC disp` (R203). -/
def execBc (d : Int) (s : State) : Host.Outcome State Fault Refusal := finish (callIf s.c d s)

/-- `BNC disp` (R204). -/
def execBnc (d : Int) (s : State) : Host.Outcome State Fault Refusal := finish (callIf (!s.c) d s)

/-- `RET` (R205). -/
def execRet (s : State) : Host.Outcome State Fault Refusal := finish (returnPc s)

end Sys2Proof.Machine
end

