-- ==== Sys2Proof/Machine/DataMovement.lean ====
section
/-! DEFINITION. Moves, immediate loads, loads and stores (42_data_movement.md). -/

namespace Sys2Proof.Machine

/-! ## Shared operations -/

/-- `x[dst] <- x[src]` (R144 to R149). -/
def moveReg (dst src : Reg) (s : State) : Res Unit := .ok () (setReg dst (getReg src s) s)

/-- `x[r] <- imm` (R150 to R152). -/
def loadImm (r : Reg) (v : Word) (s : State) : Res Unit := .ok () (setReg r v s)

/-- `x[r] <- mask_W(MemRead(addr, n))` (R142, R153 to R164). -/
def loadReg (r : Reg) (n : Nat) (a : Addr) (s : State) : Res Unit :=
  (memRead a n s).bind fun v s => .ok () (setRegMasked r v s)

/-- `MemWrite(addr, n, x[r])` (R143, R165 to R176). -/
def storeReg (r : Reg) (n : Nat) (a : Addr) (s : State) : Res Unit := memWrite a n (getReg r s).toNat s

/-! ## Register-to-register moves -/

/-- `MOVAX` (R144). -/
def execMovAX (s : State) : Host.Outcome State Fault Refusal := finish (moveReg .A .X s)

/-- `MOVAY` (R145). -/
def execMovAY (s : State) : Host.Outcome State Fault Refusal := finish (moveReg .A .Y s)

/-- `MOVXA` (R146). -/
def execMovXA (s : State) : Host.Outcome State Fault Refusal := finish (moveReg .X .A s)

/-- `MOVXY` (R147). -/
def execMovXY (s : State) : Host.Outcome State Fault Refusal := finish (moveReg .X .Y s)

/-- `MOVYA` (R148). -/
def execMovYA (s : State) : Host.Outcome State Fault Refusal := finish (moveReg .Y .A s)

/-- `MOVYX` (R149). -/
def execMovYX (s : State) : Host.Outcome State Fault Refusal := finish (moveReg .Y .X s)

/-! ## Immediate loads -/

/-- `LDIA imm` (R150). -/
def execLdiA (v : Word) (s : State) : Host.Outcome State Fault Refusal := finish (loadImm .A v s)

/-- `LDIX imm` (R151). -/
def execLdiX (v : Word) (s : State) : Host.Outcome State Fault Refusal := finish (loadImm .X v s)

/-- `LDIY imm` (R152). -/
def execLdiY (v : Word) (s : State) : Host.Outcome State Fault Refusal := finish (loadImm .Y v s)

/-! ## Loads -/

/-- `LDBA addr` (R153). -/
def execLdbA (a : Addr) (s : State) : Host.Outcome State Fault Refusal := finish (loadReg .A 1 a s)

/-- `LDBX addr` (R154). -/
def execLdbX (a : Addr) (s : State) : Host.Outcome State Fault Refusal := finish (loadReg .X 1 a s)

/-- `LDBY addr` (R155). -/
def execLdbY (a : Addr) (s : State) : Host.Outcome State Fault Refusal := finish (loadReg .Y 1 a s)

/-- `LDWA addr` (R156). -/
def execLdwA (a : Addr) (s : State) : Host.Outcome State Fault Refusal := finish (loadReg .A 2 a s)

/-- `LDWX addr` (R157). -/
def execLdwX (a : Addr) (s : State) : Host.Outcome State Fault Refusal := finish (loadReg .X 2 a s)

/-- `LDWY addr` (R158). -/
def execLdwY (a : Addr) (s : State) : Host.Outcome State Fault Refusal := finish (loadReg .Y 2 a s)

/-- `LDDA addr` (R159). -/
def execLddA (a : Addr) (s : State) : Host.Outcome State Fault Refusal := finish (loadReg .A 4 a s)

/-- `LDDX addr` (R160). -/
def execLddX (a : Addr) (s : State) : Host.Outcome State Fault Refusal := finish (loadReg .X 4 a s)

/-- `LDDY addr` (R161). -/
def execLddY (a : Addr) (s : State) : Host.Outcome State Fault Refusal := finish (loadReg .Y 4 a s)

/-- `LDQA addr` (R162). -/
def execLdqA (a : Addr) (s : State) : Host.Outcome State Fault Refusal := finish (loadReg .A 8 a s)

/-- `LDQX addr` (R163). -/
def execLdqX (a : Addr) (s : State) : Host.Outcome State Fault Refusal := finish (loadReg .X 8 a s)

/-- `LDQY addr` (R164). -/
def execLdqY (a : Addr) (s : State) : Host.Outcome State Fault Refusal := finish (loadReg .Y 8 a s)

/-! ## Stores -/

/-- `STBA addr` (R165). -/
def execStbA (a : Addr) (s : State) : Host.Outcome State Fault Refusal := finish (storeReg .A 1 a s)

/-- `STBX addr` (R166). -/
def execStbX (a : Addr) (s : State) : Host.Outcome State Fault Refusal := finish (storeReg .X 1 a s)

/-- `STBY addr` (R167). -/
def execStbY (a : Addr) (s : State) : Host.Outcome State Fault Refusal := finish (storeReg .Y 1 a s)

/-- `STWA addr` (R168). -/
def execStwA (a : Addr) (s : State) : Host.Outcome State Fault Refusal := finish (storeReg .A 2 a s)

/-- `STWX addr` (R169). -/
def execStwX (a : Addr) (s : State) : Host.Outcome State Fault Refusal := finish (storeReg .X 2 a s)

/-- `STWY addr` (R170). -/
def execStwY (a : Addr) (s : State) : Host.Outcome State Fault Refusal := finish (storeReg .Y 2 a s)

/-- `STDA addr` (R171). -/
def execStdA (a : Addr) (s : State) : Host.Outcome State Fault Refusal := finish (storeReg .A 4 a s)

/-- `STDX addr` (R172). -/
def execStdX (a : Addr) (s : State) : Host.Outcome State Fault Refusal := finish (storeReg .X 4 a s)

/-- `STDY addr` (R173). -/
def execStdY (a : Addr) (s : State) : Host.Outcome State Fault Refusal := finish (storeReg .Y 4 a s)

/-- `STQA addr` (R174). -/
def execStqA (a : Addr) (s : State) : Host.Outcome State Fault Refusal := finish (storeReg .A 8 a s)

/-- `STQX addr` (R175). -/
def execStqX (a : Addr) (s : State) : Host.Outcome State Fault Refusal := finish (storeReg .X 8 a s)

/-- `STQY addr` (R176). -/
def execStqY (a : Addr) (s : State) : Host.Outcome State Fault Refusal := finish (storeReg .Y 8 a s)

end Sys2Proof.Machine
end

