-- ==== Sys2Proof/Machine/Stack.lean ====
section
/-! DEFINITION. Stack instructions (43_stack.md). -/

namespace Sys2Proof.Machine

/-- `Push(WB, x[r])` (R181 to R184). -/
def pushReg (r : Reg) (s : State) : Res Unit := push s.bs.bytes (getReg r s).toNat s

/-- `x[r] <- Pop(WB)` (R181, R185 to R187). -/
def popReg (r : Reg) (s : State) : Res Unit :=
  (pop s.bs.bytes s).bind fun v s => .ok () (setReg r (BitVec.ofNat 64 v) s)

/-- `PUSHA` (R182). -/
def execPushA (s : State) : Host.Outcome State Fault Refusal := finish (pushReg .A s)

/-- `PUSHX` (R183). -/
def execPushX (s : State) : Host.Outcome State Fault Refusal := finish (pushReg .X s)

/-- `PUSHY` (R184). -/
def execPushY (s : State) : Host.Outcome State Fault Refusal := finish (pushReg .Y s)

/-- `POPA` (R185). -/
def execPopA (s : State) : Host.Outcome State Fault Refusal := finish (popReg .A s)

/-- `POPX` (R186). -/
def execPopX (s : State) : Host.Outcome State Fault Refusal := finish (popReg .X s)

/-- `POPY` (R187). -/
def execPopY (s : State) : Host.Outcome State Fault Refusal := finish (popReg .Y s)

/-- `SETSTACK addr` (R188). -/
def execSetStack (a : Addr) (s : State) : Host.Outcome State Fault Refusal :=
  finish (.ok () { s with stackBase := a, stackBaseValid := true, stackPos := 0 })

end Sys2Proof.Machine
end

