-- ==== Sys2Proof/Machine/System.lean ====
section
/-! DEFINITION. Interrupt, paging, block-size and halt instructions (45_system.md). -/

namespace Sys2Proof.Machine

/-- The effect of `INT id` (R212): a zero entry of an id from 0x100 on does nothing. -/
def interrupt (id : Nat) (s : State) : Res Unit :=
  (findInt id s).bind fun t s => if t = 0 then .ok () s else pushPcAndJump (BitVec.ofNat 32 t) s

/-- A new block size with the registers masked to it (R218). -/
def shrinkTo (bs : BlockSize) (s : State) : State :=
  { s with
    bs := bs
    a := maskedCell bs s.a.toNat
    x := maskedCell bs s.x.toNat
    y := maskedCell bs s.y.toNat }

/-- `INT id` (R212). -/
def execInt (n : Word) (s : State) : Host.Outcome State Fault Refusal := finish (interrupt n.toNat s)

/-- `DEFINT id, tgt` (R213). -/
def execDefInt (n : Word) (t : Addr) (s : State) : Host.Outcome State Fault Refusal := finish (registerInt n.toNat t s)

/-- `SETIVT addr` (R214). -/
def execSetIvt (a : Addr) (s : State) : Host.Outcome State Fault Refusal :=
  finish (.ok () { s with ivtBase := a, ivtBaseValid := true })

/-- `PAGE page` (R215). -/
def execPage (p : PageNo) (s : State) : Host.Outcome State Fault Refusal := finish (allocatePage p s)

/-- `PAGEAT page, frame` (R216). -/
def execPageAt (p : PageNo) (f : Word) (s : State) : Host.Outcome State Fault Refusal := finish (allocatePageAt p f.toNat s)

/-- `FREE page` (R217). -/
def execFree (p : PageNo) (s : State) : Host.Outcome State Fault Refusal := finish (.ok () (freePage p s))

/-- `REDUCE` (R218). -/
def execReduce (s : State) : Host.Outcome State Fault Refusal := finish (.ok () (shrinkTo s.bs.halve s))

/-- `EXTEND` (R219): the registers keep their values. -/
def execExtend (s : State) : Host.Outcome State Fault Refusal := finish (.ok () { s with bs := s.bs.double })

/-- `HALT` (R220). -/
def execHalt (s : State) : Host.Outcome State Fault Refusal := finish (.ok () { s with run := .haltedBy .halt })

/-- `HALTZ` (R221). -/
def execHaltz (s : State) : Host.Outcome State Fault Refusal := finish (.ok () { s with run := .haltedBy .haltz })

end Sys2Proof.Machine
end

