-- ==== Sys2Proof/Machine/Dispatch.lean ====
section
/-! DEFINITION. The execute phase of every action (40_cycle.md R117): one arm per constructor of `Instr`. -/

namespace Sys2Proof.Machine

def exec (i : Instr) (s : State) : Host.Outcome State Fault Refusal :=
  match i with
  -- Arithmetic, shift and compare
  | .add => Sys2Proof.Machine.execAdd s
  | .sub => Sys2Proof.Machine.execSub s
  | .mul => Sys2Proof.Machine.execMul s
  | .div => Sys2Proof.Machine.execDiv s
  | .mod => Sys2Proof.Machine.execMod s
  | .shl => Sys2Proof.Machine.execShl s
  | .shr => Sys2Proof.Machine.execShr s
  | .cmpi v => Sys2Proof.Machine.execCmpi v s
  | .cmp => Sys2Proof.Machine.execCmp s
  -- Moves
  | .movax => Sys2Proof.Machine.execMovAX s
  | .movay => Sys2Proof.Machine.execMovAY s
  | .movxa => Sys2Proof.Machine.execMovXA s
  | .movxy => Sys2Proof.Machine.execMovXY s
  | .movya => Sys2Proof.Machine.execMovYA s
  | .movyx => Sys2Proof.Machine.execMovYX s
  -- Immediate loads
  | .ldia v => Sys2Proof.Machine.execLdiA v s
  | .ldix v => Sys2Proof.Machine.execLdiX v s
  | .ldiy v => Sys2Proof.Machine.execLdiY v s
  -- Loads
  | .ldba a => Sys2Proof.Machine.execLdbA a s
  | .ldbx a => Sys2Proof.Machine.execLdbX a s
  | .ldby a => Sys2Proof.Machine.execLdbY a s
  | .ldwa a => Sys2Proof.Machine.execLdwA a s
  | .ldwx a => Sys2Proof.Machine.execLdwX a s
  | .ldwy a => Sys2Proof.Machine.execLdwY a s
  | .ldda a => Sys2Proof.Machine.execLddA a s
  | .lddx a => Sys2Proof.Machine.execLddX a s
  | .lddy a => Sys2Proof.Machine.execLddY a s
  | .ldqa a => Sys2Proof.Machine.execLdqA a s
  | .ldqx a => Sys2Proof.Machine.execLdqX a s
  | .ldqy a => Sys2Proof.Machine.execLdqY a s
  -- Stores
  | .stba a => Sys2Proof.Machine.execStbA a s
  | .stbx a => Sys2Proof.Machine.execStbX a s
  | .stby a => Sys2Proof.Machine.execStbY a s
  | .stwa a => Sys2Proof.Machine.execStwA a s
  | .stwx a => Sys2Proof.Machine.execStwX a s
  | .stwy a => Sys2Proof.Machine.execStwY a s
  | .stda a => Sys2Proof.Machine.execStdA a s
  | .stdx a => Sys2Proof.Machine.execStdX a s
  | .stdy a => Sys2Proof.Machine.execStdY a s
  | .stqa a => Sys2Proof.Machine.execStqA a s
  | .stqx a => Sys2Proof.Machine.execStqX a s
  | .stqy a => Sys2Proof.Machine.execStqY a s
  -- Stack
  | .pusha => Sys2Proof.Machine.execPushA s
  | .pushx => Sys2Proof.Machine.execPushX s
  | .pushy => Sys2Proof.Machine.execPushY s
  | .popa => Sys2Proof.Machine.execPopA s
  | .popx => Sys2Proof.Machine.execPopX s
  | .popy => Sys2Proof.Machine.execPopY s
  | .setstack a => Sys2Proof.Machine.execSetStack a s
  -- Control transfer
  | .jmp d => Sys2Proof.Machine.execJmp d s
  | .jmpa t => Sys2Proof.Machine.execJmpa t s
  | .jz d => Sys2Proof.Machine.execJz d s
  | .jnz d => Sys2Proof.Machine.execJnz d s
  | .jc d => Sys2Proof.Machine.execJc d s
  | .jnc d => Sys2Proof.Machine.execJnc d s
  | .call d => Sys2Proof.Machine.execCall d s
  | .calla t => Sys2Proof.Machine.execCalla t s
  | .bz d => Sys2Proof.Machine.execBz d s
  | .bnz d => Sys2Proof.Machine.execBnz d s
  | .bc d => Sys2Proof.Machine.execBc d s
  | .bnc d => Sys2Proof.Machine.execBnc d s
  | .ret => Sys2Proof.Machine.execRet s
  -- System
  | .int n => Sys2Proof.Machine.execInt n s
  | .defint n t => Sys2Proof.Machine.execDefInt n t s
  | .setivt a => Sys2Proof.Machine.execSetIvt a s
  | .page p => Sys2Proof.Machine.execPage p s
  | .pageat p f => Sys2Proof.Machine.execPageAt p f s
  | .free p => Sys2Proof.Machine.execFree p s
  | .reduce => Sys2Proof.Machine.execReduce s
  | .extend => Sys2Proof.Machine.execExtend s
  | .halt => Sys2Proof.Machine.execHalt s
  | .haltz => Sys2Proof.Machine.execHaltz s

end Sys2Proof.Machine
end

