-- ==== Sys2Proof/Machine/Fetch.lean ====
section
/-! DEFINITION. The fetch of one instruction (40_cycle.md R112 to R116): the opcode, its action, its operand words. -/

namespace Sys2Proof.Machine

/-- `start <- pc` (R112). -/
def latch (s : State) : State := { s with start := s.pc }

/-- pc past a fetch unit of `n` bytes, modulo 2^32 (10_state.md R25). -/
def advance (n : Nat) (s : State) : State := { s with pc := s.pc + BitVec.ofNat 32 n }

/-- Opcode fetch (R113): two bytes, high byte first, and pc moves on only after both. -/
def fetchOpcode (s : State) : Res Opcode :=
  (load s.pc s).bind fun b0 s =>
  (load (s.pc + 1#32) s).bind fun b1 s => .ok (opcodeOf b0 b1) (advance 2 s)

/-- Fetch of one operand word of WB bytes (R115): pc moves on only after the whole word. -/
def fetchWord (s : State) : Res Nat :=
  (memRead s.pc s.bs.bytes s).bind fun v s => .ok v (advance s.bs.bytes s)

/-- The operand words of a format, reduced (R115, R116). -/
def fetchOperands (f : Format) (s : State) : Res Instr :=
  match f with
  | .f0 i => .ok i s
  | .f1 build => (fetchWord s).bind fun v s => .ok (build v) s
  | .f2 build => (fetchWord s).bind fun v s => (fetchWord s).bind fun u s => .ok (build v u) s

/-- The fetch and decode phases of a step (R112 to R116, R122). A fetch changes no block size, so `s.bs` is the
latched bs0 of R112 all through it. -/
def fetch (s : State) : Res Instr :=
  (fetchOpcode (latch s)).bind fun op s =>
  match s.cfg.opTable.action op with
  | none => .raise .unknownOpcode s
  | some act => fetchOperands (act.format s.bs) s

/-- The end of a step whose fetch came to `m`: the execute phase `run`, or the routing or halt of R118, R119. -/
def afterFetch (run : Instr → State → Host.Outcome State Fault Refusal) (m : Res Instr) :
    Host.Outcome State Fault Refusal :=
  match m with
  | .ok i s => run i s
  | .raise k s => finish (.raise k s)
  | .fatal r s => finish (.fatal r s)

end Sys2Proof.Machine
end

