-- ==== Sys2Proof/Machine/Step.lean ====
section
/-! DEFINITION. One step of the controller (40_cycle.md R122). -/

namespace Sys2Proof.Machine

/-- One step: fetch, decode, execute and any fault routing (R111, R122). It is enabled only while `run` is Running
(R111); in a Halted state the machine is stuck. -/
def step (s : State) : Host.Outcome State Fault Refusal :=
  match s.run with
  | .running => afterFetch exec (fetch s)
  | _ => .fault .notRunning

/-- `s` with the instruction whose bits are `w` where `step` fetches next, at its pc (log 12). -/
def State.withFetchWord (s : State) (nbits w : Nat) : State := placeAtPc (tableBytes nbits w) s

end Sys2Proof.Machine
end

