-- ==== Sys2Proof/Safety.lean ====
section
/-! DEFINITION. What holds of a state at every instruction boundary, and how a run ends. -/

namespace Sys2Proof.Machine

/-- The width invariant: each general register is below 2^W (10_state.md R22; log 14). -/
def State.widthsFit (s : State) : Prop :=
  s.a.toNat < 2 ^ s.bs.width ∧ s.x.toNat < 2 ^ s.bs.width ∧ s.y.toNat < 2 ^ s.bs.width

/-- The page table is in canonical form, its keys are 20-bit page numbers, and every entry is a frame below NUM_FRAMES
and not DEVICE_FRAME, which is "never user-allocatable as ordinary memory" (10_state.md R36, 20_memory.md R53). -/
def State.pageTableFits (s : State) : Prop :=
  mapSorted s.pt ∧
    ∀ e ∈ s.pt, e.1 < 2 ^ 20 ∧ e.2 ≠ s.cfg.deviceFrame ∧ ∀ n, s.cfg.numFrames = some n → e.2 < n

/-- The frame store is in canonical form and DEVICE_FRAME holds no data (10_state.md R37). -/
def State.framesFit (s : State) : Prop :=
  s.frames.wf ∧ ∀ e ∈ s.frames, e.1 / 4096 ≠ s.cfg.deviceFrame

/-- What every instruction boundary meets: the widths (R22), the page table (R36), the frame store (R37), the router's
marker clear (R41) and at most 4096 ports (R40). -/
structure State.Inv (s : State) : Prop where
  widths : s.widthsFit
  pageTable : s.pageTableFits
  store : s.framesFit
  idle : s.routing = none
  portCount : s.ports ≤ 4096

/-! ## How statements look at memory, through `peek` -/

/-- The bytes `l` stand in mapped memory from address `a` on, modulo 2^32. -/
abbrev HoldsBytes (s : State) (a : Addr) (l : List Byte) : Prop :=
  ∀ k < l.length, peek s (a + BitVec.ofNat 32 k) = l[k]?

/-- The `n` addresses from `a` on lie in mapped memory, none of them in the device page. -/
abbrev InMemory (s : State) (a : Addr) (n : Nat) : Prop :=
  ∀ k < n, (peek s (a + BitVec.ofNat 32 k)).isSome = true

/-- The address `b` reaches none of the bytes that the `n` addresses from `a` on reach. Two pages may map to one
frame, so this compares places, not addresses (20_memory.md R62). -/
abbrev Apart (s : State) (a : Addr) (n : Nat) (b : Addr) : Prop :=
  ∀ k < n, translate s b ≠ translate s (a + BitVec.ofNat 32 k)

/-- A push of `n` bytes finds a stack and mapped memory for its slot (20_memory.md R76). -/
abbrev CanPush (n : Nat) (s : State) : Prop :=
  s.stackBaseValid = true ∧ InMemory s (s.stackBase - (s.stackPos + BitVec.ofNat 32 n)) n

/-- `t` is `s` after a push of the low `n` bytes of `v` (20_memory.md R76): stack_pos, the slot's bytes, and nothing
else. -/
def Pushed (n v : Nat) (s t : State) : Prop :=
  t = { s with stackPos := s.stackPos + BitVec.ofNat 32 n, frames := t.frames } ∧
    HoldsBytes t (s.stackBase - (s.stackPos + BitVec.ofNat 32 n)) (leBytes n v) ∧
    ∀ b, Apart s (s.stackBase - (s.stackPos + BitVec.ofNat 32 n)) n b → peek t b = peek s b

/-! ## How a run ends -/

/-- A run has ended normally: a halting instruction ran (40_cycle.md R124). -/
def State.endedNormally (s : State) : Prop := ∃ k, s.run = .haltedBy k

/-- A run has ended fatally (40_cycle.md R124). -/
def State.endedFatally (s : State) : Prop := ∃ r, s.run = .haltedFatal r

end Sys2Proof.Machine
end

