-- ==== Sys2Proof/Certificates/Slice0/Obligations.lean ====
section
/-! DEFINITION. What the model claims of the spec, for the provers. Each docstring names the rules it formalises.
Statements hold for every value of the parameters, because those are data of the state (log 1). -/

open Sys2Proof Sys2Proof.Machine

namespace Sys2Proof.Spec

/-! ## Words the statements share -/

/-- What `fatal(r)` makes of a state (40_cycle.md R119); the router's marker lives only inside a step (10_state.md R41,
log 11). -/
abbrev fatal (r : FatalReason) (s : State) : State := { s with run := .haltedFatal r, routing := none }

/-- The vectors of the fault kinds (60_exceptions.md R227). -/
abbrev vector : FaultKind → Nat
  | .undefinedInterrupt => 0x100
  | .unknownOpcode => 0x101
  | .pageFault => 0x102
  | .ivtOverflow => 0x103

/-- The answer `o` of an instruction that writes the low `n` bytes of `v` at `a` from the state `s`, and goes on with
`k` once they are written: in mapped memory; in any memory; at an unmapped byte `j`, where the bytes before stay; at a
device-page byte with no port (20_memory.md R64, R68, R71). -/
def Writes (a : Addr) (n v : Nat) (s : State) (o : Host.Outcome State Fault Refusal) (k : State → State) : Prop :=
  (InMemory s a n → ∃ t, t = { s with frames := t.frames } ∧ HoldsBytes t a (leBytes n v) ∧
    (∀ b, Apart s a n b → peek t b = peek s b) ∧ o = .next (k t)) ∧
  (∀ t, memWrite a n v s = .ok () t → o = .next (k t)) ∧
  (∀ j t, j < n → memWrite a j v s = .ok () t → translate t (a + BitVec.ofNat 32 j) = .unmapped →
    o = finish (.raise .pageFault t)) ∧
  (∀ j t p, j < n → memWrite a j v s = .ok () t → translate t (a + BitVec.ofNat 32 j) = .port p → t.ports ≤ p →
    o = .next (fatal .noPort t))

/-- The answer `o` of an instruction that reads `n` bytes at `a` from the state `s`, and goes on with `k` once they are
read: from mapped memory; from any memory; at an unmapped byte `j`; at a device-page byte with no port (20_memory.md
R63, R68, R71). -/
def Reads (a : Addr) (n : Nat) (s : State) (o : Host.Outcome State Fault Refusal)
    (k : Nat → State → Host.Outcome State Fault Refusal) : Prop :=
  (∀ l, l.length = n → HoldsBytes s a l → o = k (leValue l) s) ∧
  (∀ v t, memRead a n s = .ok v t → o = k v t) ∧
  (∀ j v t, j < n → memRead a j s = .ok v t → translate t (a + BitVec.ofNat 32 j) = .unmapped →
    o = finish (.raise .pageFault t)) ∧
  (∀ j v t p, j < n → memRead a j s = .ok v t → translate t (a + BitVec.ofNat 32 j) = .port p → t.ports ≤ p →
    o = .next (fatal .noPort t))

/-- The answer of an instruction that pushes the low `n` bytes of `v` and goes on with `k` (20_memory.md R76): no stack
base; a slot in mapped memory; any slot, where the increment of stack_pos stays whatever the write does. -/
def Pushes (n v : Nat) (s : State) (o : Host.Outcome State Fault Refusal) (k : State → State) : Prop :=
  (s.stackBaseValid = false → o = .next (fatal .unsetBase s)) ∧
  (CanPush n s → ∃ t, Pushed n v s t ∧ o = .next (k t)) ∧
  (s.stackBaseValid = true →
    Writes (s.stackBase - (s.stackPos + BitVec.ofNat 32 n)) n v
      { s with stackPos := s.stackPos + BitVec.ofNat 32 n } o k)

/-- The answer of an instruction that pops `n` bytes and goes on with `k` (20_memory.md R77): stack_pos goes down only
once the read has completed. -/
def Pops (n : Nat) (s : State) (o : Host.Outcome State Fault Refusal) (k : Nat → State → State) : Prop :=
  (s.stackBaseValid = false → o = .next (fatal .unsetBase s)) ∧
  (s.stackBaseValid = true →
    Reads (s.stackBase - s.stackPos) n s o fun v t =>
      .next (k v { t with stackPos := t.stackPos - BitVec.ofNat 32 n }))

/-- The operand fetch of an action (40_cycle.md R115): the opcode bytes and the first `j` operand words and `i` bytes
of the next are read, and the byte after them lies in an unmapped page, or in the device page with no port (20_memory.md
R71, R73). The fault is routed, or the run ends, with pc at operand `j`, and nothing of the execute phase happens. -/
def OperandFault (act : Action) : Prop :=
  ∀ (s t u w : State) (b0 b1 : Byte) (j i v : Nat), s.run = .running →
    load s.pc s = .ok b0 t → load (s.pc + 1#32) t = .ok b1 u →
    s.cfg.opTable.action (opcodeOf b0 b1) = some act →
    j < (act.format s.bs).count → i < 2 * s.bs.count →
    memRead (s.pc + 2#32) (j * (2 * s.bs.count) + i) u = .ok v w →
    (translate w (s.pc + BitVec.ofNat 32 (2 + j * (2 * s.bs.count) + i)) = .unmapped →
      step s = finish (.raise .pageFault
        { w with start := s.pc, pc := s.pc + BitVec.ofNat 32 (2 + j * (2 * s.bs.count)) })) ∧
    (∀ p, translate w (s.pc + BitVec.ofNat 32 (2 + j * (2 * s.bs.count) + i)) = .port p → w.ports ≤ p →
      step s = .next (fatal .noPort
        { w with start := s.pc, pc := s.pc + BitVec.ofNat 32 (2 + j * (2 * s.bs.count)) }))

/-- The address of the IVT entry of vector `v` (20_memory.md R79). -/
abbrev entryAt (v : Nat) (s : State) : Addr := s.ivtBase + BitVec.ofNat 32 (4 * v)

/-- The router's attempt at vector `v` enters the handler (60_exceptions.md R232): the 4-byte entry at entryAt `v` is read
as `n`, which is not 0, pc is pushed, and `t` is at `n` with the router's marker clear. The entry and the slot may lie
in memory or in the device page (20_memory.md R73). -/
def Enters (v : Nat) (s t : State) : Prop :=
  s.ivtBaseValid = true ∧ ∃ n u w, memRead (entryAt v s) 4 s = .ok n u ∧ n ≠ 0 ∧ push 4 u.pc.toNat u = .ok () w ∧
    t = { w with pc := BitVec.ofNat 32 n, routing := none }

/-- The router's attempt at vector `v` fails and leaves `u`, and the policies escalate it: its entry is 0 (60_exceptions.md
R233), or its entry read or its push faults (R234). -/
def Escalates (v : Nat) (s u : State) : Prop :=
  s.ivtBaseValid = true ∧
    (s.cfg.missingVector = .escalate ∧ memRead (entryAt v s) 4 s = .ok 0 u ∨
      s.cfg.routerFault = .escalate ∧ ∃ k, memRead (entryAt v s) 4 s = .raise k u ∨
        ∃ n w, memRead (entryAt v s) 4 s = .ok n w ∧ n ≠ 0 ∧ push 4 w.pc.toNat w = .raise k u)

/-- The page numbers of the bytes of an image at `a`, modulo 2^32. -/
abbrev imagePages (a : Addr) (l : List Byte) : List PageNo :=
  (List.range l.length).map fun k => pageOf (a + BitVec.ofNat 32 k)

/-- There is a frame for every page of the two images: with a finite NUM_FRAMES, their pages are at most the frames below
it that are not DEVICE_FRAME (20_memory.md R60). -/
abbrev FramesEnough (cfg : Config) (l m : List Byte) : Prop :=
  ∀ n, cfg.numFrames = some n →
    (imagePages cfg.bootBase l ++ imagePages cfg.biosBase m).dedup.length +
      (if cfg.deviceFrame < n then 1 else 0) ≤ n

/-- `act` is an F0 action that is the instruction `i` (30_encoding.md R93). -/
abbrev IsF0 (act : Action) (i : Instr) : Prop := ∀ bs, act.format bs = .f0 i

/-- `act` is an F1 action with an imm or id operand `v` (30_encoding.md R94). -/
abbrev IsWord (act : Action) (i : Word → Instr) : Prop :=
  (∀ bs, act.format bs = .f1 fun v => i (BitVec.ofNat 64 v)) ∧ OperandFault act

/-- `act` is an F1 action with an addr or tgt operand, `v mod 2^32` (30_encoding.md R94). -/
abbrev IsAddr (act : Action) (i : Addr → Instr) : Prop :=
  (∀ bs, act.format bs = .f1 fun v => i (BitVec.ofNat 32 v)) ∧ OperandFault act

/-- `act` is an F1 action with a disp operand, the operand word read as two's complement over W bits (30_encoding.md
R94, R98). -/
abbrev IsDisp (act : Action) (i : Int → Instr) : Prop :=
  (∀ bs : BlockSize, act.format bs =
    .f1 fun v => i (if v < 2 ^ (bs.width - 1) then (v : Int) else (v : Int) - 2 ^ bs.width)) ∧ OperandFault act

/-- `act` is an F1 action with a page operand, `v mod 2^20` (30_encoding.md R94). -/
abbrev IsPage (act : Action) (i : PageNo → Instr) : Prop :=
  (∀ bs, act.format bs = .f1 fun v => i (BitVec.ofNat 20 v)) ∧ OperandFault act

/-- `f` is LowestFree (20_memory.md R60). -/
def IsLowestFree (s : State) (f : Nat) : Prop :=
  f ≠ s.cfg.deviceFrame ∧ (∀ p, mapGet s.pt p ≠ some f) ∧
    ∀ g < f, g = s.cfg.deviceFrame ∨ ∃ p, mapGet s.pt p = some g

/-- The frame id `f` lies below NUM_FRAMES, if that is finite (10_state.md R36). -/
abbrev FrameExists (s : State) (f : Nat) : Prop := ∀ n, s.cfg.numFrames = some n → f < n

/-- The page table `m` is that of `s` but for the entry of page `p` (20_memory.md R59, R61). -/
abbrev EntrySet (s : State) (p : PageNo) (e : Option Nat) (m : List (Nat × Nat)) : Prop :=
  ∀ q, mapGet m q = if q = p.toNat then e else mapGet s.pt q

/-- An F1 load of `n` bytes at its addr operand into the register that `set` writes (42_data_movement.md R142). -/
def IsLoad (act : Action) (i : Addr → Instr) (n : Nat) (set : Word → State → State) : Prop :=
  IsAddr act i ∧ ∀ a s, Reads a n s (exec (i a) s) fun v t =>
    .next (set (BitVec.ofNat 64 (v % 2 ^ s.bs.width)) t)

/-- An F1 store of the low `n` bytes of the register that `get` reads at its addr operand (42_data_movement.md R143). -/
def IsStore (act : Action) (i : Addr → Instr) (n : Nat) (get : State → Word) : Prop :=
  IsAddr act i ∧ ∀ a s, Writes a n (get s).toNat s (exec (i a) s) id

/-- The target of a relative transfer, `(start + d) mod 2^32` (44_control_transfer.md R191). -/
abbrev relative (d : Int) (s : State) : Addr := BitVec.ofInt 32 ((s.start.toNat + d) % 2 ^ 32)

/-- A relative jump under a condition (44_control_transfer.md R191, R195). -/
def IsJump (act : Action) (i : Int → Instr) (cond : State → Bool) : Prop :=
  IsDisp act i ∧ ∀ d s,
    (cond s = true → exec (i d) s = .next { s with pc := relative d s }) ∧
    (cond s = false → exec (i d) s = .next s)

/-- A relative call under a condition: the return address is pc after the operand fetch (44_control_transfer.md R192,
R199, R201). -/
def IsCall (act : Action) (i : Int → Instr) (cond : State → Bool) : Prop :=
  IsDisp act i ∧ ∀ d s,
    (cond s = true → Pushes 4 s.pc.toNat s (exec (i d) s) fun t => { t with pc := relative d s }) ∧
    (cond s = false → exec (i d) s = .next s)

end Sys2Proof.Spec

open Sys2Proof.Spec

/-! ## Encoding (30_encoding.md) -/

/-- O1. For every instruction, every table that has it and every block size whose operand words hold its operands, the
decoder reads the encoder's bytes back as the instruction and leaves what follows them. -/
def Obligations.DecodeOfEncode : Prop :=
  ∀ (tbl : OpTable) (bs : BlockSize) (i : Instr) (l rest : List Byte),
    i.wellFormed bs = true → encode tbl bs i = some l → decode tbl bs (l ++ rest) = .ok (i, rest)

/-- O2. EXA has an opcode for every instruction, and the host's bit numbering of it reads a few written-out words right
(30_encoding.md R95, R96, R98, R102, R105; 95_test_vectors.md M3 to M5, J2, Y2, Y10, Q7). EXA is the model's choice (log 2);
the last clause, on `decodeTableWord`, rests on two more choices of the model, RESET_BS = 1 (log 3) and the numbering of
the bits (log 12). -/
def Obligations.ExaWordsDecode : Prop :=
  (∀ bs i, (encode exaTable bs i).isSome = true) ∧
  decode exaTable .one [0x02, 0x11, 0x34, 0x12, 0x00, 0x00] = .ok (.ldia 0x1234, [0x00, 0x00]) ∧
  decode exaTable .two [0x02, 0x11, 0x34, 0x12, 0x00, 0x00] = .ok (.ldia 0x1234, []) ∧
  decode exaTable .four [0x02, 0x13, 0x08, 0x07, 0x06, 0x05, 0x04, 0x03, 0x02, 0x01]
    = .ok (.ldiy 0x0102030405060708, []) ∧
  decode exaTable .one [0x06, 0x01, 0xFE, 0xFF] = .ok (.jmp (-2), []) ∧
  decode exaTable .two [0x00, 0x08, 0x10, 0x00, 0x00, 0x00, 0x00, 0x20, 0x00, 0x00]
    = .ok (.defint 0x10 0x2000, []) ∧
  decode exaTable .two [0x00, 0x09, 0x02, 0x00, 0xF0, 0xFF] = .ok (.page 2, []) ∧
  decodeTableWord 32 0x1234_0211 = some (.ldia 0x1234)

/-- O3. What the decoder accepts is well formed, is an instruction of the action that the opcode alone selects, and is
len = 2 + k*WB bytes long (30_encoding.md R97, R104, R107). -/
def Obligations.DecodedInstruction : Prop :=
  ∀ (tbl : OpTable) (bs : BlockSize) (b0 b1 : Byte) (l rest : List Byte) (i : Instr),
    decode tbl bs (b0 :: b1 :: l) = .ok (i, rest) →
      i.wellFormed bs = true ∧ tbl.action (opcodeOf b0 b1) = some i.action ∧
        (b0 :: b1 :: l).length = (2 + (i.action.format bs).count * (2 * bs.count)) + rest.length

/-- O4. One action of each operand kind: the operand words of WB bytes, little-endian, become the operands of
30_encoding.md R94, and an opcode absent from the table is no instruction. -/
def Obligations.OperandReduction : Prop :=
  ∀ (tbl : OpTable) (bs : BlockSize) (b0 b1 : Byte) (w w' rest : List Byte),
    w.length = 2 * bs.count → w'.length = 2 * bs.count →
    (opcodeOf b0 b1).toNat = b0.toNat * 256 + b1.toNat ∧
    (leValue w = ((List.range w.length).map fun k => (w.getD k 0).toNat * 2 ^ (8 * k)).sum ∧
      leValue w < 2 ^ bs.width) ∧
    (∀ act, tbl.action (opcodeOf b0 b1) = some act →
      (act = .ldia → decode tbl bs (b0 :: b1 :: w ++ rest) = .ok (.ldia (BitVec.ofNat 64 (leValue w)), rest)) ∧
      (act = .ldba → decode tbl bs (b0 :: b1 :: w ++ rest) = .ok (.ldba (BitVec.ofNat 32 (leValue w)), rest)) ∧
      (act = .jmpa → decode tbl bs (b0 :: b1 :: w ++ rest) = .ok (.jmpa (BitVec.ofNat 32 (leValue w)), rest)) ∧
      (act = .jmp → decode tbl bs (b0 :: b1 :: w ++ rest) = .ok
        (.jmp (if leValue w < 2 ^ (bs.width - 1) then (leValue w : Int) else (leValue w : Int) - 2 ^ bs.width), rest)) ∧
      (act = .int → decode tbl bs (b0 :: b1 :: w ++ rest) = .ok (.int (BitVec.ofNat 64 (leValue w)), rest)) ∧
      (act = .page → decode tbl bs (b0 :: b1 :: w ++ rest) = .ok (.page (BitVec.ofNat 20 (leValue w)), rest)) ∧
      (act = .pageat → decode tbl bs (b0 :: b1 :: w ++ (w' ++ rest)) = .ok
        (.pageat (BitVec.ofNat 20 (leValue w)) (BitVec.ofNat 64 (leValue w')), rest))) ∧
    (tbl.action (opcodeOf b0 b1) = none →
      decode tbl bs (b0 :: b1 :: rest) = .error (.unknownOpcode (opcodeOf b0 b1)))

/-! ## The cycle (40_cycle.md) -/

/-- O5. A step runs the decoded instruction: when the bytes at pc decode to `i`, the step latches `start`, moves pc past
them and is the execution of `i` (40_cycle.md R112 to R117). So does every fetch whose reads complete, from memory or
through device ports (20_memory.md R73), whose effects stay. -/
def Obligations.StepRunsDecoded : Prop :=
  (∀ (s : State) (l : List Byte) (i : Instr), s.run = .running → HoldsBytes s s.pc l →
    decode s.cfg.opTable s.bs l = .ok (i, []) →
    step s = exec i { s with start := s.pc, pc := s.pc + BitVec.ofNat 32 l.length }) ∧
  ∀ (s t u : State) (b0 b1 : Byte) (act : Action), s.run = .running →
    load s.pc s = .ok b0 t → load (s.pc + 1#32) t = .ok b1 u → s.cfg.opTable.action (opcodeOf b0 b1) = some act →
    (∀ i, act.format s.bs = .f0 i → step s = exec i { u with start := s.pc, pc := s.pc + 2#32 }) ∧
    (∀ i v w, act.format s.bs = .f1 i → memRead (s.pc + 2#32) (2 * s.bs.count) u = .ok v w →
      step s = exec (i v) { w with start := s.pc, pc := s.pc + BitVec.ofNat 32 (2 + 2 * s.bs.count) }) ∧
    ∀ i v w v' x, act.format s.bs = .f2 i → memRead (s.pc + 2#32) (2 * s.bs.count) u = .ok v w →
      memRead (s.pc + BitVec.ofNat 32 (2 + 2 * s.bs.count)) (2 * s.bs.count) w = .ok v' x →
      step s = exec (i v v') { x with start := s.pc, pc := s.pc + BitVec.ofNat 32 (2 + 2 * (2 * s.bs.count)) }

/-- O6. A PageFault in the opcode fetch is routed with pc at `start` (40_cycle.md R113); one in the operand fetch with
pc at the operand (R115). A fetch that meets an absent port is fatal(NoPort), with pc at the same place (20_memory.md R71,
R73; 60_exceptions.md R228). -/
def Obligations.FetchFaults : Prop :=
  (∀ s : State, s.run = .running → translate s s.pc = .unmapped →
    step s = finish (.raise .pageFault { s with start := s.pc })) ∧
  (∀ (s t : State) (b0 : Byte), s.run = .running → load s.pc s = .ok b0 t →
    translate t (s.pc + 1#32) = .unmapped → step s = finish (.raise .pageFault { t with start := s.pc })) ∧
  (∀ (s : State) (p : Nat), s.run = .running → translate s s.pc = .port p → s.ports ≤ p →
    step s = .next (fatal .noPort { s with start := s.pc })) ∧
  (∀ (s t : State) (b0 : Byte) (p : Nat), s.run = .running → load s.pc s = .ok b0 t →
    translate t (s.pc + 1#32) = .port p → t.ports ≤ p → step s = .next (fatal .noPort { t with start := s.pc })) ∧
  ∀ act, OperandFault act

/-- O7. An opcode absent from OPTABLE raises UnknownOpcode after both its bytes and before any operand, with pc at
start + 2 (30_encoding.md R103, 40_cycle.md R114). -/
def Obligations.UnknownOpcodeRaises : Prop :=
  ∀ (s t u : State) (b0 b1 : Byte), s.run = .running →
    load s.pc s = .ok b0 t → load (s.pc + 1#32) t = .ok b1 u → s.cfg.opTable.action (opcodeOf b0 b1) = none →
    step s = finish (.raise .unknownOpcode { u with start := s.pc, pc := s.pc + 2#32 })

/-- O8. A step is enabled exactly when run is Running (40_cycle.md R111, R120); every enabled step has a next state. That a
step which is not enabled answers with a fault is the model's choice (log 11), and so is that a port call returns
(log 10). -/
def Obligations.StepEnabled : Prop :=
  ∀ s : State, (s.run = .running → ∃ t, step s = .next t) ∧ (s.run ≠ .running → step s = .fault .notRunning)

/-! ## Memory (20_memory.md) -/

/-- O9. `Load(a)` as 20_memory.md R57 writes it, with PortRead (R72): the page is `a / 4096`, the offset `a mod 4096`. What a
port read leaves in `draws` and `portLog`, and the form of its draw, are the model's choice (log 8, 9). -/
def Obligations.LoadByte : Prop :=
  ∀ (a : Addr) (s : State),
    (a.toNat / 4096 = s.cfg.devicePage.toNat → a.toNat % 4096 < s.ports →
      load a s = .ok (Config.deviceRead s.draws) { s with
        draws := s.draws + 1
        portLog := .read (a.toNat % 4096) (Config.deviceRead s.draws) :: s.portLog }) ∧
    (a.toNat / 4096 = s.cfg.devicePage.toNat → s.ports ≤ a.toNat % 4096 → load a s = .fatal .noPort s) ∧
    (a.toNat / 4096 ≠ s.cfg.devicePage.toNat → mapGet s.pt (a.toNat / 4096) = none →
      load a s = .raise .pageFault s) ∧
    ∀ f, a.toNat / 4096 ≠ s.cfg.devicePage.toNat → mapGet s.pt (a.toNat / 4096) = some f →
      load a s = .ok ((mapGet s.frames (4096 * f + a.toNat % 4096)).getD 0) s

/-- O10. `Store(a, b)` as 20_memory.md R58 writes it, with PortWrite (R72): a port write changes no frame, and a frame
write changes one byte of one frame. What a port write leaves in
`portLog` is the model's choice (log 9). -/
def Obligations.StoreByte : Prop :=
  ∀ (a : Addr) (b : Byte) (s : State),
    (a.toNat / 4096 = s.cfg.devicePage.toNat → a.toNat % 4096 < s.ports →
      store a b s = .ok () { s with portLog := .write (a.toNat % 4096) b :: s.portLog }) ∧
    (a.toNat / 4096 = s.cfg.devicePage.toNat → s.ports ≤ a.toNat % 4096 → store a b s = .fatal .noPort s) ∧
    (a.toNat / 4096 ≠ s.cfg.devicePage.toNat → mapGet s.pt (a.toNat / 4096) = none →
      store a b s = .raise .pageFault s) ∧
    ∀ f, a.toNat / 4096 ≠ s.cfg.devicePage.toNat → mapGet s.pt (a.toNat / 4096) = some f →
      ∃ m, store a b s = .ok () { s with frames := m } ∧
        ∀ key, m.read key = if key = 4096 * f + a.toNat % 4096 then b else s.frames.read key

/-- O11. `MemRead(a, n)` reads its bytes in ascending order, modulo 2^32, assembles them little-endian, and stops at the
first byte that faults or is fatal, with what the bytes before it left (20_memory.md R63). -/
def Obligations.MemReadAscending : Prop :=
  ∀ (a : Addr) (s : State), memRead a 0 s = .ok 0 s ∧
    ∀ (i v : Nat) (t : State), memRead a i s = .ok v t →
      (∀ b u, load (a + BitVec.ofNat 32 i) t = .ok b u → memRead a (i + 1) s = .ok (v + b.toNat * 2 ^ (8 * i)) u) ∧
      (∀ k u, load (a + BitVec.ofNat 32 i) t = .raise k u → ∀ n, i < n → memRead a n s = .raise k u) ∧
      (∀ r u, load (a + BitVec.ofNat 32 i) t = .fatal r u → ∀ n, i < n → memRead a n s = .fatal r u)

/-- O12. `MemWrite(a, n, v)` writes byte `i` of `v` at `a + i` in ascending order, modulo 2^32, and stops at the first
byte that faults or is fatal, where the bytes before it stay (20_memory.md R64). -/
def Obligations.MemWriteAscending : Prop :=
  ∀ (a : Addr) (v : Nat) (s : State), memWrite a 0 v s = .ok () s ∧
    ∀ (i : Nat) (t : State), memWrite a i v s = .ok () t →
      (∀ u, store (a + BitVec.ofNat 32 i) (BitVec.ofNat 8 (v / 2 ^ (8 * i))) t = .ok () u →
        memWrite a (i + 1) v s = .ok () u) ∧
      (∀ k u, store (a + BitVec.ofNat 32 i) (BitVec.ofNat 8 (v / 2 ^ (8 * i))) t = .raise k u →
        ∀ n, i < n → memWrite a n v s = .raise k u) ∧
      (∀ r u, store (a + BitVec.ofNat 32 i) (BitVec.ofNat 8 (v / 2 ^ (8 * i))) t = .fatal r u →
        ∀ n, i < n → memWrite a n v s = .fatal r u)

/-- O13. A write to mapped memory then a read of it gives the value modulo 2^(8n), and no byte apart from the write
changes (20_memory.md R64: the source's round trip). -/
def Obligations.WriteThenRead : Prop :=
  ∀ (a : Addr) (n v : Nat) (s : State), n ≤ 8 → InMemory s a n →
    ∃ t, memWrite a n v s = .ok () t ∧ memRead a n t = .ok (v % 2 ^ (8 * n)) t ∧
      t = { s with frames := t.frames } ∧ ∀ b, Apart s a n b → peek t b = peek s b

/-- O14. Two pages that map to one frame alias: a store through one is seen by a load through the other, and a page
mapped later to the frame sees its old bytes (20_memory.md R62). -/
def Obligations.AliasedPages : Prop :=
  ∀ (p q : PageNo) (o : Offset) (f : Nat) (b : Byte) (s : State),
    p ≠ s.cfg.devicePage → q ≠ s.cfg.devicePage → mapGet s.pt p.toNat = some f →
    (mapGet s.pt q.toNat = some f → ∃ t, store (p ++ o) b s = .ok () t ∧ load (q ++ o) t = .ok b t) ∧
    (f ≠ s.cfg.deviceFrame → FrameExists s f → ∀ c, load (p ++ o) s = .ok c s →
      ∃ t, allocatePageAt q f (freePage p s) = .ok () t ∧ load (q ++ o) t = .ok c t)

/-- O15. A multi-byte access in the device page touches consecutive ports in ascending order, one call for each byte,
and changes nothing else (20_memory.md R69, R72). The fields `draws` and `portLog`, in which the calls are seen, are the
model's choice (log 8, 9). The bytes read are draws: nothing is claimed of their values. -/
def Obligations.ConsecutivePorts : Prop :=
  ∀ (a : Addr) (k n v : Nat) (s : State),
    a.toNat = s.cfg.devicePage.toNat * 4096 + k → k + n ≤ 4096 → k + n ≤ s.ports →
    memRead a n s = .ok (leValue ((List.range n).map fun i => Config.deviceRead (s.draws + i)))
      { s with
        draws := s.draws + n
        portLog :=
          ((List.range n).map fun i => PortCall.read (k + i) (Config.deviceRead (s.draws + i))).reverse ++ s.portLog } ∧
    memWrite a n v s = .ok () { s with
      portLog := ((List.range n).map fun i => PortCall.write (k + i) (BitVec.ofNat 8 (v / 2 ^ (8 * i)))).reverse
        ++ s.portLog }

/-- O16. The frame that PAGE takes is LowestFree, the least frame that is not DEVICE_FRAME and that no page maps to
(20_memory.md R60); with a finite NUM_FRAMES at or below it the allocation is fatal and PT is unchanged. -/
def Obligations.LowestFreeFrame : Prop :=
  ∀ (p : PageNo) (s : State), mapSorted s.pt →
    IsLowestFree s (lowestFree s) ∧
    (FrameExists s (lowestFree s) →
      ∃ m, allocatePage p s = .ok () { s with pt := m } ∧ EntrySet s p (some (lowestFree s)) m) ∧
    (¬ FrameExists s (lowestFree s) → allocatePage p s = .fatal .outOfFrames s)

/-! ## Stack and IVT (20_memory.md sections 7 and 8) -/

/-- O17. `Push(n, v)` (20_memory.md R76): an unset base is fatal; stack_pos goes up first and stays up whatever the
write does; a slot in mapped memory receives the bytes and nothing else changes. -/
def Obligations.PushRule : Prop :=
  ∀ (n v : Nat) (s : State), n ≤ 8 →
    (s.stackBaseValid = false → push n v s = .fatal .unsetBase s) ∧
    (s.stackBaseValid = true → push n v s =
      memWrite (s.stackBase - (s.stackPos + BitVec.ofNat 32 n)) n v
        { s with stackPos := s.stackPos + BitVec.ofNat 32 n }) ∧
    (CanPush n s → ∃ t, push n v s = .ok () t ∧ Pushed n v s t)

/-- O18. `Pop(n)` (20_memory.md R77): an unset base is fatal; a read that faults leaves stack_pos; a completed read
takes `n` off it, modulo 2^32. -/
def Obligations.PopRule : Prop :=
  ∀ (n : Nat) (s : State),
    (s.stackBaseValid = false → pop n s = .fatal .unsetBase s) ∧
    (s.stackBaseValid = true →
      (∀ v t, memRead (s.stackBase - s.stackPos) n s = .ok v t →
        pop n s = .ok v { t with stackPos := s.stackPos - BitVec.ofNat 32 n }) ∧
      (∀ k t, memRead (s.stackBase - s.stackPos) n s = .raise k t →
        pop n s = .raise k t ∧ t.stackPos = s.stackPos) ∧
      (∀ r t, memRead (s.stackBase - s.stackPos) n s = .fatal r t → pop n s = .fatal r t))

/-- O19. A push then a pop of as many bytes gives the value modulo 2^(8n) and stack_pos back (20_memory.md R76, R77). -/
def Obligations.PushThenPop : Prop :=
  ∀ (n v : Nat) (s : State), n ≤ 8 → CanPush n s →
    ∃ t, push n v s = .ok () t ∧ pop n t = .ok (v % 2 ^ (8 * n)) { t with stackPos := s.stackPos }

/-- O20. `RegisterInt(id, t)` (20_memory.md R80): the overflow check comes first, then the base check. -/
def Obligations.RegisterIntRule : Prop :=
  ∀ (id : Nat) (t : Addr) (s : State),
    (s.cfg.ivtMaxId < id → registerInt id t s = .raise .ivtOverflow s) ∧
    (id ≤ s.cfg.ivtMaxId → s.ivtBaseValid = false → registerInt id t s = .fatal .unsetBase s) ∧
    (id ≤ s.cfg.ivtMaxId → s.ivtBaseValid = true →
      registerInt id t s = memWrite (s.ivtBase + BitVec.ofNat 32 (4 * id)) 4 t.toNat s ∧
      (InMemory s (s.ivtBase + BitVec.ofNat 32 (4 * id)) 4 → ∃ f, registerInt id t s = .ok () { s with frames := f } ∧
        HoldsBytes { s with frames := f } (s.ivtBase + BitVec.ofNat 32 (4 * id)) (leBytes 4 t.toNat)))

/-- O21. `FindInt(id)` (20_memory.md R81): a zero entry raises UndefinedInterrupt below 0x100 and is returned from there
on; no overflow check. -/
def Obligations.FindIntRule : Prop :=
  ∀ (id : Nat) (s : State),
    (s.ivtBaseValid = false → findInt id s = .fatal .unsetBase s) ∧
    (s.ivtBaseValid = true →
      (∀ v t, memRead (s.ivtBase + BitVec.ofNat 32 (4 * id)) 4 s = .ok v t →
        (v = 0 → id < 0x100 → findInt id s = .raise .undefinedInterrupt t) ∧
        (v ≠ 0 ∨ 0x100 ≤ id → findInt id s = .ok v t)) ∧
      (∀ k t, memRead (s.ivtBase + BitVec.ofNat 32 (4 * id)) 4 s = .raise k t → findInt id s = .raise k t) ∧
      (∀ r t, memRead (s.ivtBase + BitVec.ofNat 32 (4 * id)) 4 s = .fatal r t → findInt id s = .fatal r t))

/-- O22. The source's round trip (20_memory.md R82), for every id and target: once RegisterInt has succeeded in mapped
memory, FindInt returns the target in every state whose entry bytes have not changed. -/
def Obligations.RegisterThenFind : Prop :=
  ∀ (id : Nat) (t : Addr) (s : State), id ≤ s.cfg.ivtMaxId → s.ivtBaseValid = true →
    InMemory s (s.ivtBase + BitVec.ofNat 32 (4 * id)) 4 → t ≠ 0 ∨ 0x100 ≤ id →
    ∃ u, registerInt id t s = .ok () u ∧
      ∀ w : State, w.ivtBaseValid = true → w.ivtBase = u.ivtBase →
        (∀ k < 4, peek w (w.ivtBase + BitVec.ofNat 32 (4 * id) + BitVec.ofNat 32 k)
          = peek u (u.ivtBase + BitVec.ofNat 32 (4 * id) + BitVec.ofNat 32 k)) →
        findInt id w = .ok t.toNat w

/-! ## Taking a fault (60_exceptions.md) -/

/-- O23. A routed fault whose entry is not 0 and whose push finds its slot pushes pc and enters the handler
(60_exceptions.md R227, R232, R235); in memory nothing but stack_pos, the slot's bytes, pc and the router's marker
changes. So does one whose entry or slot lies in the device page (20_memory.md R73). An absent port met by the entry read
or by the push is fatal(NoPort) (20_memory.md R71; 60_exceptions.md R230). -/
def Obligations.RouterEnters : Prop :=
  ∀ (k : FaultKind) (s : State), s.ivtBaseValid = true →
    (∀ l : List Byte, l.length = 4 → HoldsBytes s (entryAt (vector k) s) l → leValue l ≠ 0 → CanPush 4 s →
      ∃ t, Pushed 4 s.pc.toNat s t ∧
        finish (.raise k s) = .next { t with pc := BitVec.ofNat 32 (leValue l), routing := none }) ∧
    (∀ t, Enters (vector k) s t → finish (.raise k s) = .next t) ∧
    (∀ j v t p, j < 4 → memRead (entryAt (vector k) s) j s = .ok v t →
      translate t (entryAt (vector k) s + BitVec.ofNat 32 j) = .port p → t.ports ≤ p →
      finish (.raise k s) = .next (fatal .noPort t)) ∧
    ∀ v t j u p, memRead (entryAt (vector k) s) 4 s = .ok v t → v ≠ 0 → s.stackBaseValid = true → j < 4 →
      memWrite (s.stackBase - (s.stackPos + 4#32)) j s.pc.toNat { t with stackPos := s.stackPos + 4#32 } = .ok () u →
      translate u (s.stackBase - (s.stackPos + 4#32) + BitVec.ofNat 32 j) = .port p → u.ports ≤ p →
      finish (.raise k s) = .next (fatal .noPort u)

/-- O24. Without an IVT base every fault is fatal(UnsetBase), and with an entry but no stack base too (60_exceptions.md
R232; 70_reset_and_hazards.md R255). -/
def Obligations.RouterWithoutBase : Prop :=
  ∀ (k : FaultKind) (s : State),
    (s.ivtBaseValid = false → finish (.raise k s) = .next (fatal .unsetBase s)) ∧
    (s.ivtBaseValid = true → s.stackBaseValid = false → ∀ v t,
      memRead (s.ivtBase + BitVec.ofNat 32 (4 * vector k)) 4 s = .ok v t → v ≠ 0 →
      finish (.raise k s) = .next (fatal .unsetBase t))

/-- O25. A zero entry (60_exceptions.md R233): fatal(NoHandler) under the policy `fatal` and at vector 0x100; under
`escalate` any other vector routes UndefinedInterrupt. Nothing has been pushed. -/
def Obligations.MissingVectorRule : Prop :=
  ∀ (k : FaultKind) (s t : State), s.ivtBaseValid = true →
    memRead (s.ivtBase + BitVec.ofNat 32 (4 * vector k)) 4 s = .ok 0 t →
    (s.cfg.missingVector = .fatal ∨ k = .undefinedInterrupt → finish (.raise k s) = .next (fatal .noHandler t)) ∧
    (s.cfg.missingVector = .escalate → k ≠ .undefinedInterrupt →
      finish (.raise k s) = finish (.raise .undefinedInterrupt t))

/-- O26. A fault inside the router's own entry read or push (60_exceptions.md R234): fatal(DoubleFault) under the policy
`fatal` and while vector 0x100 is serviced; under `escalate` any other vector routes UndefinedInterrupt. The effects of
the failed attempt stay. -/
def Obligations.FaultInsideRouter : Prop :=
  ∀ (k k' : FaultKind) (s u : State), s.ivtBaseValid = true →
    (memRead (s.ivtBase + BitVec.ofNat 32 (4 * vector k)) 4 s = .raise k' u ∨
      ∃ v t, memRead (s.ivtBase + BitVec.ofNat 32 (4 * vector k)) 4 s = .ok v t ∧ v ≠ 0 ∧
        push 4 t.pc.toNat t = .raise k' u) →
    (s.cfg.routerFault = .fatal ∨ k = .undefinedInterrupt → finish (.raise k s) = .next (fatal .doubleFault u)) ∧
    (s.cfg.routerFault = .escalate → k ≠ .undefinedInterrupt →
      finish (.raise k s) = finish (.raise .undefinedInterrupt u))

/-- O27. No fault is silently swallowed (60_exceptions.md R226): a raised fault always leads to a next state, which is
Halted(fatal) or has entered a handler: pc is what the 4-byte entry of the fault's vector read as, or, after an attempt
that was escalated, what the entry of vector 0x100 read as; and the entry was not 0. One push was made, or two if the first
one faulted. -/
def Obligations.NoFaultSwallowed : Prop :=
  ∀ (k : FaultKind) (s : State), ∃ t, finish (.raise k s) = .next t ∧
    ((∃ r, t.run = .haltedFatal r) ∨
      (t.run = s.run ∧ t.pc ≠ 0 ∧
        ((Enters (vector k) s t ∧ t.stackPos = s.stackPos + 4#32) ∨
          (k ≠ .undefinedInterrupt ∧ ∃ u, Escalates (vector k) s u ∧ u.ivtBase = s.ivtBase ∧ Enters 0x100 u t ∧
            (t.stackPos = s.stackPos + 4#32 ∨ t.stackPos = s.stackPos + 8#32)))))

/-- O28. Trap entry changes nothing but stack_pos, pc, the stack's bytes and what port accesses leave, and run when it is
fatal, where pc stays: registers, flags, bs, PT and the bases stay, and the router's marker is clear again
(60_exceptions.md R232, R236; 10_state.md R41). stack_pos goes up by 4 for each push that was begun; memory is unchanged
if none was, and otherwise outside the 4 bytes of the slot, and of the second slot if there were two, the first having
faulted. -/
def Obligations.TrapEntryFrame : Prop :=
  ∀ (k : FaultKind) (s t : State), finish (.raise k s) = .next t →
    t = { s with
      stackPos := t.stackPos, pc := t.pc, frames := t.frames, run := t.run, routing := none
      draws := t.draws, portLog := t.portLog } ∧
    (t.stackPos = s.stackPos ∨ t.stackPos = s.stackPos + 4#32 ∨ t.stackPos = s.stackPos + 8#32) ∧
    (t.stackPos = s.stackPos → t.frames = s.frames) ∧
    (∀ b, Apart s (s.stackBase - (s.stackPos + 4#32)) 4 b →
      (t.stackPos = s.stackPos + 8#32 → Apart s (s.stackBase - (s.stackPos + 8#32)) 4 b) → peek t b = peek s b) ∧
    (t.run = s.run ∨ (∃ r, t.run = .haltedFatal r) ∧ t.pc = s.pc)

/-- O29. INT on a fault's vector enters the handler as the fault itself does, with the same pushed pc (60_exceptions.md
R239). -/
def Obligations.IntEntersAsFault : Prop :=
  ∀ (k : FaultKind) (s : State) (l : List Byte), s.ivtBaseValid = true → s.routing = none → l.length = 4 →
    HoldsBytes s (s.ivtBase + BitVec.ofNat 32 (4 * vector k)) l → leValue l ≠ 0 → CanPush 4 s →
    exec (.int (BitVec.ofNat 64 (vector k))) s = finish (.raise k s)

/-- O30. RET is the way back from a handler: run where the router entered it, it restores pc and stack_pos, and nothing
else changes (60_exceptions.md R240). -/
def Obligations.RetResumes : Prop :=
  ∀ (k : FaultKind) (s t : State) (l : List Byte), s.ivtBaseValid = true → l.length = 4 →
    HoldsBytes s (s.ivtBase + BitVec.ofNat 32 (4 * vector k)) l → leValue l ≠ 0 → CanPush 4 s →
    finish (.raise k s) = .next t →
    exec .ret t = .next { t with pc := s.pc, stackPos := s.stackPos }

/-! ## Arithmetic, shift and compare (41_arithmetic.md) -/

/-- O31. ADD and MUL (41_arithmetic.md R127, R129). -/
def Obligations.AddAndMul : Prop :=
  IsF0 .add .add ∧ IsF0 .mul .mul ∧ ∀ s : State,
    exec .add s = .next { s with
      a := BitVec.ofNat 64 ((s.x.toNat + s.y.toNat) % 2 ^ s.bs.width)
      c := decide (2 ^ s.bs.width ≤ s.x.toNat + s.y.toNat)
      z := decide ((s.x.toNat + s.y.toNat) % 2 ^ s.bs.width = 0) } ∧
    exec .mul s = .next { s with
      a := BitVec.ofNat 64 ((s.x.toNat * s.y.toNat) % 2 ^ s.bs.width)
      c := decide (2 ^ s.bs.width ≤ s.x.toNat * s.y.toNat)
      z := decide ((s.x.toNat * s.y.toNat) % 2 ^ s.bs.width = 0) }

/-- O32. SUB (41_arithmetic.md R128), in states that meet the width invariant (10_state.md R22): C is the borrow. -/
def Obligations.Subtract : Prop :=
  IsF0 .sub .sub ∧ ∀ s : State, s.widthsFit →
    exec .sub s = .next { s with
      a := BitVec.ofInt 64 (((s.x.toNat : Int) - s.y.toNat) % 2 ^ s.bs.width)
      c := decide ((s.x.toNat : Int) - s.y.toNat < 0)
      z := decide (((s.x.toNat : Int) - s.y.toNat) % 2 ^ s.bs.width = 0) }

/-- O33. DIV and MOD (41_arithmetic.md R130, R131), in states that meet the width invariant (10_state.md R22), with the
division law of R136 (4). -/
def Obligations.DivAndMod : Prop :=
  IsF0 .div .div ∧ IsF0 .mod .mod ∧ ∀ s : State, s.widthsFit →
    (s.y = 0 → exec .div s = .next (fatal .divideByZero s) ∧ exec .mod s = .next (fatal .divideByZero s)) ∧
    (s.y ≠ 0 → ∃ q r : Nat, s.x.toNat = s.y.toNat * q + r ∧ r < s.y.toNat ∧
      exec .div s = .next { s with a := BitVec.ofNat 64 q, c := false, z := decide (q = 0) } ∧
      exec .mod s = .next { s with a := BitVec.ofNat 64 r, c := false, z := decide (r = 0) })

/-- O34. SHL and SHR (41_arithmetic.md R132, R133) with the whole count, SHR in states that meet the width invariant
(10_state.md R22). -/
def Obligations.Shifts : Prop :=
  IsF0 .shl .shl ∧ IsF0 .shr .shr ∧ ∀ s : State,
    exec .shl s = .next { s with
      a := BitVec.ofNat 64 ((s.x.toNat * 2 ^ s.y.toNat) % 2 ^ s.bs.width)
      c := decide (2 ^ s.bs.width ≤ s.x.toNat * 2 ^ s.y.toNat)
      z := decide ((s.x.toNat * 2 ^ s.y.toNat) % 2 ^ s.bs.width = 0) } ∧
    (s.widthsFit → exec .shr s = .next { s with
      a := BitVec.ofNat 64 (s.x.toNat / 2 ^ s.y.toNat)
      c := false
      z := decide (s.x.toNat / 2 ^ s.y.toNat = 0) })

/-- O35. CMPI and CMP (41_arithmetic.md R134, R135). -/
def Obligations.Compares : Prop :=
  IsWord .cmpi .cmpi ∧ IsF0 .cmp .cmp ∧ ∀ s : State,
    (∀ v, exec (.cmpi v) s = .next { s with z := decide (s.a.toNat = v.toNat) }) ∧
    exec .cmp s = .next { s with z := decide (s.x.toNat = s.y.toNat) }

/-! ## Data movement (42_data_movement.md) -/

/-- O36. The six moves (42_data_movement.md R144 to R149). -/
def Obligations.Moves : Prop :=
  IsF0 .movax .movax ∧ IsF0 .movay .movay ∧ IsF0 .movxa .movxa ∧ IsF0 .movxy .movxy ∧ IsF0 .movya .movya ∧
  IsF0 .movyx .movyx ∧ ∀ s : State,
    exec .movax s = .next { s with a := s.x } ∧ exec .movay s = .next { s with a := s.y } ∧
    exec .movxa s = .next { s with x := s.a } ∧ exec .movxy s = .next { s with x := s.y } ∧
    exec .movya s = .next { s with y := s.a } ∧ exec .movyx s = .next { s with y := s.x }

/-- O37. The immediate loads (42_data_movement.md R150 to R152). -/
def Obligations.ImmediateLoads : Prop :=
  IsWord .ldia .ldia ∧ IsWord .ldix .ldix ∧ IsWord .ldiy .ldiy ∧ ∀ (v : Word) (s : State),
    exec (.ldia v) s = .next { s with a := v } ∧ exec (.ldix v) s = .next { s with x := v } ∧
    exec (.ldiy v) s = .next { s with y := v }

/-- O38. The twelve loads (42_data_movement.md R142, R153 to R164): LDB, LDW, LDD, LDQ into A, X, Y. -/
def Obligations.Loads : Prop :=
  IsLoad .ldba .ldba 1 (fun w s => { s with a := w }) ∧ IsLoad .ldbx .ldbx 1 (fun w s => { s with x := w }) ∧
  IsLoad .ldby .ldby 1 (fun w s => { s with y := w }) ∧ IsLoad .ldwa .ldwa 2 (fun w s => { s with a := w }) ∧
  IsLoad .ldwx .ldwx 2 (fun w s => { s with x := w }) ∧ IsLoad .ldwy .ldwy 2 (fun w s => { s with y := w }) ∧
  IsLoad .ldda .ldda 4 (fun w s => { s with a := w }) ∧ IsLoad .lddx .lddx 4 (fun w s => { s with x := w }) ∧
  IsLoad .lddy .lddy 4 (fun w s => { s with y := w }) ∧ IsLoad .ldqa .ldqa 8 (fun w s => { s with a := w }) ∧
  IsLoad .ldqx .ldqx 8 (fun w s => { s with x := w }) ∧ IsLoad .ldqy .ldqy 8 (fun w s => { s with y := w })

/-- O39. The twelve stores (42_data_movement.md R143, R165 to R176): STB, STW, STD, STQ from A, X, Y. -/
def Obligations.Stores : Prop :=
  IsStore .stba .stba 1 State.a ∧ IsStore .stbx .stbx 1 State.x ∧ IsStore .stby .stby 1 State.y ∧
  IsStore .stwa .stwa 2 State.a ∧ IsStore .stwx .stwx 2 State.x ∧ IsStore .stwy .stwy 2 State.y ∧
  IsStore .stda .stda 4 State.a ∧ IsStore .stdx .stdx 4 State.x ∧ IsStore .stdy .stdy 4 State.y ∧
  IsStore .stqa .stqa 8 State.a ∧ IsStore .stqx .stqx 8 State.x ∧ IsStore .stqy .stqy 8 State.y

/-! ## Stack (43_stack.md) -/

/-- O40. The pushes (43_stack.md R182 to R184): WB bytes of the register. -/
def Obligations.RegisterPushes : Prop :=
  IsF0 .pusha .pusha ∧ IsF0 .pushx .pushx ∧ IsF0 .pushy .pushy ∧ ∀ s : State,
    Pushes (2 * s.bs.count) s.a.toNat s (exec .pusha s) id ∧
    Pushes (2 * s.bs.count) s.x.toNat s (exec .pushx s) id ∧
    Pushes (2 * s.bs.count) s.y.toNat s (exec .pushy s) id

/-- O41. The pops (43_stack.md R185 to R187): WB bytes into the register, which needs no mask. -/
def Obligations.RegisterPops : Prop :=
  IsF0 .popa .popa ∧ IsF0 .popx .popx ∧ IsF0 .popy .popy ∧ ∀ s : State,
    Pops (2 * s.bs.count) s (exec .popa s) (fun v t => { t with a := BitVec.ofNat 64 v }) ∧
    Pops (2 * s.bs.count) s (exec .popx s) (fun v t => { t with x := BitVec.ofNat 64 v }) ∧
    Pops (2 * s.bs.count) s (exec .popy s) (fun v t => { t with y := BitVec.ofNat 64 v })

/-- O42. SETSTACK (43_stack.md R188) and SETIVT (45_system.md R214). -/
def Obligations.SetBases : Prop :=
  IsAddr .setstack .setstack ∧ IsAddr .setivt .setivt ∧ ∀ (a : Addr) (s : State),
    exec (.setstack a) s = .next { s with stackBase := a, stackBaseValid := true, stackPos := 0 } ∧
    exec (.setivt a) s = .next { s with ivtBase := a, ivtBaseValid := true }

/-! ## Control transfer (44_control_transfer.md) -/

/-- O43. The jumps (44_control_transfer.md R191, R193 to R198): relative targets count from `start`, modulo 2^32. -/
def Obligations.Jumps : Prop :=
  IsJump .jz .jz (fun s => s.z) ∧ IsJump .jnz .jnz (fun s => !s.z) ∧
  IsJump .jc .jc (fun s => s.c) ∧ IsJump .jnc .jnc (fun s => !s.c) ∧
  IsDisp .jmp .jmp ∧ IsAddr .jmpa .jmpa ∧ ∀ (d : Int) (t : Addr) (s : State),
    exec (.jmp d) s = .next { s with pc := relative d s } ∧ exec (.jmpa t) s = .next { s with pc := t }

/-- O44. The calls (44_control_transfer.md R192, R199 to R204): a 4-byte return address at every block size, pushed
before pc changes, and nothing at all when a condition fails. -/
def Obligations.Calls : Prop :=
  IsCall .bz .bz (fun s => s.z) ∧ IsCall .bnz .bnz (fun s => !s.z) ∧
  IsCall .bc .bc (fun s => s.c) ∧ IsCall .bnc .bnc (fun s => !s.c) ∧
  IsDisp .call .call ∧ IsAddr .calla .calla ∧ ∀ (d : Int) (t : Addr) (s : State),
    Pushes 4 s.pc.toNat s (exec (.call d) s) (fun u => { u with pc := relative d s }) ∧
    Pushes 4 s.pc.toNat s (exec (.calla t) s) (fun u => { u with pc := t })

/-- O45. RET (44_control_transfer.md R205): 4 bytes at every block size; it restores pc only. -/
def Obligations.Return : Prop :=
  IsF0 .ret .ret ∧ ∀ s : State, Pops 4 s (exec .ret s) fun v t => { t with pc := BitVec.ofNat 32 v }

/-! ## System (45_system.md) -/

/-- O46. INT (45_system.md R212): no base is fatal; the entry's read may fault; a zero entry raises UndefinedInterrupt
below 0x100 and does nothing from there on; any other entry is entered as a call. -/
def Obligations.SoftwareInterrupt : Prop :=
  IsWord .int .int ∧ ∀ (n : Word) (s : State),
    (s.ivtBaseValid = false → exec (.int n) s = .next (fatal .unsetBase s)) ∧
    (s.ivtBaseValid = true →
      (∀ v t, memRead (s.ivtBase + BitVec.ofNat 32 (4 * n.toNat)) 4 s = .ok v t →
        (v = 0 → n.toNat < 0x100 → exec (.int n) s = finish (.raise .undefinedInterrupt t)) ∧
        (v = 0 → 0x100 ≤ n.toNat → exec (.int n) s = .next t) ∧
        (v ≠ 0 → Pushes 4 t.pc.toNat t (exec (.int n) s) fun u => { u with pc := BitVec.ofNat 32 v })) ∧
      (∀ j v t, j < 4 → memRead (s.ivtBase + BitVec.ofNat 32 (4 * n.toNat)) j s = .ok v t →
        translate t (s.ivtBase + BitVec.ofNat 32 (4 * n.toNat) + BitVec.ofNat 32 j) = .unmapped →
        exec (.int n) s = finish (.raise .pageFault t)) ∧
      (∀ j v t p, j < 4 → memRead (s.ivtBase + BitVec.ofNat 32 (4 * n.toNat)) j s = .ok v t →
        translate t (s.ivtBase + BitVec.ofNat 32 (4 * n.toNat) + BitVec.ofNat 32 j) = .port p → t.ports ≤ p →
        exec (.int n) s = .next (fatal .noPort t)))

/-- O47. INT from memory: with an IVT base, the entry in mapped memory, and a stack whose slot is in mapped memory if the
entry is not 0, INT completes (45_system.md R212). -/
def Obligations.SoftwareInterruptFromMemory : Prop :=
  ∀ (n : Word) (s : State) (l : List Byte), s.ivtBaseValid = true → l.length = 4 →
    HoldsBytes s (s.ivtBase + BitVec.ofNat 32 (4 * n.toNat)) l →
    (leValue l = 0 → 0x100 ≤ n.toNat → exec (.int n) s = .next s) ∧
    (leValue l ≠ 0 → CanPush 4 s → ∃ t, Pushed 4 s.pc.toNat s t ∧
      exec (.int n) s = .next { t with pc := BitVec.ofNat 32 (leValue l) })

/-- O48. DEFINT (45_system.md R213): an id above IVT_MAX_ID raises IvtOverflow before anything else; then no base is
fatal; otherwise the entry's 4 bytes are written. -/
def Obligations.DefineInterrupt : Prop :=
  (∀ bs, Action.defint.format bs = .f2 fun v u => .defint (BitVec.ofNat 64 v) (BitVec.ofNat 32 u)) ∧
  OperandFault .defint ∧ ∀ (n : Word) (t : Addr) (s : State),
    (s.cfg.ivtMaxId < n.toNat → exec (.defint n t) s = finish (.raise .ivtOverflow s)) ∧
    (n.toNat ≤ s.cfg.ivtMaxId → s.ivtBaseValid = false → exec (.defint n t) s = .next (fatal .unsetBase s)) ∧
    (n.toNat ≤ s.cfg.ivtMaxId → s.ivtBaseValid = true →
      Writes (s.ivtBase + BitVec.ofNat 32 (4 * n.toNat)) 4 t.toNat s (exec (.defint n t) s) id)

/-- O49. PAGE, PAGEAT and FREE (45_system.md R215 to R217), in states whose page table is in canonical form: each sets
or removes one entry, and no byte of a frame changes. -/
def Obligations.PageTable : Prop :=
  IsPage .page .page ∧ IsPage .free .free ∧
  (∀ bs, Action.pageat.format bs = .f2 fun v u => .pageat (BitVec.ofNat 20 v) (BitVec.ofNat 64 u)) ∧
  OperandFault .pageat ∧ ∀ (p : PageNo) (f : Nat) (w : Word) (s : State), mapSorted s.pt →
    (IsLowestFree s f → FrameExists s f →
      ∃ m, exec (.page p) s = .next { s with pt := m } ∧ EntrySet s p (some f) m) ∧
    (IsLowestFree s f → ¬ FrameExists s f → exec (.page p) s = .next (fatal .outOfFrames s)) ∧
    (w.toNat = s.cfg.deviceFrame → exec (.pageat p w) s = .next (fatal .reservedFrame s)) ∧
    (w.toNat ≠ s.cfg.deviceFrame → ¬ FrameExists s w.toNat →
      exec (.pageat p w) s = .next (fatal .outOfFrames s)) ∧
    (w.toNat ≠ s.cfg.deviceFrame → FrameExists s w.toNat →
      ∃ m, exec (.pageat p w) s = .next { s with pt := m } ∧ EntrySet s p (some w.toNat) m) ∧
    ∃ m, exec (.free p) s = .next { s with pt := m } ∧ EntrySet s p none m

/-- O50. REDUCE and EXTEND (45_system.md R218, R219): bs halves or doubles within [1, 4]; REDUCE masks the registers to
the new width. -/
def Obligations.BlockSizeChange : Prop :=
  IsF0 .reduce .reduce ∧ IsF0 .extend .extend ∧ ∀ s : State,
    (∃ bs : BlockSize, bs.count = max 1 (s.bs.count / 2) ∧
      exec .reduce s = .next { s with
        bs := bs
        a := BitVec.ofNat 64 (s.a.toNat % 2 ^ bs.width)
        x := BitVec.ofNat 64 (s.x.toNat % 2 ^ bs.width)
        y := BitVec.ofNat 64 (s.y.toNat % 2 ^ bs.width) }) ∧
    ∃ bs : BlockSize, bs.count = min 4 (2 * s.bs.count) ∧ exec .extend s = .next { s with bs := bs }

/-- O51. HALT and HALTZ (45_system.md R220, R221): run keeps which one ran, nothing else changes, and no further step is
enabled. -/
def Obligations.Halts : Prop :=
  IsF0 .halt .halt ∧ IsF0 .haltz .haltz ∧ ∀ s : State,
    exec .halt s = .next { s with run := .haltedBy .halt } ∧ exec .haltz s = .next { s with run := .haltedBy .haltz } ∧
    ∀ (k : HaltKind) (t : State), step { s with run := .haltedBy k } ≠ .next t

/-! ## The whole machine -/

/-- O52. Every step keeps the invariant: the widths (10_state.md R22), a page table and a frame store in canonical form
that never give DEVICE_FRAME to data (R36, R37), the router's marker clear between steps (R41), the port count (R40). -/
def Obligations.StepKeepsInvariant : Prop :=
  ∀ s t : State, s.Inv → step s = .next t → t.Inv

/-- O53. Reset meets the invariant, whatever the parameters are. -/
def Obligations.ResetMeetsInvariant : Prop := ∀ cfg, (State.resetWith cfg).Inv

/-- O54. Reset puts every piece of state at the value the spec gives it (10_state.md R43, 70_reset_and_hazards.md R251);
`State.reset` is that of the example platform (log 2 to 6). stack_base and ivt_base are unspecified there (log 7), and
nothing is said of them. -/
def Obligations.ResetValues : Prop :=
  State.reset = State.resetWith examplePlatform ∧ ∀ cfg, ∃ s, State.resetWith cfg = s ∧
    s.a = 0 ∧ s.x = 0 ∧ s.y = 0 ∧ s.c = false ∧ s.z = false ∧ s.pc = cfg.biosEntry ∧ s.start = 0 ∧
    s.bs = cfg.resetBs ∧ s.stackBaseValid = false ∧ s.stackPos = 0 ∧ s.ivtBaseValid = false ∧
    (∀ p, mapGet s.pt p = none) ∧ (∀ k, s.frames.read k = 0) ∧ s.run = .running ∧ s.ports = 0 ∧
    s.routing = none ∧ s.cfg = cfg

/-- O55. From reset with nothing placed, the first fetch page-faults with no IVT base, which is fatal(UnsetBase)
(70_reset_and_hazards.md R255; log 12). -/
def Obligations.StepFromReset : Prop :=
  ∀ cfg : Config, cfg.biosEntry.toNat / 4096 ≠ cfg.devicePage.toNat →
    step (State.resetWith cfg) =
      .next (fatal .unsetBase { State.resetWith cfg with start := cfg.biosEntry })

/-- O56. Boot (70_reset_and_hazards.md R253, R254): a missing image is fatal(MissingImage) before the first step. With
both images, more pages than frames is fatal(OutOfFrames) (20_memory.md R60); with frames enough and no image byte in the
device page the machine is running at BIOS_ENTRY, the BIOS image, flashed last, stands at BIOS_BASE, and the boot image
at BOOT_BASE outside it. In every case the invariant holds and the registers, flags, bases, stack_pos and bs are those of
reset. Four points are the model's choice (log 13): the order of the images; the cut at 4096 ports; that an empty image
counts as present; and that the ports are registered even when an image is missing. -/
def Obligations.BootRule : Prop :=
  ∀ (cfg : Config) (n : Nat) (p q : Option (List Byte)),
    (p = none ∨ q = none → (boot cfg n p q).run = .haltedFatal .missingImage) ∧
    (boot cfg n p q).Inv ∧
    (∃ t, t = boot cfg n p q ∧ t = { State.resetWith cfg with
      pc := t.pc, pt := t.pt, frames := t.frames, run := t.run, ports := min n 4096, portLog := t.portLog }) ∧
    ∀ l m, p = some l → q = some m →
      (¬ FramesEnough cfg l m → (boot cfg n p q).run = .haltedFatal .outOfFrames) ∧
      (FramesEnough cfg l m → cfg.devicePage ∉ imagePages cfg.bootBase l → cfg.devicePage ∉ imagePages cfg.biosBase m →
        (boot cfg n p q).run = .running ∧ (boot cfg n p q).pc = cfg.biosEntry ∧
        (m.length ≤ 2 ^ 32 → HoldsBytes (boot cfg n p q) cfg.biosBase m) ∧
        (l.length ≤ 2 ^ 32 → ∀ i < l.length,
          (∀ j < m.length, cfg.bootBase + BitVec.ofNat 32 i ≠ cfg.biosBase + BitVec.ofNat 32 j) →
          peek (boot cfg n p q) (cfg.bootBase + BitVec.ofNat 32 i) = l[i]?))

/-- O57. Who writes a general register or a flag (10_state.md R23, R31): no other instruction changes it. -/
def Obligations.RegisterAndFlagWriters : Prop :=
  ∀ (i : Instr) (s t : State), exec i s = .next t →
    (i.action ∉ [.add, .sub, .mul, .div, .mod, .shl, .shr, .movax, .movay, .ldia, .ldba, .ldwa, .ldda, .ldqa, .popa,
      .reduce] → t.a = s.a) ∧
    (i.action ∉ [.movxa, .movxy, .ldix, .ldbx, .ldwx, .lddx, .ldqx, .popx, .reduce] → t.x = s.x) ∧
    (i.action ∉ [.movya, .movyx, .ldiy, .ldby, .ldwy, .lddy, .ldqy, .popy, .reduce] → t.y = s.y) ∧
    (i.action ∉ [.add, .sub, .mul, .div, .mod, .shl, .shr] → t.c = s.c) ∧
    (i.action ∉ [.add, .sub, .mul, .div, .mod, .shl, .shr, .cmpi, .cmp] → t.z = s.z)

/-- O58. Who reads a flag (10_state.md R30): an instruction other than the Z readers gives the same next state, but for
Z, whatever Z holds, and one other than the C readers the same but for C. That both executions read the same draws from
the ports, where the spec lets each port read return any byte (20_memory.md R72), is the model's choice (log 8), and so
is that the calls are equal entries of `portLog` (log 9). -/
def Obligations.FlagReaders : Prop :=
  ∀ (i : Instr) (s t : State) (b : Bool), exec i s = .next t →
    (i.action ∉ [.jz, .jnz, .bz, .bnz] → ∃ z, exec i { s with z := b } = .next { t with z := z }) ∧
    (i.action ∉ [.jc, .jnc, .bc, .bnc] → ∃ c, exec i { s with c := b } = .next { t with c := c })

/-- O59. Who writes control state: only REDUCE and EXTEND bs (10_state.md R32), SETSTACK the stack base (R33), SETIVT the
IVT base (R35), PAGE, PAGEAT and FREE the page table (R36); only HALT and HALTZ end a run normally (R38). -/
def Obligations.ControlStateWriters : Prop :=
  ∀ (i : Instr) (s t : State), exec i s = .next t →
    (i.action ∉ [.reduce, .extend] → t.bs = s.bs) ∧
    (i.action ∉ [.setstack] → t.stackBase = s.stackBase ∧ t.stackBaseValid = s.stackBaseValid) ∧
    (i.action ∉ [.setivt] → t.ivtBase = s.ivtBase ∧ t.ivtBaseValid = s.ivtBaseValid) ∧
    (i.action ∉ [.page, .pageat, .free] → t.pt = s.pt) ∧
    (i.action ∉ [.halt, .haltz] → t.run = s.run ∨ ∃ r, t.run = .haltedFatal r)

/-- O60. A step leaves the parameters, OPTABLE among them, and the ports as they are, and `start` holds the address the
step began at (10_state.md R27, R40, R42; 30_encoding.md R92). -/
def Obligations.StepKeepsParameters : Prop :=
  ∀ s t : State, step s = .next t → t.cfg = s.cfg ∧ t.ports = s.ports ∧ t.start = s.pc
end

