-- ==== Sys2Proof/Laws/State.lean ====
section
/-! SUPPORT. One lemma per field per named update of the state, so that no later proof unfolds a record update. -/

namespace Sys2Proof.Machine

/-! ## latch -/

@[simp] theorem latch_a (s : State) : (latch s).a = s.a := rfl
@[simp] theorem latch_x (s : State) : (latch s).x = s.x := rfl
@[simp] theorem latch_y (s : State) : (latch s).y = s.y := rfl
@[simp] theorem latch_c (s : State) : (latch s).c = s.c := rfl
@[simp] theorem latch_z (s : State) : (latch s).z = s.z := rfl
@[simp] theorem latch_pc (s : State) : (latch s).pc = s.pc := rfl
@[simp] theorem latch_start (s : State) : (latch s).start = s.pc := rfl
@[simp] theorem latch_bs (s : State) : (latch s).bs = s.bs := rfl
@[simp] theorem latch_stackBase (s : State) : (latch s).stackBase = s.stackBase := rfl
@[simp] theorem latch_stackBaseValid (s : State) : (latch s).stackBaseValid = s.stackBaseValid := rfl
@[simp] theorem latch_stackPos (s : State) : (latch s).stackPos = s.stackPos := rfl
@[simp] theorem latch_ivtBase (s : State) : (latch s).ivtBase = s.ivtBase := rfl
@[simp] theorem latch_ivtBaseValid (s : State) : (latch s).ivtBaseValid = s.ivtBaseValid := rfl
@[simp] theorem latch_pt (s : State) : (latch s).pt = s.pt := rfl
@[simp] theorem latch_frames (s : State) : (latch s).frames = s.frames := rfl
@[simp] theorem latch_run (s : State) : (latch s).run = s.run := rfl
@[simp] theorem latch_ports (s : State) : (latch s).ports = s.ports := rfl
@[simp] theorem latch_routing (s : State) : (latch s).routing = s.routing := rfl
@[simp] theorem latch_cfg (s : State) : (latch s).cfg = s.cfg := rfl
@[simp] theorem latch_draws (s : State) : (latch s).draws = s.draws := rfl
@[simp] theorem latch_portLog (s : State) : (latch s).portLog = s.portLog := rfl

/-! ## advance -/

@[simp] theorem advance_a (n : Nat) (s : State) : (advance n s).a = s.a := rfl
@[simp] theorem advance_x (n : Nat) (s : State) : (advance n s).x = s.x := rfl
@[simp] theorem advance_y (n : Nat) (s : State) : (advance n s).y = s.y := rfl
@[simp] theorem advance_c (n : Nat) (s : State) : (advance n s).c = s.c := rfl
@[simp] theorem advance_z (n : Nat) (s : State) : (advance n s).z = s.z := rfl
@[simp] theorem advance_pc (n : Nat) (s : State) : (advance n s).pc = s.pc + BitVec.ofNat 32 n := rfl
@[simp] theorem advance_start (n : Nat) (s : State) : (advance n s).start = s.start := rfl
@[simp] theorem advance_bs (n : Nat) (s : State) : (advance n s).bs = s.bs := rfl
@[simp] theorem advance_stackBase (n : Nat) (s : State) : (advance n s).stackBase = s.stackBase := rfl
@[simp] theorem advance_stackBaseValid (n : Nat) (s : State) : (advance n s).stackBaseValid = s.stackBaseValid := rfl
@[simp] theorem advance_stackPos (n : Nat) (s : State) : (advance n s).stackPos = s.stackPos := rfl
@[simp] theorem advance_ivtBase (n : Nat) (s : State) : (advance n s).ivtBase = s.ivtBase := rfl
@[simp] theorem advance_ivtBaseValid (n : Nat) (s : State) : (advance n s).ivtBaseValid = s.ivtBaseValid := rfl
@[simp] theorem advance_pt (n : Nat) (s : State) : (advance n s).pt = s.pt := rfl
@[simp] theorem advance_frames (n : Nat) (s : State) : (advance n s).frames = s.frames := rfl
@[simp] theorem advance_run (n : Nat) (s : State) : (advance n s).run = s.run := rfl
@[simp] theorem advance_ports (n : Nat) (s : State) : (advance n s).ports = s.ports := rfl
@[simp] theorem advance_routing (n : Nat) (s : State) : (advance n s).routing = s.routing := rfl
@[simp] theorem advance_cfg (n : Nat) (s : State) : (advance n s).cfg = s.cfg := rfl
@[simp] theorem advance_draws (n : Nat) (s : State) : (advance n s).draws = s.draws := rfl
@[simp] theorem advance_portLog (n : Nat) (s : State) : (advance n s).portLog = s.portLog := rfl

/-! ## servicing -/

@[simp] theorem servicing_a (v : Nat) (s : State) : (servicing v s).a = s.a := rfl
@[simp] theorem servicing_x (v : Nat) (s : State) : (servicing v s).x = s.x := rfl
@[simp] theorem servicing_y (v : Nat) (s : State) : (servicing v s).y = s.y := rfl
@[simp] theorem servicing_c (v : Nat) (s : State) : (servicing v s).c = s.c := rfl
@[simp] theorem servicing_z (v : Nat) (s : State) : (servicing v s).z = s.z := rfl
@[simp] theorem servicing_pc (v : Nat) (s : State) : (servicing v s).pc = s.pc := rfl
@[simp] theorem servicing_start (v : Nat) (s : State) : (servicing v s).start = s.start := rfl
@[simp] theorem servicing_bs (v : Nat) (s : State) : (servicing v s).bs = s.bs := rfl
@[simp] theorem servicing_stackBase (v : Nat) (s : State) : (servicing v s).stackBase = s.stackBase := rfl
@[simp] theorem servicing_stackBaseValid (v : Nat) (s : State) : (servicing v s).stackBaseValid = s.stackBaseValid := rfl
@[simp] theorem servicing_stackPos (v : Nat) (s : State) : (servicing v s).stackPos = s.stackPos := rfl
@[simp] theorem servicing_ivtBase (v : Nat) (s : State) : (servicing v s).ivtBase = s.ivtBase := rfl
@[simp] theorem servicing_ivtBaseValid (v : Nat) (s : State) : (servicing v s).ivtBaseValid = s.ivtBaseValid := rfl
@[simp] theorem servicing_pt (v : Nat) (s : State) : (servicing v s).pt = s.pt := rfl
@[simp] theorem servicing_frames (v : Nat) (s : State) : (servicing v s).frames = s.frames := rfl
@[simp] theorem servicing_run (v : Nat) (s : State) : (servicing v s).run = s.run := rfl
@[simp] theorem servicing_ports (v : Nat) (s : State) : (servicing v s).ports = s.ports := rfl
@[simp] theorem servicing_routing (v : Nat) (s : State) : (servicing v s).routing = some v := rfl
@[simp] theorem servicing_cfg (v : Nat) (s : State) : (servicing v s).cfg = s.cfg := rfl
@[simp] theorem servicing_draws (v : Nat) (s : State) : (servicing v s).draws = s.draws := rfl
@[simp] theorem servicing_portLog (v : Nat) (s : State) : (servicing v s).portLog = s.portLog := rfl

/-! ## jump -/

@[simp] theorem jump_a (t : Addr) (s : State) : (jump t s).a = s.a := rfl
@[simp] theorem jump_x (t : Addr) (s : State) : (jump t s).x = s.x := rfl
@[simp] theorem jump_y (t : Addr) (s : State) : (jump t s).y = s.y := rfl
@[simp] theorem jump_c (t : Addr) (s : State) : (jump t s).c = s.c := rfl
@[simp] theorem jump_z (t : Addr) (s : State) : (jump t s).z = s.z := rfl
@[simp] theorem jump_pc (t : Addr) (s : State) : (jump t s).pc = t := rfl
@[simp] theorem jump_start (t : Addr) (s : State) : (jump t s).start = s.start := rfl
@[simp] theorem jump_bs (t : Addr) (s : State) : (jump t s).bs = s.bs := rfl
@[simp] theorem jump_stackBase (t : Addr) (s : State) : (jump t s).stackBase = s.stackBase := rfl
@[simp] theorem jump_stackBaseValid (t : Addr) (s : State) : (jump t s).stackBaseValid = s.stackBaseValid := rfl
@[simp] theorem jump_stackPos (t : Addr) (s : State) : (jump t s).stackPos = s.stackPos := rfl
@[simp] theorem jump_ivtBase (t : Addr) (s : State) : (jump t s).ivtBase = s.ivtBase := rfl
@[simp] theorem jump_ivtBaseValid (t : Addr) (s : State) : (jump t s).ivtBaseValid = s.ivtBaseValid := rfl
@[simp] theorem jump_pt (t : Addr) (s : State) : (jump t s).pt = s.pt := rfl
@[simp] theorem jump_frames (t : Addr) (s : State) : (jump t s).frames = s.frames := rfl
@[simp] theorem jump_run (t : Addr) (s : State) : (jump t s).run = s.run := rfl
@[simp] theorem jump_ports (t : Addr) (s : State) : (jump t s).ports = s.ports := rfl
@[simp] theorem jump_routing (t : Addr) (s : State) : (jump t s).routing = s.routing := rfl
@[simp] theorem jump_cfg (t : Addr) (s : State) : (jump t s).cfg = s.cfg := rfl
@[simp] theorem jump_draws (t : Addr) (s : State) : (jump t s).draws = s.draws := rfl
@[simp] theorem jump_portLog (t : Addr) (s : State) : (jump t s).portLog = s.portLog := rfl

/-! ## mapPage -/

@[simp] theorem mapPage_a (p : PageNo) (f : Nat) (s : State) : (mapPage p f s).a = s.a := rfl
@[simp] theorem mapPage_x (p : PageNo) (f : Nat) (s : State) : (mapPage p f s).x = s.x := rfl
@[simp] theorem mapPage_y (p : PageNo) (f : Nat) (s : State) : (mapPage p f s).y = s.y := rfl
@[simp] theorem mapPage_c (p : PageNo) (f : Nat) (s : State) : (mapPage p f s).c = s.c := rfl
@[simp] theorem mapPage_z (p : PageNo) (f : Nat) (s : State) : (mapPage p f s).z = s.z := rfl
@[simp] theorem mapPage_pc (p : PageNo) (f : Nat) (s : State) : (mapPage p f s).pc = s.pc := rfl
@[simp] theorem mapPage_start (p : PageNo) (f : Nat) (s : State) : (mapPage p f s).start = s.start := rfl
@[simp] theorem mapPage_bs (p : PageNo) (f : Nat) (s : State) : (mapPage p f s).bs = s.bs := rfl
@[simp] theorem mapPage_stackBase (p : PageNo) (f : Nat) (s : State) : (mapPage p f s).stackBase = s.stackBase := rfl
@[simp] theorem mapPage_stackBaseValid (p : PageNo) (f : Nat) (s : State) : (mapPage p f s).stackBaseValid = s.stackBaseValid := rfl
@[simp] theorem mapPage_stackPos (p : PageNo) (f : Nat) (s : State) : (mapPage p f s).stackPos = s.stackPos := rfl
@[simp] theorem mapPage_ivtBase (p : PageNo) (f : Nat) (s : State) : (mapPage p f s).ivtBase = s.ivtBase := rfl
@[simp] theorem mapPage_ivtBaseValid (p : PageNo) (f : Nat) (s : State) : (mapPage p f s).ivtBaseValid = s.ivtBaseValid := rfl
@[simp] theorem mapPage_pt (p : PageNo) (f : Nat) (s : State) : (mapPage p f s).pt = mapSet s.pt p.toNat f := rfl
@[simp] theorem mapPage_frames (p : PageNo) (f : Nat) (s : State) : (mapPage p f s).frames = s.frames := rfl
@[simp] theorem mapPage_run (p : PageNo) (f : Nat) (s : State) : (mapPage p f s).run = s.run := rfl
@[simp] theorem mapPage_ports (p : PageNo) (f : Nat) (s : State) : (mapPage p f s).ports = s.ports := rfl
@[simp] theorem mapPage_routing (p : PageNo) (f : Nat) (s : State) : (mapPage p f s).routing = s.routing := rfl
@[simp] theorem mapPage_cfg (p : PageNo) (f : Nat) (s : State) : (mapPage p f s).cfg = s.cfg := rfl
@[simp] theorem mapPage_draws (p : PageNo) (f : Nat) (s : State) : (mapPage p f s).draws = s.draws := rfl
@[simp] theorem mapPage_portLog (p : PageNo) (f : Nat) (s : State) : (mapPage p f s).portLog = s.portLog := rfl

/-! ## freePage -/

@[simp] theorem freePage_a (p : PageNo) (s : State) : (freePage p s).a = s.a := rfl
@[simp] theorem freePage_x (p : PageNo) (s : State) : (freePage p s).x = s.x := rfl
@[simp] theorem freePage_y (p : PageNo) (s : State) : (freePage p s).y = s.y := rfl
@[simp] theorem freePage_c (p : PageNo) (s : State) : (freePage p s).c = s.c := rfl
@[simp] theorem freePage_z (p : PageNo) (s : State) : (freePage p s).z = s.z := rfl
@[simp] theorem freePage_pc (p : PageNo) (s : State) : (freePage p s).pc = s.pc := rfl
@[simp] theorem freePage_start (p : PageNo) (s : State) : (freePage p s).start = s.start := rfl
@[simp] theorem freePage_bs (p : PageNo) (s : State) : (freePage p s).bs = s.bs := rfl
@[simp] theorem freePage_stackBase (p : PageNo) (s : State) : (freePage p s).stackBase = s.stackBase := rfl
@[simp] theorem freePage_stackBaseValid (p : PageNo) (s : State) : (freePage p s).stackBaseValid = s.stackBaseValid := rfl
@[simp] theorem freePage_stackPos (p : PageNo) (s : State) : (freePage p s).stackPos = s.stackPos := rfl
@[simp] theorem freePage_ivtBase (p : PageNo) (s : State) : (freePage p s).ivtBase = s.ivtBase := rfl
@[simp] theorem freePage_ivtBaseValid (p : PageNo) (s : State) : (freePage p s).ivtBaseValid = s.ivtBaseValid := rfl
@[simp] theorem freePage_pt (p : PageNo) (s : State) : (freePage p s).pt = mapErase s.pt p.toNat := rfl
@[simp] theorem freePage_frames (p : PageNo) (s : State) : (freePage p s).frames = s.frames := rfl
@[simp] theorem freePage_run (p : PageNo) (s : State) : (freePage p s).run = s.run := rfl
@[simp] theorem freePage_ports (p : PageNo) (s : State) : (freePage p s).ports = s.ports := rfl
@[simp] theorem freePage_routing (p : PageNo) (s : State) : (freePage p s).routing = s.routing := rfl
@[simp] theorem freePage_cfg (p : PageNo) (s : State) : (freePage p s).cfg = s.cfg := rfl
@[simp] theorem freePage_draws (p : PageNo) (s : State) : (freePage p s).draws = s.draws := rfl
@[simp] theorem freePage_portLog (p : PageNo) (s : State) : (freePage p s).portLog = s.portLog := rfl

/-! ## haltFatal -/

@[simp] theorem haltFatal_a (r : FatalReason) (s : State) : (haltFatal r s).a = s.a := rfl
@[simp] theorem haltFatal_x (r : FatalReason) (s : State) : (haltFatal r s).x = s.x := rfl
@[simp] theorem haltFatal_y (r : FatalReason) (s : State) : (haltFatal r s).y = s.y := rfl
@[simp] theorem haltFatal_c (r : FatalReason) (s : State) : (haltFatal r s).c = s.c := rfl
@[simp] theorem haltFatal_z (r : FatalReason) (s : State) : (haltFatal r s).z = s.z := rfl
@[simp] theorem haltFatal_pc (r : FatalReason) (s : State) : (haltFatal r s).pc = s.pc := rfl
@[simp] theorem haltFatal_start (r : FatalReason) (s : State) : (haltFatal r s).start = s.start := rfl
@[simp] theorem haltFatal_bs (r : FatalReason) (s : State) : (haltFatal r s).bs = s.bs := rfl
@[simp] theorem haltFatal_stackBase (r : FatalReason) (s : State) : (haltFatal r s).stackBase = s.stackBase := rfl
@[simp] theorem haltFatal_stackBaseValid (r : FatalReason) (s : State) : (haltFatal r s).stackBaseValid = s.stackBaseValid := rfl
@[simp] theorem haltFatal_stackPos (r : FatalReason) (s : State) : (haltFatal r s).stackPos = s.stackPos := rfl
@[simp] theorem haltFatal_ivtBase (r : FatalReason) (s : State) : (haltFatal r s).ivtBase = s.ivtBase := rfl
@[simp] theorem haltFatal_ivtBaseValid (r : FatalReason) (s : State) : (haltFatal r s).ivtBaseValid = s.ivtBaseValid := rfl
@[simp] theorem haltFatal_pt (r : FatalReason) (s : State) : (haltFatal r s).pt = s.pt := rfl
@[simp] theorem haltFatal_frames (r : FatalReason) (s : State) : (haltFatal r s).frames = s.frames := rfl
@[simp] theorem haltFatal_run (r : FatalReason) (s : State) : (haltFatal r s).run = .haltedFatal r := rfl
@[simp] theorem haltFatal_ports (r : FatalReason) (s : State) : (haltFatal r s).ports = s.ports := rfl
@[simp] theorem haltFatal_routing (r : FatalReason) (s : State) : (haltFatal r s).routing = none := rfl
@[simp] theorem haltFatal_cfg (r : FatalReason) (s : State) : (haltFatal r s).cfg = s.cfg := rfl
@[simp] theorem haltFatal_draws (r : FatalReason) (s : State) : (haltFatal r s).draws = s.draws := rfl
@[simp] theorem haltFatal_portLog (r : FatalReason) (s : State) : (haltFatal r s).portLog = s.portLog := rfl

/-! ## setArith -/

@[simp] theorem setArith_a (r : Int) (s : State) : (setArith r s).a = maskedCell s.bs r := rfl
@[simp] theorem setArith_x (r : Int) (s : State) : (setArith r s).x = s.x := rfl
@[simp] theorem setArith_y (r : Int) (s : State) : (setArith r s).y = s.y := rfl
@[simp] theorem setArith_c (r : Int) (s : State) : (setArith r s).c = carryOf s.bs r := rfl
@[simp] theorem setArith_z (r : Int) (s : State) : (setArith r s).z = zeroOf s.bs r := rfl
@[simp] theorem setArith_pc (r : Int) (s : State) : (setArith r s).pc = s.pc := rfl
@[simp] theorem setArith_start (r : Int) (s : State) : (setArith r s).start = s.start := rfl
@[simp] theorem setArith_bs (r : Int) (s : State) : (setArith r s).bs = s.bs := rfl
@[simp] theorem setArith_stackBase (r : Int) (s : State) : (setArith r s).stackBase = s.stackBase := rfl
@[simp] theorem setArith_stackBaseValid (r : Int) (s : State) : (setArith r s).stackBaseValid = s.stackBaseValid := rfl
@[simp] theorem setArith_stackPos (r : Int) (s : State) : (setArith r s).stackPos = s.stackPos := rfl
@[simp] theorem setArith_ivtBase (r : Int) (s : State) : (setArith r s).ivtBase = s.ivtBase := rfl
@[simp] theorem setArith_ivtBaseValid (r : Int) (s : State) : (setArith r s).ivtBaseValid = s.ivtBaseValid := rfl
@[simp] theorem setArith_pt (r : Int) (s : State) : (setArith r s).pt = s.pt := rfl
@[simp] theorem setArith_frames (r : Int) (s : State) : (setArith r s).frames = s.frames := rfl
@[simp] theorem setArith_run (r : Int) (s : State) : (setArith r s).run = s.run := rfl
@[simp] theorem setArith_ports (r : Int) (s : State) : (setArith r s).ports = s.ports := rfl
@[simp] theorem setArith_routing (r : Int) (s : State) : (setArith r s).routing = s.routing := rfl
@[simp] theorem setArith_cfg (r : Int) (s : State) : (setArith r s).cfg = s.cfg := rfl
@[simp] theorem setArith_draws (r : Int) (s : State) : (setArith r s).draws = s.draws := rfl
@[simp] theorem setArith_portLog (r : Int) (s : State) : (setArith r s).portLog = s.portLog := rfl

/-! ## setCompare -/

@[simp] theorem setCompare_a (u v : Word) (s : State) : (setCompare u v s).a = s.a := rfl
@[simp] theorem setCompare_x (u v : Word) (s : State) : (setCompare u v s).x = s.x := rfl
@[simp] theorem setCompare_y (u v : Word) (s : State) : (setCompare u v s).y = s.y := rfl
@[simp] theorem setCompare_c (u v : Word) (s : State) : (setCompare u v s).c = s.c := rfl
@[simp] theorem setCompare_z (u v : Word) (s : State) : (setCompare u v s).z = decide (u = v) := rfl
@[simp] theorem setCompare_pc (u v : Word) (s : State) : (setCompare u v s).pc = s.pc := rfl
@[simp] theorem setCompare_start (u v : Word) (s : State) : (setCompare u v s).start = s.start := rfl
@[simp] theorem setCompare_bs (u v : Word) (s : State) : (setCompare u v s).bs = s.bs := rfl
@[simp] theorem setCompare_stackBase (u v : Word) (s : State) : (setCompare u v s).stackBase = s.stackBase := rfl
@[simp] theorem setCompare_stackBaseValid (u v : Word) (s : State) : (setCompare u v s).stackBaseValid = s.stackBaseValid := rfl
@[simp] theorem setCompare_stackPos (u v : Word) (s : State) : (setCompare u v s).stackPos = s.stackPos := rfl
@[simp] theorem setCompare_ivtBase (u v : Word) (s : State) : (setCompare u v s).ivtBase = s.ivtBase := rfl
@[simp] theorem setCompare_ivtBaseValid (u v : Word) (s : State) : (setCompare u v s).ivtBaseValid = s.ivtBaseValid := rfl
@[simp] theorem setCompare_pt (u v : Word) (s : State) : (setCompare u v s).pt = s.pt := rfl
@[simp] theorem setCompare_frames (u v : Word) (s : State) : (setCompare u v s).frames = s.frames := rfl
@[simp] theorem setCompare_run (u v : Word) (s : State) : (setCompare u v s).run = s.run := rfl
@[simp] theorem setCompare_ports (u v : Word) (s : State) : (setCompare u v s).ports = s.ports := rfl
@[simp] theorem setCompare_routing (u v : Word) (s : State) : (setCompare u v s).routing = s.routing := rfl
@[simp] theorem setCompare_cfg (u v : Word) (s : State) : (setCompare u v s).cfg = s.cfg := rfl
@[simp] theorem setCompare_draws (u v : Word) (s : State) : (setCompare u v s).draws = s.draws := rfl
@[simp] theorem setCompare_portLog (u v : Word) (s : State) : (setCompare u v s).portLog = s.portLog := rfl

/-! ## shrinkTo -/

@[simp] theorem shrinkTo_a (b : BlockSize) (s : State) : (shrinkTo b s).a = maskedCell b s.a.toNat := rfl
@[simp] theorem shrinkTo_x (b : BlockSize) (s : State) : (shrinkTo b s).x = maskedCell b s.x.toNat := rfl
@[simp] theorem shrinkTo_y (b : BlockSize) (s : State) : (shrinkTo b s).y = maskedCell b s.y.toNat := rfl
@[simp] theorem shrinkTo_c (b : BlockSize) (s : State) : (shrinkTo b s).c = s.c := rfl
@[simp] theorem shrinkTo_z (b : BlockSize) (s : State) : (shrinkTo b s).z = s.z := rfl
@[simp] theorem shrinkTo_pc (b : BlockSize) (s : State) : (shrinkTo b s).pc = s.pc := rfl
@[simp] theorem shrinkTo_start (b : BlockSize) (s : State) : (shrinkTo b s).start = s.start := rfl
@[simp] theorem shrinkTo_bs (b : BlockSize) (s : State) : (shrinkTo b s).bs = b := rfl
@[simp] theorem shrinkTo_stackBase (b : BlockSize) (s : State) : (shrinkTo b s).stackBase = s.stackBase := rfl
@[simp] theorem shrinkTo_stackBaseValid (b : BlockSize) (s : State) : (shrinkTo b s).stackBaseValid = s.stackBaseValid := rfl
@[simp] theorem shrinkTo_stackPos (b : BlockSize) (s : State) : (shrinkTo b s).stackPos = s.stackPos := rfl
@[simp] theorem shrinkTo_ivtBase (b : BlockSize) (s : State) : (shrinkTo b s).ivtBase = s.ivtBase := rfl
@[simp] theorem shrinkTo_ivtBaseValid (b : BlockSize) (s : State) : (shrinkTo b s).ivtBaseValid = s.ivtBaseValid := rfl
@[simp] theorem shrinkTo_pt (b : BlockSize) (s : State) : (shrinkTo b s).pt = s.pt := rfl
@[simp] theorem shrinkTo_frames (b : BlockSize) (s : State) : (shrinkTo b s).frames = s.frames := rfl
@[simp] theorem shrinkTo_run (b : BlockSize) (s : State) : (shrinkTo b s).run = s.run := rfl
@[simp] theorem shrinkTo_ports (b : BlockSize) (s : State) : (shrinkTo b s).ports = s.ports := rfl
@[simp] theorem shrinkTo_routing (b : BlockSize) (s : State) : (shrinkTo b s).routing = s.routing := rfl
@[simp] theorem shrinkTo_cfg (b : BlockSize) (s : State) : (shrinkTo b s).cfg = s.cfg := rfl
@[simp] theorem shrinkTo_draws (b : BlockSize) (s : State) : (shrinkTo b s).draws = s.draws := rfl
@[simp] theorem shrinkTo_portLog (b : BlockSize) (s : State) : (shrinkTo b s).portLog = s.portLog := rfl

/-! ## registerPorts -/

@[simp] theorem registerPorts_a (n : Nat) (s : State) : (registerPorts n s).a = s.a := rfl
@[simp] theorem registerPorts_x (n : Nat) (s : State) : (registerPorts n s).x = s.x := rfl
@[simp] theorem registerPorts_y (n : Nat) (s : State) : (registerPorts n s).y = s.y := rfl
@[simp] theorem registerPorts_c (n : Nat) (s : State) : (registerPorts n s).c = s.c := rfl
@[simp] theorem registerPorts_z (n : Nat) (s : State) : (registerPorts n s).z = s.z := rfl
@[simp] theorem registerPorts_pc (n : Nat) (s : State) : (registerPorts n s).pc = s.pc := rfl
@[simp] theorem registerPorts_start (n : Nat) (s : State) : (registerPorts n s).start = s.start := rfl
@[simp] theorem registerPorts_bs (n : Nat) (s : State) : (registerPorts n s).bs = s.bs := rfl
@[simp] theorem registerPorts_stackBase (n : Nat) (s : State) : (registerPorts n s).stackBase = s.stackBase := rfl
@[simp] theorem registerPorts_stackBaseValid (n : Nat) (s : State) : (registerPorts n s).stackBaseValid = s.stackBaseValid := rfl
@[simp] theorem registerPorts_stackPos (n : Nat) (s : State) : (registerPorts n s).stackPos = s.stackPos := rfl
@[simp] theorem registerPorts_ivtBase (n : Nat) (s : State) : (registerPorts n s).ivtBase = s.ivtBase := rfl
@[simp] theorem registerPorts_ivtBaseValid (n : Nat) (s : State) : (registerPorts n s).ivtBaseValid = s.ivtBaseValid := rfl
@[simp] theorem registerPorts_pt (n : Nat) (s : State) : (registerPorts n s).pt = s.pt := rfl
@[simp] theorem registerPorts_frames (n : Nat) (s : State) : (registerPorts n s).frames = s.frames := rfl
@[simp] theorem registerPorts_run (n : Nat) (s : State) : (registerPorts n s).run = s.run := rfl
@[simp] theorem registerPorts_ports (n : Nat) (s : State) : (registerPorts n s).ports = min (s.ports + n) 4096 := rfl
@[simp] theorem registerPorts_routing (n : Nat) (s : State) : (registerPorts n s).routing = s.routing := rfl
@[simp] theorem registerPorts_cfg (n : Nat) (s : State) : (registerPorts n s).cfg = s.cfg := rfl
@[simp] theorem registerPorts_draws (n : Nat) (s : State) : (registerPorts n s).draws = s.draws := rfl
@[simp] theorem registerPorts_portLog (n : Nat) (s : State) : (registerPorts n s).portLog = s.portLog := rfl

/-! ## setReg -/

@[simp] theorem setReg_a (r : Reg) (v : Word)(s : State) : (setReg r v s).a = if r = .A then v else s.a := by
  cases r <;> rfl
@[simp] theorem setReg_x (r : Reg) (v : Word)(s : State) : (setReg r v s).x = if r = .X then v else s.x := by
  cases r <;> rfl
@[simp] theorem setReg_y (r : Reg) (v : Word)(s : State) : (setReg r v s).y = if r = .Y then v else s.y := by
  cases r <;> rfl
@[simp] theorem setReg_c (r : Reg) (v : Word)(s : State) : (setReg r v s).c = s.c := by
  cases r <;> rfl
@[simp] theorem setReg_z (r : Reg) (v : Word)(s : State) : (setReg r v s).z = s.z := by
  cases r <;> rfl
@[simp] theorem setReg_pc (r : Reg) (v : Word)(s : State) : (setReg r v s).pc = s.pc := by
  cases r <;> rfl
@[simp] theorem setReg_start (r : Reg) (v : Word)(s : State) : (setReg r v s).start = s.start := by
  cases r <;> rfl
@[simp] theorem setReg_bs (r : Reg) (v : Word)(s : State) : (setReg r v s).bs = s.bs := by
  cases r <;> rfl
@[simp] theorem setReg_stackBase (r : Reg) (v : Word)(s : State) : (setReg r v s).stackBase = s.stackBase := by
  cases r <;> rfl
@[simp] theorem setReg_stackBaseValid (r : Reg) (v : Word)(s : State) : (setReg r v s).stackBaseValid = s.stackBaseValid := by
  cases r <;> rfl
@[simp] theorem setReg_stackPos (r : Reg) (v : Word)(s : State) : (setReg r v s).stackPos = s.stackPos := by
  cases r <;> rfl
@[simp] theorem setReg_ivtBase (r : Reg) (v : Word)(s : State) : (setReg r v s).ivtBase = s.ivtBase := by
  cases r <;> rfl
@[simp] theorem setReg_ivtBaseValid (r : Reg) (v : Word)(s : State) : (setReg r v s).ivtBaseValid = s.ivtBaseValid := by
  cases r <;> rfl
@[simp] theorem setReg_pt (r : Reg) (v : Word)(s : State) : (setReg r v s).pt = s.pt := by
  cases r <;> rfl
@[simp] theorem setReg_frames (r : Reg) (v : Word)(s : State) : (setReg r v s).frames = s.frames := by
  cases r <;> rfl
@[simp] theorem setReg_run (r : Reg) (v : Word)(s : State) : (setReg r v s).run = s.run := by
  cases r <;> rfl
@[simp] theorem setReg_ports (r : Reg) (v : Word)(s : State) : (setReg r v s).ports = s.ports := by
  cases r <;> rfl
@[simp] theorem setReg_routing (r : Reg) (v : Word)(s : State) : (setReg r v s).routing = s.routing := by
  cases r <;> rfl
@[simp] theorem setReg_cfg (r : Reg) (v : Word)(s : State) : (setReg r v s).cfg = s.cfg := by
  cases r <;> rfl
@[simp] theorem setReg_draws (r : Reg) (v : Word)(s : State) : (setReg r v s).draws = s.draws := by
  cases r <;> rfl
@[simp] theorem setReg_portLog (r : Reg) (v : Word)(s : State) : (setReg r v s).portLog = s.portLog := by
  cases r <;> rfl

/-! ## setRegMasked -/

@[simp] theorem setRegMasked_a (r : Reg) (v : Nat)(s : State) : (setRegMasked r v s).a = if r = .A then maskedCell s.bs v else s.a := by
  cases r <;> rfl
@[simp] theorem setRegMasked_x (r : Reg) (v : Nat)(s : State) : (setRegMasked r v s).x = if r = .X then maskedCell s.bs v else s.x := by
  cases r <;> rfl
@[simp] theorem setRegMasked_y (r : Reg) (v : Nat)(s : State) : (setRegMasked r v s).y = if r = .Y then maskedCell s.bs v else s.y := by
  cases r <;> rfl
@[simp] theorem setRegMasked_c (r : Reg) (v : Nat)(s : State) : (setRegMasked r v s).c = s.c := by
  cases r <;> rfl
@[simp] theorem setRegMasked_z (r : Reg) (v : Nat)(s : State) : (setRegMasked r v s).z = s.z := by
  cases r <;> rfl
@[simp] theorem setRegMasked_pc (r : Reg) (v : Nat)(s : State) : (setRegMasked r v s).pc = s.pc := by
  cases r <;> rfl
@[simp] theorem setRegMasked_start (r : Reg) (v : Nat)(s : State) : (setRegMasked r v s).start = s.start := by
  cases r <;> rfl
@[simp] theorem setRegMasked_bs (r : Reg) (v : Nat)(s : State) : (setRegMasked r v s).bs = s.bs := by
  cases r <;> rfl
@[simp] theorem setRegMasked_stackBase (r : Reg) (v : Nat)(s : State) : (setRegMasked r v s).stackBase = s.stackBase := by
  cases r <;> rfl
@[simp] theorem setRegMasked_stackBaseValid (r : Reg) (v : Nat)(s : State) : (setRegMasked r v s).stackBaseValid = s.stackBaseValid := by
  cases r <;> rfl
@[simp] theorem setRegMasked_stackPos (r : Reg) (v : Nat)(s : State) : (setRegMasked r v s).stackPos = s.stackPos := by
  cases r <;> rfl
@[simp] theorem setRegMasked_ivtBase (r : Reg) (v : Nat)(s : State) : (setRegMasked r v s).ivtBase = s.ivtBase := by
  cases r <;> rfl
@[simp] theorem setRegMasked_ivtBaseValid (r : Reg) (v : Nat)(s : State) : (setRegMasked r v s).ivtBaseValid = s.ivtBaseValid := by
  cases r <;> rfl
@[simp] theorem setRegMasked_pt (r : Reg) (v : Nat)(s : State) : (setRegMasked r v s).pt = s.pt := by
  cases r <;> rfl
@[simp] theorem setRegMasked_frames (r : Reg) (v : Nat)(s : State) : (setRegMasked r v s).frames = s.frames := by
  cases r <;> rfl
@[simp] theorem setRegMasked_run (r : Reg) (v : Nat)(s : State) : (setRegMasked r v s).run = s.run := by
  cases r <;> rfl
@[simp] theorem setRegMasked_ports (r : Reg) (v : Nat)(s : State) : (setRegMasked r v s).ports = s.ports := by
  cases r <;> rfl
@[simp] theorem setRegMasked_routing (r : Reg) (v : Nat)(s : State) : (setRegMasked r v s).routing = s.routing := by
  cases r <;> rfl
@[simp] theorem setRegMasked_cfg (r : Reg) (v : Nat)(s : State) : (setRegMasked r v s).cfg = s.cfg := by
  cases r <;> rfl
@[simp] theorem setRegMasked_draws (r : Reg) (v : Nat)(s : State) : (setRegMasked r v s).draws = s.draws := by
  cases r <;> rfl
@[simp] theorem setRegMasked_portLog (r : Reg) (v : Nat)(s : State) : (setRegMasked r v s).portLog = s.portLog := by
  cases r <;> rfl

/-! ## Reading a register -/

@[simp] theorem getReg_setReg (r q : Reg) (v : Word) (s : State) :
    getReg q (setReg r v s) = if r = q then v else getReg q s := by
  cases r <;> cases q <;> rfl

end Sys2Proof.Machine
end

