-- ==== Sys2Proof/Laws/Arithmetic.lean ====
section
/-! SUPPORT. Masking, carry and zero as the rules write them, and the cut shift counts. -/

namespace Sys2Proof.Machine

theorem width_le (bs : BlockSize) : bs.width ≤ 64 := by
  cases bs <;> decide

theorem width_pos (bs : BlockSize) : 16 ≤ bs.width := by
  cases bs <;> decide

/-- W bits are WB bytes (00_scope.md R11). -/
theorem two_pow_width (bs : BlockSize) : 2 ^ bs.width = 256 ^ bs.bytes := by
  cases bs <;> decide

theorem maskW_lt (bs : BlockSize) (r : Int) : maskW bs r < 2 ^ bs.width := by
  have h : (0 : Int) < 2 ^ bs.width := by positivity
  have h1 := Int.emod_nonneg r h.ne'
  have h2 := Int.emod_lt_of_pos r h
  unfold maskW
  zify
  rwa [Int.toNat_of_nonneg h1]

theorem maskW_cast (bs : BlockSize) (r : Int) : (maskW bs r : Int) = r % 2 ^ bs.width := by
  have h : (0 : Int) < 2 ^ bs.width := by positivity
  exact Int.toNat_of_nonneg (Int.emod_nonneg r h.ne')

@[simp] theorem maskW_natCast (bs : BlockSize) (n : Nat) : maskW bs (n : Int) = n % 2 ^ bs.width := by
  have := maskW_cast bs (n : Int)
  exact_mod_cast this

theorem toNat_maskedCell (bs : BlockSize) (r : Int) : (maskedCell bs r).toNat = maskW bs r := by
  have h := maskW_lt bs r
  have : 2 ^ bs.width ≤ 2 ^ 64 := Nat.pow_le_pow_right (by norm_num) (width_le bs)
  rw [maskedCell, BitVec.toNat_ofNat, Nat.mod_eq_of_lt (by omega)]

/-- A masked cell is below 2^W. -/
theorem maskedCell_lt (bs : BlockSize) (r : Int) : (maskedCell bs r).toNat < 2 ^ bs.width := by
  rw [toNat_maskedCell]
  exact maskW_lt bs r

/-- For a natural result, C is its carry out of W bits (41_arithmetic.md R127, R129). -/
theorem carryOf_natCast (bs : BlockSize) (n : Nat) : carryOf bs (n : Int) = decide (2 ^ bs.width ≤ n) := by
  have h : 0 < 2 ^ bs.width := by positivity
  simp only [carryOf, maskW_natCast, ne_eq, Nat.cast_inj, decide_eq_decide]
  constructor
  · intro hne
    by_contra hlt
    exact hne (Nat.mod_eq_of_lt (by omega)).symm
  · intro hle heq
    have := Nat.mod_lt n h
    omega

theorem zeroOf_natCast (bs : BlockSize) (n : Nat) : zeroOf bs (n : Int) = decide (n % 2 ^ bs.width = 0) := by
  simp [zeroOf]

/-- An exact result that depends on W only modulo 2^W: two results with the same residue and the same carry set the
same A, C and Z. -/
theorem setArith_congr {s : State} {r q : Int} (h : maskW s.bs r = maskW s.bs q)
    (hc : carryOf s.bs r = carryOf s.bs q) : setArith r s = setArith q s := by
  simp only [setArith, maskedCell, zeroOf, h, hc]

theorem mul_two_pow_mod {x y w : Nat} (h : w ≤ y) : x * 2 ^ y % 2 ^ w = 0 := by
  obtain ⟨d, rfl⟩ := Nat.exists_eq_add_of_le h
  rw [Nat.pow_add, Nat.mul_comm (2 ^ w), ← Nat.mul_assoc]
  exact Nat.mul_mod_left _ _

/-- SHL with the cut count is SHL with the whole count (41_arithmetic.md R132). -/
theorem setArith_shiftedLeft (s : State) :
    setArith (shiftedLeft s) s = setArith ((s.x.toNat * 2 ^ s.y.toNat : Nat) : Int) s := by
  have hc : shiftedLeft s = ((s.x.toNat * 2 ^ min s.y.toNat s.bs.width : Nat) : Int) := by
    simp [shiftedLeft]
  rw [hc]
  rcases Nat.le_total s.y.toNat s.bs.width with h | h
  · rw [Nat.min_eq_left h]
  · rw [Nat.min_eq_right h]
    refine setArith_congr ?_ ?_
    · rw [maskW_natCast, maskW_natCast, mul_two_pow_mod h, mul_two_pow_mod le_rfl]
    · rw [carryOf_natCast, carryOf_natCast, decide_eq_decide]
      rcases Nat.eq_zero_or_pos s.x.toNat with h0 | h0
      · simp [h0]
      · have h1 : 2 ^ s.bs.width ≤ 2 ^ s.y.toNat := Nat.pow_le_pow_right (by norm_num) h
        exact ⟨fun _ => h1.trans (Nat.le_mul_of_pos_left _ h0), fun _ => Nat.le_mul_of_pos_left _ h0⟩

/-- SHR with the cut count is SHR with the whole count (41_arithmetic.md R133). -/
theorem shiftedRight_eq (s : State) : shiftedRight s = ((s.x.toNat / 2 ^ s.y.toNat : Nat) : Int) := by
  unfold shiftedRight
  rcases Nat.le_total s.y.toNat 64 with h | h
  · rw [Nat.min_eq_left h]
  · rw [Nat.min_eq_right h]
    have hx := s.x.isLt
    have h1 : 2 ^ 64 ≤ 2 ^ s.y.toNat := Nat.pow_le_pow_right (by norm_num) h
    rw [Nat.div_eq_of_lt hx, Nat.div_eq_of_lt (Nat.lt_of_lt_of_le hx h1)]

end Sys2Proof.Machine
end

