-- ==== Sys2Proof/Laws/Memory.lean ====
section
/-! SUPPORT. The laws of the sparse maps and of the frame store: read after write, other keys, canonical form. -/

namespace Sys2Proof.Machine

variable {α : Type}

/-! ## Maps -/

@[simp] theorem mapGet_mapSet_same (m : List (Nat × α)) (k : Nat) (v : α) : mapGet (mapSet m k v) k = some v := by
  induction m with
  | nil => simp [mapSet, mapGet]
  | cons e m ih =>
    obtain ⟨j, u⟩ := e
    simp only [mapSet]
    split_ifs with h₁ h₂
    · simp [mapGet]
    · simp [mapGet]
    · simp [mapGet, h₂, ih]

theorem mapGet_mapSet_other (m : List (Nat × α)) {k l : Nat} (v : α) (h : l ≠ k) :
    mapGet (mapSet m k v) l = mapGet m l := by
  induction m with
  | nil => simp [mapSet, mapGet, h]
  | cons e m ih =>
    obtain ⟨j, u⟩ := e
    simp only [mapSet]
    split_ifs with h₁ h₂
    · simp [mapGet, h]
    · subst h₂
      simp [mapGet, h]
    · simp [mapGet, ih]

@[simp] theorem mapGet_mapErase_same (m : List (Nat × α)) (k : Nat) : mapGet (mapErase m k) k = none := by
  induction m with
  | nil => simp [mapErase, mapGet]
  | cons e m ih =>
    obtain ⟨j, u⟩ := e
    by_cases h : j = k
    · simpa [mapErase, h] using ih
    · simpa [mapErase, mapGet, h, Ne.symm h] using ih

theorem mapGet_mapErase_other (m : List (Nat × α)) {k l : Nat} (h : l ≠ k) :
    mapGet (mapErase m k) l = mapGet m l := by
  induction m with
  | nil => simp [mapErase]
  | cons e m ih =>
    obtain ⟨j, u⟩ := e
    by_cases hj : j = k
    · subst hj
      simpa [mapErase, mapGet, h] using ih
    · simp only [mapErase, ne_eq, decide_not] at ih
      simp [mapErase, mapGet, hj, ih]

theorem mem_of_mapGet {m : List (Nat × α)} {k : Nat} {v : α} (h : mapGet m k = some v) : (k, v) ∈ m := by
  induction m with
  | nil => simp [mapGet] at h
  | cons e m ih =>
    obtain ⟨j, u⟩ := e
    simp only [mapGet] at h
    split_ifs at h with hk
    · simp_all
    · exact List.mem_cons_of_mem _ (ih h)

theorem mapGet_of_mem {m : List (Nat × α)} (hm : mapSorted m) {k : Nat} {v : α} (h : (k, v) ∈ m) :
    mapGet m k = some v := by
  induction m with
  | nil => simp at h
  | cons e m ih =>
    obtain ⟨j, u⟩ := e
    rw [mapSorted, List.pairwise_cons] at hm
    rcases List.mem_cons.mp h with h | h
    · cases h
      simp [mapGet]
    · have : j < k := hm.1 _ h
      simp [mapGet, Nat.ne_of_gt this, ih hm.2 h]

theorem not_mem_of_mapGet_none {m : List (Nat × α)} {k : Nat} (h : mapGet m k = none) :
    ∀ e ∈ m, e.1 ≠ k := by
  induction m with
  | nil => simp
  | cons e m ih =>
    obtain ⟨j, u⟩ := e
    simp only [mapGet] at h
    split_ifs at h with hk
    intro e he
    rcases List.mem_cons.mp he with rfl | he
    · exact fun hj => hk hj.symm
    · exact ih h e he

theorem mapErase_absent {m : List (Nat × α)} {k : Nat} (h : mapGet m k = none) : mapErase m k = m := by
  rw [mapErase, List.filter_eq_self]
  intro e he
  simpa using not_mem_of_mapGet_none h e he

theorem mem_mapErase {m : List (Nat × α)} {k : Nat} {e : Nat × α} (h : e ∈ mapErase m k) : e ∈ m :=
  List.mem_of_mem_filter h

theorem mem_mapSet {m : List (Nat × α)} {k : Nat} {v : α} {e : Nat × α} (h : e ∈ mapSet m k v) :
    e = (k, v) ∨ e ∈ m := by
  induction m with
  | nil => simpa [mapSet] using h
  | cons f m ih =>
    obtain ⟨j, u⟩ := f
    simp only [mapSet] at h
    split_ifs at h with h₁ h₂
    · simpa using h
    · rcases List.mem_cons.mp h with h | h
      · exact .inl h
      · exact .inr (List.mem_cons_of_mem _ h)
    · rcases List.mem_cons.mp h with h | h
      · exact .inr (by simp [h])
      · exact (ih h).imp id (List.mem_cons_of_mem _)

theorem mapSorted_mapErase {m : List (Nat × α)} (hm : mapSorted m) (k : Nat) : mapSorted (mapErase m k) :=
  hm.filter _

theorem mapSorted_mapSet {m : List (Nat × α)} (hm : mapSorted m) (k : Nat) (v : α) : mapSorted (mapSet m k v) := by
  induction m with
  | nil => simp [mapSet]
  | cons e m ih =>
    obtain ⟨j, u⟩ := e
    have hj := List.pairwise_cons.mp hm
    simp only [mapSet]
    split_ifs with h₁ h₂
    · refine List.pairwise_cons.mpr ⟨fun f hf => ?_, hm⟩
      rcases List.mem_cons.mp hf with rfl | hf
      · exact h₁
      · exact Nat.lt_trans h₁ (hj.1 f hf)
    · subst h₂
      exact List.pairwise_cons.mpr ⟨hj.1, hj.2⟩
    · refine List.pairwise_cons.mpr ⟨fun f hf => ?_, ih hj.2⟩
      rcases mem_mapSet hf with rfl | hf
      · show j < k
        omega
      · exact hj.1 f hf

/-! ## The frame store -/

@[simp] theorem Memory.read_nil (k : Nat) : Memory.read [] k = 0 := rfl

@[simp] theorem Memory.read_write_same (m : Memory) (k : Nat) (b : Byte) : (m.write k b).read k = b := by
  unfold Memory.read Memory.write
  split_ifs with h
  · simp [h]
  · simp

theorem Memory.read_write_other (m : Memory) {k l : Nat} (b : Byte) (h : l ≠ k) :
    (m.write k b).read l = m.read l := by
  unfold Memory.read Memory.write
  split_ifs
  · rw [mapGet_mapErase_other m h]
  · rw [mapGet_mapSet_other m b h]

theorem Memory.mem_write {m : Memory} {k : Nat} {b : Byte} {e : Host.Cell} (h : e ∈ m.write k b) :
    e = (k, b) ∨ e ∈ m := by
  unfold Memory.write at h
  split_ifs at h
  · exact .inr (mem_mapErase h)
  · exact mem_mapSet h

/-- Every write keeps the canonical form. -/
theorem Memory.write_wf {m : Memory} (h : m.wf) (k : Nat) (b : Byte) : (m.write k b).wf := by
  unfold Memory.write
  split_ifs with hb
  · exact ⟨mapSorted_mapErase h.1 k, fun e he => h.2 e (mem_mapErase he)⟩
  · refine ⟨mapSorted_mapSet h.1 k b, fun e he => ?_⟩
    rcases mem_mapSet he with rfl | he
    · exact hb
    · exact h.2 e he

/-- Equal contents are equal data: two canonical stores that read alike are the same list. -/
theorem Memory.eq_of_read_eq {m n : Memory} (hm : m.wf) (hn : n.wf) (h : ∀ k, m.read k = n.read k) : m = n := by
  have key : ∀ {m n : Memory}, m.wf → n.wf → (∀ k, m.read k = n.read k) → ∀ e ∈ m, e ∈ n := by
    intro m n hm hn h e he
    have h1 : mapGet m e.1 = some e.2 := mapGet_of_mem hm.1 (by simpa using he)
    have h2 := h e.1
    rw [Memory.read, h1, Option.getD_some, Memory.read] at h2
    cases h3 : mapGet n e.1 with
    | none => exact absurd (by simpa [h3] using h2) (hm.2 e he)
    | some v =>
      rw [h3, Option.getD_some] at h2
      have := mem_of_mapGet h3
      rw [← h2] at this
      simpa using this
  have hnd : ∀ {m : Memory}, m.wf → m.Nodup := fun hm =>
    hm.1.imp fun {a b} hlt heq => by
      rw [heq] at hlt
      exact Nat.lt_irrefl _ hlt
  have hp : m.Perm n := (List.perm_ext_iff_of_nodup (hnd hm) (hnd hn)).mpr fun e =>
    ⟨key hm hn h e, key hn hm (fun k => (h k).symm) e⟩
  exact hp.eq_of_pairwise (fun a b _ _ hab hba => absurd hab (Nat.lt_asymm hba)) hm.1 hn.1

end Sys2Proof.Machine
end

