-- ==== Sys2Proof/Laws/Ops.lean ====
section
/-! SUPPORT. What each shared operation over memory, ports, stack and IVT can do, said once: which fields an outcome
may differ in (`…_ends`), the value of a read (`…_bound`, `…_of_holds`), and the bytes of a write. -/

namespace Sys2Proof.Machine

variable {α β : Type}

/-! ## Outcomes -/

/-- Every outcome's state meets `P`. -/
def Res.Ends (P : State → Prop) : Res α → Prop
  | .ok _ s => P s
  | .raise _ s => P s
  | .fatal _ s => P s

theorem Res.Ends.imp {P Q : State → Prop} {m : Res α} (h : m.Ends P) (hpq : ∀ s, P s → Q s) : m.Ends Q := by
  cases m <;> exact hpq _ h

theorem Res.Ends.bind {P Q : State → Prop} {m : Res α} {f : α → State → Res β} (h : m.Ends P)
    (hpq : ∀ s, P s → Q s) (hf : ∀ v s, m = .ok v s → P s → (f v s).Ends Q) : (m.bind f).Ends Q := by
  cases m with
  | ok v s => exact hf v s rfl h
  | raise k s => exact hpq _ h
  | fatal r s => exact hpq _ h

@[simp] theorem Res.bind_ok (v : α) (s : State) (f : α → State → Res β) : (Res.ok v s).bind f = f v s := rfl
@[simp] theorem Res.bind_raise (k : FaultKind) (s : State) (f : α → State → Res β) :
    (Res.raise k s).bind f = .raise k s := rfl
@[simp] theorem Res.bind_fatal (r : FatalReason) (s : State) (f : α → State → Res β) :
    (Res.fatal r s).bind f = .fatal r s := rfl

/-- A sequence that completes completed in both parts. -/
theorem Res.bind_eq_ok {m : Res α} {f : α → State → Res β} {w : β} {t : State} (h : m.bind f = .ok w t) :
    ∃ v s, m = .ok v s ∧ f v s = .ok w t := by
  cases m with
  | ok v s => exact ⟨v, s, rfl, h⟩
  | raise k s => cases h
  | fatal r s => cases h

/-! ## Little-endian bytes -/

@[simp] theorem length_leBytes (n v : Nat) : (leBytes n v).length = n := by
  induction n generalizing v with
  | zero => rfl
  | succ n ih => simp [leBytes, ih]

theorem leValue_lt (l : List Byte) : leValue l < 256 ^ l.length := by
  induction l with
  | nil => simp [leValue]
  | cons b l ih =>
    have := b.isLt
    simp only [leValue, List.length_cons, Nat.pow_succ]
    omega

/-- Reading back the low bytes of a number gives it modulo 256^n (20_memory.md R64). -/
theorem leValue_leBytes (n v : Nat) : leValue (leBytes n v) = v % 256 ^ n := by
  induction n generalizing v with
  | zero => simp [leBytes, leValue, Nat.mod_one]
  | succ n ih =>
    rw [leBytes, leValue, ih, BitVec.toNat_ofNat, Nat.pow_succ 256 n, Nat.mul_comm (256 ^ n) 256, Nat.mod_mul]

/-! ## Addresses -/

theorem toNat_pageOf (a : Addr) : (pageOf a).toNat = a.toNat / 4096 := by
  have := a.isLt
  simp only [pageOf, BitVec.extractLsb'_toNat, Nat.shiftRight_eq_div_pow]
  omega

theorem toNat_offsetOf (a : Addr) : (offsetOf a).toNat = a.toNat % 4096 := by
  simp [offsetOf]

theorem addr_succ (a : Addr) (k : Nat) : a + 1#32 + BitVec.ofNat 32 k = a + BitVec.ofNat 32 (k + 1) := by
  apply BitVec.eq_of_toNat_eq
  simp only [BitVec.toNat_add, BitVec.toNat_ofNat]
  have : (2 : Nat) ^ 32 = 4294967296 := rfl
  omega

@[simp] theorem addr_zero (a : Addr) : a + BitVec.ofNat 32 0 = a := by simp

/-! ## Translation -/

theorem translate_eq_port {s : State} {a : Addr} {k : Nat} (h : translate s a = .port k) :
    pageOf a = s.cfg.devicePage ∧ k = a.toNat % 4096 := by
  unfold translate at h
  split_ifs at h with hp
  · rw [toNat_offsetOf] at h
    exact ⟨hp, by injection h with h; exact h.symm⟩
  · split at h <;> cases h

theorem translate_eq_cell {s : State} {a : Addr} {key : Nat} (h : translate s a = .cell key) :
    pageOf a ≠ s.cfg.devicePage ∧
      ∃ f, mapGet s.pt (pageOf a).toNat = some f ∧ key = 4096 * f + a.toNat % 4096 := by
  unfold translate at h
  split_ifs at h with hp
  refine ⟨hp, ?_⟩
  split at h
  · rename_i f hf
    refine ⟨f, hf, ?_⟩
    injection h with h
    rw [← h, cellKey, toNat_offsetOf]
  · cases h

theorem translate_eq_unmapped {s : State} {a : Addr} (h : translate s a = .unmapped) :
    pageOf a ≠ s.cfg.devicePage ∧ mapGet s.pt (pageOf a).toNat = none := by
  unfold translate at h
  split_ifs at h with hp
  refine ⟨hp, ?_⟩
  split at h
  · cases h
  · assumption

theorem peek_eq_some {s : State} {a : Addr} {b : Byte} (h : peek s a = some b) :
    ∃ key, translate s a = .cell key ∧ s.frames.read key = b := by
  unfold peek at h
  split at h
  · rename_i key hk
    exact ⟨key, hk, by simpa using h⟩
  · cases h

theorem peek_isSome {s : State} {a : Addr} (h : (peek s a).isSome = true) : ∃ key, translate s a = .cell key := by
  obtain ⟨b, hb⟩ := Option.isSome_iff_exists.mp h
  exact (peek_eq_some hb).imp fun _ hk => hk.1

theorem peek_cell {s : State} {a : Addr} {key : Nat} (h : translate s a = .cell key) :
    peek s a = some (s.frames.read key) := by
  simp [peek, h]

/-- Two of 4096 consecutive addresses never reach the same cell, whatever frames their pages map to. -/
theorem translate_cell_injective {s : State} {a : Addr} {i j key : Nat} (hij : i < j) (hj : j < 4096)
    (hi : translate s (a + BitVec.ofNat 32 i) = .cell key) : translate s (a + BitVec.ofNat 32 j) ≠ .cell key := by
  intro hk
  obtain ⟨-, f, -, hf⟩ := translate_eq_cell hi
  obtain ⟨-, g, -, hg⟩ := translate_eq_cell hk
  simp only [BitVec.toNat_add, BitVec.toNat_ofNat] at hf hg
  omega

/-! ## Ports and single bytes -/

/-- `t` is `s` but for what port reads and writes leave: the draw counter and the call record. -/
def PortsOnly (s t : State) : Prop := ∃ d l, t = { s with draws := d, portLog := l }

/-- `t` is `s` but for stored bytes and the record of port calls. -/
def StoresOnly (s t : State) : Prop := ∃ f l, t = { s with frames := f, portLog := l }

theorem PortsOnly.refl (s : State) : PortsOnly s s := ⟨s.draws, s.portLog, rfl⟩

theorem PortsOnly.trans {s t u : State} (h : PortsOnly s t) (g : PortsOnly t u) : PortsOnly s u := by
  obtain ⟨d, l, rfl⟩ := h
  obtain ⟨e, m, rfl⟩ := g
  exact ⟨e, m, rfl⟩

theorem StoresOnly.refl (s : State) : StoresOnly s s := ⟨s.frames, s.portLog, rfl⟩

theorem StoresOnly.trans {s t u : State} (h : StoresOnly s t) (g : StoresOnly t u) : StoresOnly s u := by
  obtain ⟨d, l, rfl⟩ := h
  obtain ⟨e, m, rfl⟩ := g
  exact ⟨e, m, rfl⟩

theorem load_cell {s : State} {a : Addr} {key : Nat} (h : translate s a = .cell key) :
    load a s = .ok (s.frames.read key) s := by
  simp [load, h]

theorem load_unmapped {s : State} {a : Addr} (h : translate s a = .unmapped) : load a s = .raise .pageFault s := by
  simp [load, h]

theorem load_port {s : State} {a : Addr} {k : Nat} (h : translate s a = .port k) : load a s = portRead k s := by
  simp [load, h]

theorem store_cell {s : State} {a : Addr} {b : Byte} {key : Nat} (h : translate s a = .cell key) :
    store a b s = .ok () { s with frames := s.frames.write key b } := by
  simp [store, h]

theorem store_unmapped {s : State} {a : Addr} {b : Byte} (h : translate s a = .unmapped) :
    store a b s = .raise .pageFault s := by
  simp [store, h]

theorem store_port {s : State} {a : Addr} {b : Byte} {k : Nat} (h : translate s a = .port k) :
    store a b s = portWrite k b s := by
  simp [store, h]

theorem load_ends (a : Addr) (s : State) : (load a s).Ends (PortsOnly s) := by
  unfold load portRead
  split
  · split_ifs
    · exact ⟨_, _, rfl⟩
    · exact .refl s
  · exact .refl s
  · exact .refl s

theorem store_ends (a : Addr) (b : Byte) (s : State) : (store a b s).Ends (StoresOnly s) := by
  unfold store portWrite
  split
  · split_ifs
    · exact ⟨_, _, rfl⟩
    · exact .refl s
  · exact ⟨_, _, rfl⟩
  · exact .refl s

theorem load_of_peek {s : State} {a : Addr} {b : Byte} (h : peek s a = some b) : load a s = .ok b s := by
  obtain ⟨key, hk, rfl⟩ := peek_eq_some h
  exact load_cell hk

/-! ## Multi-byte access -/

theorem memRead_ends (a : Addr) (n : Nat) (s : State) : (memRead a n s).Ends (PortsOnly s) := by
  induction n generalizing a s with
  | zero => exact .refl s
  | succ n ih =>
    refine (load_ends a s).bind (fun _ h => h) fun b t _ ht => ?_
    refine ((ih (a + 1#32) t).imp fun _ h => ht.trans h).bind (fun _ h => h) fun v u _ hu => hu

theorem memWrite_ends (a : Addr) (n v : Nat) (s : State) : (memWrite a n v s).Ends (StoresOnly s) := by
  induction n generalizing a v s with
  | zero => exact .refl s
  | succ n ih =>
    refine (store_ends a _ s).bind (fun _ h => h) fun _ t _ ht => ?_
    exact (ih (a + 1#32) (v / 256) t).imp fun _ h => ht.trans h

/-- A read of `n` bytes is below 256^n. -/
theorem memRead_bound {a : Addr} {n v : Nat} {s t : State} (h : memRead a n s = .ok v t) : v < 256 ^ n := by
  induction n generalizing a v s with
  | zero =>
    cases h
    simp
  | succ n ih =>
    obtain ⟨b, s', -, h⟩ := Res.bind_eq_ok h
    obtain ⟨w, u, hw, h⟩ := Res.bind_eq_ok h
    cases h
    have := ih hw
    have := b.isLt
    rw [Nat.pow_succ]
    omega

/-- A read of `m + n` bytes is a read of `m` bytes and then one of `n`. -/
theorem memRead_append (a : Addr) (m n : Nat) (s : State) :
    memRead a (m + n) s = (memRead a m s).bind fun v t =>
      (memRead (a + BitVec.ofNat 32 m) n t).bind fun u w => .ok (v + 256 ^ m * u) w := by
  induction m generalizing a s with
  | zero =>
    simp only [Nat.zero_add, memRead, Res.bind_ok, addr_zero]
    cases memRead a n s <;> simp
  | succ m ih =>
    rw [Nat.add_right_comm]
    simp only [memRead, ih]
    cases load a s with
    | ok b t =>
      simp only [Res.bind_ok]
      cases memRead (a + 1#32) m t with
      | ok v t =>
        simp only [Res.bind_ok, addr_succ]
        cases memRead (a + BitVec.ofNat 32 (m + 1)) n t with
        | ok u w =>
          simp only [Res.bind_ok, Nat.pow_succ]
          congr 1
          ring
        | raise k s => rfl
        | fatal r s => rfl
      | raise k s => rfl
      | fatal r s => rfl
    | raise k s => rfl
    | fatal r s => rfl

/-- A write of `m + n` bytes is a write of `m` bytes and then one of the next `n`. -/
theorem memWrite_append (a : Addr) (m n v : Nat) (s : State) :
    memWrite a (m + n) v s =
      (memWrite a m v s).bind fun _ t => memWrite (a + BitVec.ofNat 32 m) n (v / 256 ^ m) t := by
  induction m generalizing a v s with
  | zero => simp [memWrite]
  | succ m ih =>
    rw [Nat.add_right_comm]
    simp only [memWrite, ih]
    cases store a (BitVec.ofNat 8 v) s with
    | ok b t => simp only [Res.bind_ok, addr_succ, Nat.div_div_eq_div_mul, Nat.pow_succ']
    | raise k s => rfl
    | fatal r s => rfl

/-- Bytes that stand in memory are read as they stand, and nothing changes. -/
theorem memRead_of_holds {s : State} {a : Addr} {l : List Byte} (h : HoldsBytes s a l) :
    memRead a l.length s = .ok (leValue l) s := by
  induction l generalizing a with
  | nil => rfl
  | cons b l ih =>
    have hb : peek s a = some b := by simpa using h 0 (by simp)
    have hl : HoldsBytes s (a + 1#32) l := fun k hk => by
      rw [addr_succ]
      simpa using h (k + 1) (by simpa using hk)
    simp [memRead, load_of_peek hb, ih hl, leValue]

/-- A read whose first `i` bytes succeed and whose next address is unmapped faults with what those reads left. -/
theorem memRead_fault {a : Addr} {i n v : Nat} {s t : State} (hi : i < n) (h : memRead a i s = .ok v t)
    (hf : translate t (a + BitVec.ofNat 32 i) = .unmapped) : memRead a n s = .raise .pageFault t := by
  induction i generalizing a n v s with
  | zero =>
    cases h
    obtain ⟨n, rfl⟩ : ∃ k, n = k + 1 := ⟨n - 1, by omega⟩
    simp only [addr_zero] at hf
    simp [memRead, load_unmapped hf]
  | succ i ih =>
    obtain ⟨n, rfl⟩ : ∃ k, n = k + 1 := ⟨n - 1, by omega⟩
    obtain ⟨b, u, hb, h⟩ := Res.bind_eq_ok h
    obtain ⟨w, t', hw, h⟩ := Res.bind_eq_ok h
    cases h
    rw [← addr_succ] at hf
    simp [memRead, hb, ih (Nat.lt_of_succ_lt_succ hi) hw hf]

/-- As `memRead_fault`, at a device-page byte with no port. -/
theorem memRead_noPort {a : Addr} {i n v k : Nat} {s t : State} (hi : i < n) (h : memRead a i s = .ok v t)
    (hf : translate t (a + BitVec.ofNat 32 i) = .port k) (hk : t.ports ≤ k) :
    memRead a n s = .fatal .noPort t := by
  induction i generalizing a n v s with
  | zero =>
    cases h
    obtain ⟨n, rfl⟩ : ∃ k, n = k + 1 := ⟨n - 1, by omega⟩
    simp only [addr_zero] at hf
    simp [memRead, load_port hf, portRead, Nat.not_lt.mpr hk]
  | succ i ih =>
    obtain ⟨n, rfl⟩ : ∃ k, n = k + 1 := ⟨n - 1, by omega⟩
    obtain ⟨b, u, hb, h⟩ := Res.bind_eq_ok h
    obtain ⟨w, t', hw, h⟩ := Res.bind_eq_ok h
    cases h
    rw [← addr_succ] at hf
    simp [memRead, hb, ih (Nat.lt_of_succ_lt_succ hi) hw hf]

/-- A write whose first `i` bytes succeed and whose next address is unmapped faults, and those bytes stay. -/
theorem memWrite_fault {a : Addr} {i n v : Nat} {s t : State} (hi : i < n) (h : memWrite a i v s = .ok () t)
    (hf : translate t (a + BitVec.ofNat 32 i) = .unmapped) : memWrite a n v s = .raise .pageFault t := by
  induction i generalizing a n v s with
  | zero =>
    cases h
    obtain ⟨n, rfl⟩ : ∃ k, n = k + 1 := ⟨n - 1, by omega⟩
    simp only [addr_zero] at hf
    simp [memWrite, store_unmapped hf]
  | succ i ih =>
    obtain ⟨n, rfl⟩ : ∃ k, n = k + 1 := ⟨n - 1, by omega⟩
    obtain ⟨b, u, hb, h⟩ := Res.bind_eq_ok h
    rw [← addr_succ] at hf
    simp [memWrite, hb, ih (Nat.lt_of_succ_lt_succ hi) h hf]

/-- As `memWrite_fault`, at a device-page byte with no port. -/
theorem memWrite_noPort {a : Addr} {i n v k : Nat} {s t : State} (hi : i < n) (h : memWrite a i v s = .ok () t)
    (hf : translate t (a + BitVec.ofNat 32 i) = .port k) (hk : t.ports ≤ k) :
    memWrite a n v s = .fatal .noPort t := by
  induction i generalizing a n v s with
  | zero =>
    cases h
    obtain ⟨n, rfl⟩ : ∃ k, n = k + 1 := ⟨n - 1, by omega⟩
    simp only [addr_zero] at hf
    simp [memWrite, store_port hf, portWrite, Nat.not_lt.mpr hk]
  | succ i ih =>
    obtain ⟨n, rfl⟩ : ∃ k, n = k + 1 := ⟨n - 1, by omega⟩
    obtain ⟨b, u, hb, h⟩ := Res.bind_eq_ok h
    rw [← addr_succ] at hf
    simp [memWrite, hb, ih (Nat.lt_of_succ_lt_succ hi) h hf]

theorem InMemory.tail {s : State} {a : Addr} {n : Nat} (h : InMemory s a (n + 1)) : InMemory s (a + 1#32) n :=
  fun k hk => by
    rw [addr_succ]
    exact h (k + 1) (by omega)

theorem HoldsBytes.cons {s : State} {a : Addr} {b : Byte} {l : List Byte} (hb : peek s a = some b)
    (h : HoldsBytes s (a + 1#32) l) : HoldsBytes s a (b :: l) := fun k hk => by
  cases k with
  | zero => simpa using hb
  | succ k =>
    rw [← addr_succ]
    simpa using h k (by simpa using hk)

/-- A write to mapped memory completes, changes the frame store alone, leaves the value's bytes at its addresses, and
every byte apart from them as it was. -/
theorem memWrite_inMemory {n : Nat} (hn : n ≤ 4096) {s : State} {a : Addr} (v : Nat) (h : InMemory s a n) :
    ∃ f, memWrite a n v s = .ok () { s with frames := f } ∧
      HoldsBytes { s with frames := f } a (leBytes n v) ∧
      ∀ b, Apart s a n b → peek { s with frames := f } b = peek s b := by
  induction n generalizing a v s with
  | zero => exact ⟨s.frames, rfl, fun k hk => absurd hk (by simp [leBytes]), fun _ _ => rfl⟩
  | succ n ih =>
    obtain ⟨key, hkey⟩ : ∃ key, translate s a = .cell key := peek_isSome (by simpa using h 0 (by omega))
    let s1 : State := { s with frames := s.frames.write key (BitVec.ofNat 8 v) }
    have htr : ∀ b, translate s1 b = translate s b := fun _ => rfl
    have h1 : InMemory s1 (a + 1#32) n := fun k hk => by
      obtain ⟨key', hk'⟩ := peek_isSome (h.tail k hk)
      rw [peek_cell (s := s1) (key := key') hk']
      rfl
    obtain ⟨f, hf, hb, hr⟩ := ih (by omega) (v / 256) h1
    have hap : Apart s1 (a + 1#32) n a := fun k hk => by
      rw [addr_succ, htr, htr, hkey]
      exact fun he => translate_cell_injective (s := s) (a := a) (i := 0) (j := k + 1) (by omega) (by omega)
        (by simpa using hkey) he.symm
    refine ⟨f, ?_, HoldsBytes.cons ?_ hb, fun b hb' => ?_⟩
    · rw [memWrite, store_cell hkey, Res.bind_ok]
      exact hf
    · refine (hr a hap).trans ?_
      rw [peek_cell (s := s1) (key := key) hkey]
      exact congrArg some (Memory.read_write_same _ _ _)
    · have h0 : translate s b ≠ .cell key := by
        have := hb' 0 (by omega)
        simpa [hkey] using this
      have hap' : Apart s1 (a + 1#32) n b := fun k hk => by
        rw [addr_succ, htr, htr]
        exact hb' (k + 1) (by omega)
      refine (hr b hap').trans ?_
      unfold peek
      rw [htr]
      cases hb2 : translate s b with
      | port k => rfl
      | unmapped => rfl
      | cell key' =>
        have hne : key' ≠ key := fun he => h0 (by rw [hb2, he])
        exact congrArg some (Memory.read_write_other _ _ hne)

/-- Wherever a store ends, only what its address reaches may have changed. -/
theorem store_apart (a : Addr) (b : Byte) (s : State) :
    (store a b s).Ends fun t => StoresOnly s t ∧ ∀ c, translate s c ≠ translate s a → peek t c = peek s c := by
  unfold store portWrite
  cases h : translate s a with
  | port k => dsimp only; split_ifs <;> exact ⟨⟨_, _, rfl⟩, fun _ _ => rfl⟩
  | unmapped => exact ⟨.refl s, fun _ _ => rfl⟩
  | cell key =>
    refine ⟨⟨_, _, rfl⟩, fun c hc => ?_⟩
    have htr : translate { s with frames := s.frames.write key b } c = translate s c := rfl
    unfold peek
    rw [htr]
    cases hk : translate s c with
    | port k => rfl
    | unmapped => rfl
    | cell key' =>
      have hne : key' ≠ key := fun he => hc (by rw [hk, he])
      exact congrArg some (Memory.read_write_other _ _ hne)

/-- Wherever a write ends, only what its addresses reach may have changed. -/
theorem memWrite_apart (a : Addr) (n v : Nat) (s : State) :
    (memWrite a n v s).Ends fun t => StoresOnly s t ∧ ∀ b, Apart s a n b → peek t b = peek s b := by
  induction n generalizing a v s with
  | zero => exact ⟨.refl s, fun _ _ => rfl⟩
  | succ n ih =>
    have h0 : ∀ b, Apart s a (n + 1) b → translate s b ≠ translate s a := fun b hb => by
      simpa using hb 0 (by omega)
    refine (store_apart a _ s).bind (fun t ht => ⟨ht.1, fun b hb => ht.2 b (h0 b hb)⟩) fun _ t _ ht => ?_
    refine (ih (a + 1#32) (v / 256) t).imp fun u hu => ⟨ht.1.trans hu.1, fun b hb => ?_⟩
    obtain ⟨⟨_, _, rfl⟩, hp⟩ := ht
    refine (hu.2 b fun k hk => ?_).trans (hp b (h0 b hb))
    rw [addr_succ]
    exact hb (k + 1) (by omega)

/-! ## The invariants of memory -/

/-- A store goes to no cell of DEVICE_FRAME and keeps the canonical form. -/
theorem store_framesFit {a : Addr} {b : Byte} {s : State} (hp : s.pageTableFits) (hf : s.framesFit) :
    (store a b s).Ends State.framesFit := by
  cases h : translate s a with
  | port k =>
    rw [store_port h]
    unfold portWrite
    split_ifs <;> exact hf
  | unmapped =>
    rw [store_unmapped h]
    exact hf
  | cell key =>
    rw [store_cell h]
    obtain ⟨-, f, hpt, hkey⟩ := translate_eq_cell h
    refine ⟨Memory.write_wf hf.1 _ _, fun e he => ?_⟩
    rcases Memory.mem_write he with rfl | he
    · have := (hp.2 _ (mem_of_mapGet hpt)).2.1
      show key / 4096 ≠ _
      rw [show key / 4096 = f by omega]
      exact this
    · exact hf.2 e he

theorem memWrite_framesFit {a : Addr} {n v : Nat} {s : State} (hp : s.pageTableFits) (hf : s.framesFit) :
    (memWrite a n v s).Ends State.framesFit := by
  induction n generalizing a v s with
  | zero => exact hf
  | succ n ih =>
    refine (store_framesFit hp hf).bind (fun _ h => h) fun _ t ht hft => ih ?_ hft
    have := store_ends a (BitVec.ofNat 8 v) s
    rw [ht] at this
    obtain ⟨f, l, rfl⟩ := this
    exact hp

/-! ## Stack and IVT -/

/-- `t` is `s` but for what stack and IVT accesses leave: stack_pos, pc, stored bytes, and port calls. -/
def AccessOnly (s t : State) : Prop :=
  ∃ p q f d l, t = { s with stackPos := p, pc := q, frames := f, draws := d, portLog := l }

theorem AccessOnly.refl (s : State) : AccessOnly s s :=
  ⟨s.stackPos, s.pc, s.frames, s.draws, s.portLog, rfl⟩

theorem AccessOnly.trans {s t u : State} (h : AccessOnly s t) (g : AccessOnly t u) : AccessOnly s u := by
  obtain ⟨_, _, _, _, _, rfl⟩ := h
  obtain ⟨_, _, _, _, _, rfl⟩ := g
  exact ⟨_, _, _, _, _, rfl⟩

theorem PortsOnly.access {s t : State} (h : PortsOnly s t) : AccessOnly s t := by
  obtain ⟨_, _, rfl⟩ := h
  exact ⟨_, _, _, _, _, rfl⟩

theorem StoresOnly.access {s t : State} (h : StoresOnly s t) : AccessOnly s t := by
  obtain ⟨_, _, rfl⟩ := h
  exact ⟨_, _, _, _, _, rfl⟩

theorem push_ends (n v : Nat) (s : State) : (push n v s).Ends (AccessOnly s) := by
  unfold push
  split_ifs
  · exact (memWrite_ends _ n v _).imp fun _ h =>
      AccessOnly.trans (t := { s with stackPos := s.stackPos + BitVec.ofNat 32 n }) ⟨_, _, _, _, _, rfl⟩ h.access
  · exact .refl s

theorem pop_ends (n : Nat) (s : State) : (pop n s).Ends (AccessOnly s) := by
  unfold pop
  split_ifs
  · refine ((memRead_ends _ n s).imp fun _ h => h.access).bind (fun _ h => h) fun v t _ ht => ?_
    exact ht.trans ⟨_, _, _, _, _, rfl⟩
  · exact .refl s

theorem push_noStack {n v : Nat} {s : State} (h : s.stackBaseValid = false) :
    push n v s = .fatal .unsetBase s := by
  simp [push, h]

/-- Wherever a push with a stack ends, stack_pos has gone up, and only what the slot reaches may have changed. -/
theorem push_apart {n : Nat} (v : Nat) {s : State} (h : s.stackBaseValid = true) :
    (push n v s).Ends fun t => (∃ f l, t = { s with
      stackPos := s.stackPos + BitVec.ofNat 32 n, frames := f, portLog := l }) ∧
      ∀ b, Apart s (s.stackBase - (s.stackPos + BitVec.ofNat 32 n)) n b → peek t b = peek s b := by
  unfold push
  rw [if_pos h]
  refine (memWrite_apart _ n v _).imp fun t ht => ⟨?_, ht.2⟩
  obtain ⟨f, l, rfl⟩ := ht.1
  exact ⟨f, l, rfl⟩

theorem pop_noStack {n : Nat} {s : State} (h : s.stackBaseValid = false) : pop n s = .fatal .unsetBase s := by
  simp [pop, h]

/-- A push that finds a stack and mapped memory completes as the rule says (20_memory.md R76). -/
theorem push_pushed {n : Nat} (hn : n ≤ 4096) (v : Nat) {s : State} (h : CanPush n s) :
    ∃ t, push n v s = .ok () t ∧ Pushed n v s t := by
  obtain ⟨f, hf, hb, hr⟩ := memWrite_inMemory hn v
    (s := { s with stackPos := s.stackPos + BitVec.ofNat 32 n }) h.2
  refine ⟨{ s with stackPos := s.stackPos + BitVec.ofNat 32 n, frames := f }, ?_, rfl, hb, hr⟩
  unfold push
  rw [if_pos h.1]
  exact hf

/-- A pop of bytes that stand in memory gives them and takes them off (20_memory.md R77). -/
theorem pop_of_holds {s : State} {l : List Byte} (hv : s.stackBaseValid = true)
    (h : HoldsBytes s (s.stackBase - s.stackPos) l) :
    pop l.length s = .ok (leValue l) { s with stackPos := s.stackPos - BitVec.ofNat 32 l.length } := by
  have : memRead (stackSlot s) l.length s = .ok (leValue l) s := memRead_of_holds h
  simp [pop, hv, this]

theorem pop_bound {n v : Nat} {s t : State} (h : pop n s = .ok v t) : v < 256 ^ n := by
  unfold pop at h
  split_ifs at h
  obtain ⟨w, u, hw, h⟩ := Res.bind_eq_ok h
  cases h
  exact memRead_bound hw

theorem pushPcAndJump_ends (a : Addr) (s : State) : (pushPcAndJump a s).Ends (AccessOnly s) :=
  (push_ends 4 s.pc.toNat s).bind (fun _ h => h) fun _ _ _ ht => ht.trans ⟨_, _, _, _, _, rfl⟩

theorem returnPc_ends (s : State) : (returnPc s).Ends (AccessOnly s) :=
  (pop_ends 4 s).bind (fun _ h => h) fun _ _ _ ht => ht.trans ⟨_, _, _, _, _, rfl⟩

theorem findInt_ends (id : Nat) (s : State) : (findInt id s).Ends (AccessOnly s) := by
  unfold findInt
  split_ifs
  · refine ((memRead_ends _ 4 s).imp fun _ h => h.access).bind (fun _ h => h) fun t u _ hu => ?_
    split_ifs <;> exact hu
  · exact .refl s

theorem registerInt_ends (id : Nat) (t : Addr) (s : State) : (registerInt id t s).Ends (AccessOnly s) := by
  unfold registerInt
  split_ifs
  · exact .refl s
  · exact (memWrite_ends _ 4 _ s).imp fun _ h => h.access
  · exact .refl s

end Sys2Proof.Machine
end

