-- ==== Sys2Proof/Laws/Pages.lean ====
section
/-! SUPPORT. What the page-table operations can do, said once (20_memory.md section 3). -/

namespace Sys2Proof.Machine

/-! ## The lowest free frame -/

/-- The search stops at the first unused number, or at the end of its fuel. -/
theorem firstUnused_spec (used : List Nat) (fuel f : Nat) :
    f ≤ firstUnused used fuel f ∧ (∀ g, f ≤ g → g < firstUnused used fuel f → g ∈ used) ∧
      (firstUnused used fuel f ∈ used → firstUnused used fuel f = f + fuel) := by
  induction fuel generalizing f with
  | zero => exact ⟨le_rfl, fun g h1 h2 => absurd h2 (by simp only [firstUnused]; omega), fun _ => rfl⟩
  | succ n ih =>
    simp only [firstUnused]
    split_ifs with h
    · obtain ⟨ha, hb, hc⟩ := ih (f + 1)
      refine ⟨by omega, fun g h1 h2 => ?_, fun hm => by rw [hc hm]; omega⟩
      rcases Nat.eq_or_lt_of_le h1 with rfl | h1
      · exact h
      · exact hb g h1 h2
    · exact ⟨le_rfl, fun g h1 h2 => by omega, fun hm => absurd hm h⟩

/-- Among one more numbers than there are used frames, one is unused. -/
theorem lowestFree_not_used (s : State) : lowestFree s ∉ usedFrames s := by
  intro hm
  obtain ⟨-, hb, hc⟩ := firstUnused_spec (usedFrames s) (usedFrames s).length 0
  have he : lowestFree s = (usedFrames s).length := (hc hm).trans (Nat.zero_add _)
  have hsub : Finset.range ((usedFrames s).length + 1) ⊆ (usedFrames s).toFinset := by
    intro g hg
    rw [List.mem_toFinset]
    rcases Nat.lt_succ_iff_lt_or_eq.mp (Finset.mem_range.mp hg) with hg | rfl
    · exact hb g (Nat.zero_le g) (by change g < lowestFree s; omega)
    · exact he ▸ hm
  have h1 := Finset.card_le_card hsub
  have h2 := List.toFinset_card_le (usedFrames s)
  rw [Finset.card_range] at h1
  omega

theorem lt_lowestFree_used {s : State} {g : Nat} (h : g < lowestFree s) : g ∈ usedFrames s :=
  (firstUnused_spec (usedFrames s) (usedFrames s).length 0).2.1 g (Nat.zero_le g) h

theorem beyondFrames_eq_false {s : State} {f : Nat} :
    beyondFrames s f = false ↔ ∀ n, s.cfg.numFrames = some n → f < n := by
  unfold beyondFrames
  cases s.cfg.numFrames <;> simp

/-! ## What an allocation may change -/

theorem allocatePage_ends (p : PageNo) (s : State) : (allocatePage p s).Ends fun t => ∃ m, t = { s with pt := m } := by
  unfold allocatePage
  split_ifs
  · exact ⟨_, rfl⟩
  · exact ⟨_, rfl⟩

theorem allocatePageAt_ends (p : PageNo) (f : Nat) (s : State) :
    (allocatePageAt p f s).Ends fun t => ∃ m, t = { s with pt := m } := by
  unfold allocatePageAt
  split_ifs <;> exact ⟨_, rfl⟩

theorem mapPage_pageTableFits {s : State} (p : PageNo) {f : Nat} (h : s.pageTableFits)
    (hd : f ≠ s.cfg.deviceFrame) (hb : beyondFrames s f = false) : (mapPage p f s).pageTableFits := by
  refine ⟨mapSorted_mapSet h.1 _ _, fun e he => ?_⟩
  rcases mem_mapSet he with rfl | he
  · exact ⟨p.isLt, hd, beyondFrames_eq_false.mp hb⟩
  · exact h.2 e he

theorem allocatePage_pageTableFits (p : PageNo) {s : State} (h : s.pageTableFits) :
    (allocatePage p s).Ends State.pageTableFits := by
  unfold allocatePage
  split_ifs with hb
  · exact h
  · have hu := lowestFree_not_used s
    simp only [usedFrames, List.mem_cons, not_or] at hu
    exact mapPage_pageTableFits p h hu.1 (by simpa using hb)

theorem allocatePageAt_pageTableFits (p : PageNo) (f : Nat) {s : State} (h : s.pageTableFits) :
    (allocatePageAt p f s).Ends State.pageTableFits := by
  unfold allocatePageAt
  split_ifs with hd hb
  · exact h
  · exact h
  · exact mapPage_pageTableFits p h hd (by simpa using hb)

theorem freePage_pageTableFits (p : PageNo) {s : State} (h : s.pageTableFits) : (freePage p s).pageTableFits :=
  ⟨mapSorted_mapErase h.1 _, fun e he => h.2 e (mem_mapErase he)⟩

end Sys2Proof.Machine
end

