-- ==== Sys2Proof/Laws/Boot.lean ====
section
/-! SUPPORT. What the host's mapping and flashing can do, said once (70_reset_and_hazards.md R253). -/

namespace Sys2Proof.Machine

theorem ensureMapped_ends (a : Addr) (s : State) :
    (ensureMapped a s).Ends fun t => ∃ m, t = { s with pt := m } := by
  unfold ensureMapped
  split
  · exact ⟨_, rfl⟩
  · exact allocatePage_ends _ s

theorem mapImage_ends (a : Addr) (l : List Byte) (s : State) :
    (mapImage a l s).Ends fun t => ∃ m, t = { s with pt := m } := by
  induction l generalizing a s with
  | nil => exact ⟨_, rfl⟩
  | cons b l ih =>
    refine (ensureMapped_ends a s).bind (fun _ h => h) fun _ t _ ht => (ih (a + 1#32) t).imp ?_
    obtain ⟨_, rfl⟩ := ht
    rintro _ ⟨_, rfl⟩
    exact ⟨_, rfl⟩

theorem flash_ends (a : Addr) (l : List Byte) (s : State) : (flash a l s).Ends (StoresOnly s) := by
  induction l generalizing a s with
  | nil => exact .refl s
  | cons b l ih =>
    exact (store_ends a b s).bind (fun _ h => h) fun _ t _ ht => (ih (a + 1#32) t).imp fun _ h => ht.trans h

/-- Mapping an image keeps the page table's invariant. -/
theorem mapImage_pageTableFits (a : Addr) (l : List Byte) {s : State} (h : s.pageTableFits) :
    (mapImage a l s).Ends State.pageTableFits := by
  induction l generalizing a s with
  | nil => exact h
  | cons b l ih =>
    refine Res.Ends.bind (P := State.pageTableFits) ?_ (fun _ h => h) fun _ t _ ht => ih _ ht
    unfold ensureMapped
    split
    · exact h
    · exact allocatePage_pageTableFits _ h

/-- Flashing keeps the frame store's invariant. -/
theorem flash_framesFit (a : Addr) (l : List Byte) {s : State} (hp : s.pageTableFits) (hf : s.framesFit) :
    (flash a l s).Ends State.framesFit := by
  induction l generalizing a s with
  | nil => exact hf
  | cons b l ih =>
    refine (store_framesFit hp hf).bind (fun _ h => h) fun _ t ht hft => ih _ ?_ hft
    have h := store_ends a b s
    rw [ht] at h
    obtain ⟨_, _, rfl⟩ := h
    exact hp

end Sys2Proof.Machine
end

