-- ==== Sys2Proof/Laws/Decode.lean ====
section
/-! SUPPORT. The bytes of opcodes and operand words, taken and put back. -/

namespace Sys2Proof

open Sys2Proof.Machine

/-! ## Opcodes -/

/-- The two bytes of an opcode, high byte first, assemble to it (30_encoding.md R95). -/
theorem opcodeOf_bytes (op : Opcode) :
    opcodeOf (BitVec.ofNat 8 (op.toNat / 256)) (BitVec.ofNat 8 op.toNat) = op := by
  apply BitVec.eq_of_toNat_eq
  have := op.isLt
  simp only [opcodeOf, BitVec.toNat_ofNat]
  omega

/-- A table reads back the opcode it gives to an action. -/
theorem action_of_opcodeFor {tbl : OpTable} {act : Action} {op : Opcode} (h : tbl.opcodeFor act = some op) :
    tbl.action op = some act := by
  unfold OpTable.opcodeFor at h
  obtain ⟨e, he, rfl⟩ := Option.map_eq_some_iff.mp h
  simpa using List.find?_some he

/-! ## Operand words -/

theorem takeWord_append {n : Nat} {l rest : List Byte} (h : l.length = n) :
    takeWord n (l ++ rest) = some (leValue l, rest) := by
  subst h
  simp [takeWord]

/-- The bytes of a word that fits are taken back as the word (30_encoding.md R96). -/
theorem takeWord_leBytes {n v : Nat} (h : v < 256 ^ n) (rest : List Byte) :
    takeWord n (leBytes n v ++ rest) = some (v, rest) := by
  rw [takeWord_append (length_leBytes n v), leValue_leBytes, Nat.mod_eq_of_lt h]

theorem takeWord_eq_some {n v : Nat} {l rest : List Byte} (h : takeWord n l = some (v, rest)) :
    ∃ w, w.length = n ∧ l = w ++ rest ∧ v = leValue w := by
  unfold takeWord at h
  split_ifs at h with hn
  simp only [Option.some.injEq, Prod.mk.injEq] at h
  exact ⟨l.take n, by simp [hn], by simp [← h.2], h.1.symm⟩

theorem takeWord_lt {n v : Nat} {l rest : List Byte} (h : takeWord n l = some (v, rest)) : v < 256 ^ n := by
  obtain ⟨w, hw, -, rfl⟩ := takeWord_eq_some h
  exact hw ▸ leValue_lt w

/-! ## Reduced operands fit their word -/

theorem fits_imm {bs : BlockSize} {v : Nat} (h : v < 2 ^ bs.width) : (Operand.imm (immOperand v)).fits bs = true := by
  simp only [Operand.fits, immOperand, BitVec.toNat_ofNat, decide_eq_true_eq]
  exact lt_of_le_of_lt (Nat.mod_le _ _) h

theorem fits_id {bs : BlockSize} {v : Nat} (h : v < 2 ^ bs.width) : (Operand.id (idOperand v)).fits bs = true :=
  fits_imm h

theorem fits_frame {bs : BlockSize} {v : Nat} (h : v < 2 ^ bs.width) :
    (Operand.frame (frameOperand v)).fits bs = true :=
  fits_imm h

theorem fits_addr {bs : BlockSize} {v : Nat} (h : v < 2 ^ bs.width) : (Operand.addr (addrOperand v)).fits bs = true := by
  simp only [Operand.fits, addrOperand, BitVec.toNat_ofNat, decide_eq_true_eq]
  exact lt_of_le_of_lt (Nat.mod_le _ _) h

theorem fits_tgt {bs : BlockSize} {v : Nat} (h : v < 2 ^ bs.width) : (Operand.tgt (addrOperand v)).fits bs = true :=
  fits_addr h

theorem fits_page {bs : BlockSize} {v : Nat} (h : v < 2 ^ bs.width) : (Operand.page (pageOperand v)).fits bs = true := by
  simp only [Operand.fits, pageOperand, BitVec.toNat_ofNat, decide_eq_true_eq]
  exact lt_of_le_of_lt (Nat.mod_le _ _) h

theorem fits_disp {bs : BlockSize} {v : Nat} (h : v < 2 ^ bs.width) :
    (Operand.disp (dispOperand bs v)).fits bs = true := by
  have hw : 2 ^ bs.width = 2 * 2 ^ (bs.width - 1) := by
    have := width_pos bs
    rw [← pow_succ', Nat.sub_add_cancel (by omega)]
  have hN : ((2 ^ (bs.width - 1) : Nat) : Int) = 2 ^ (bs.width - 1) := by norm_cast
  have hM : ((2 ^ bs.width : Nat) : Int) = 2 ^ bs.width := by norm_cast
  rw [Operand.fits, decide_eq_true_eq, dispOperand, sextW]
  split <;> constructor <;> omega

/-- Every instruction a format builds from words below 2^W meets `P`. -/
def Format.Builds (P : Instr → Prop) (n : Nat) : Format → Prop
  | .f0 i => P i
  | .f1 f => ∀ v < n, P (f v)
  | .f2 f => ∀ v < n, ∀ u < n, P (f v u)

/-- What the dispatch table builds from operand words of W bits is well formed. -/
theorem format_wellFormed (bs : BlockSize) (act : Action) :
    (act.format bs).Builds (fun i => i.wellFormed bs = true) (2 ^ bs.width) := by
  cases act <;> simp only [Action.format, Format.Builds, Instr.wellFormed, Instr.operands, List.all_cons, List.all_nil,
    Bool.and_true, Bool.and_eq_true] <;>
  first
    | exact fun v h => fits_imm h
    | exact fun v h => fits_addr h
    | exact fun v h => fits_disp h
    | exact fun v h => fits_page h
    | exact fun v h u g => ⟨fits_id h, fits_tgt g⟩
    | exact fun v h u g => ⟨fits_page h, fits_frame g⟩

/-- What the dispatch table builds is an instruction of the action it was built for. -/
theorem format_action (bs : BlockSize) (act : Action) (n : Nat) :
    (act.format bs).Builds (fun i => i.action = act) n := by
  cases act <;> simp [Action.format, Format.Builds, Instr.action]

end Sys2Proof
end

