-- ==== Sys2Proof/Laws/Router.lean ====
section
/-! SUPPORT. What the fault router can do, said once: it never raises, which fields it may change, and its three ends
(entered, missing vector, fault inside). -/

namespace Sys2Proof.Machine

variable {α : Type}

/-- The part does not raise a fault. -/
def Res.NoRaise : Res α → Prop
  | .raise _ _ => False
  | _ => True

/-- `t` is `s` but for what the router leaves: stack_pos, pc, its marker, stored bytes, and port calls. -/
def RouteOnly (s t : State) : Prop :=
  ∃ p q r f d l, t = { s with stackPos := p, pc := q, routing := r, frames := f, draws := d, portLog := l }

theorem RouteOnly.refl (s : State) : RouteOnly s s :=
  ⟨s.stackPos, s.pc, s.routing, s.frames, s.draws, s.portLog, rfl⟩

theorem RouteOnly.trans {s t u : State} (h : RouteOnly s t) (g : RouteOnly t u) : RouteOnly s u := by
  obtain ⟨_, _, _, _, _, _, rfl⟩ := h
  obtain ⟨_, _, _, _, _, _, rfl⟩ := g
  exact ⟨_, _, _, _, _, _, rfl⟩

theorem AccessOnly.route {s t : State} (h : AccessOnly s t) : RouteOnly s t := by
  obtain ⟨_, _, _, _, _, rfl⟩ := h
  exact ⟨_, _, _, _, _, _, rfl⟩

theorem PortsOnly.route {s t : State} (h : PortsOnly s t) : RouteOnly s t := h.access.route

/-! ## One transaction -/

theorem transaction_noRaise {v : Nat} {missing nested : State → Res Unit} {s : State}
    (hm : ∀ t, (missing t).NoRaise) (hn : ∀ t, (nested t).NoRaise) : (transaction v missing nested s).NoRaise := by
  unfold transaction
  split_ifs
  · split
    · split_ifs
      · exact hm _
      · split
        · trivial
        · exact hn _
        · trivial
    · exact hn _
    · trivial
  · trivial

theorem transaction_ends {v : Nat} {missing nested : State → Res Unit} {s : State}
    (hm : ∀ t, RouteOnly s t → (missing t).Ends (RouteOnly s))
    (hn : ∀ t, RouteOnly s t → (nested t).Ends (RouteOnly s)) :
    (transaction v missing nested s).Ends (RouteOnly s) := by
  have h0 : RouteOnly s (servicing v s) := ⟨_, _, _, _, _, _, rfl⟩
  unfold transaction
  split_ifs
  · have h1 := memRead_ends (ivtSlot v s) 4 (servicing v s)
    split
    · rename_i t u hu
      rw [hu] at h1
      have hu' : RouteOnly s u := h0.trans h1.route
      split_ifs
      · exact hm u hu'
      · have h2 := (pushPcAndJump_ends (BitVec.ofNat 32 t) u).imp fun _ h => AccessOnly.route h
        split
        · rename_i w hw
          rw [hw] at h2
          exact (hu'.trans h2).trans ⟨_, _, _, _, _, _, rfl⟩
        · rename_i w hw
          rw [hw] at h2
          exact hn w (hu'.trans h2)
        · rename_i w hw
          rw [hw] at h2
          exact hu'.trans h2
    · rename_i u hu
      rw [hu] at h1
      exact hn u (h0.trans h1.route)
    · rename_i u hu
      rw [hu] at h1
      exact h0.trans h1.route
  · exact h0

/-- A transaction that completes leaves the router's marker clear. -/
theorem transaction_idle {v : Nat} {missing nested : State → Res Unit} {s t : State}
    (hm : ∀ u t, missing u = .ok () t → t.routing = none) (hn : ∀ u t, nested u = .ok () t → t.routing = none)
    (h : transaction v missing nested s = .ok () t) : t.routing = none := by
  unfold transaction at h
  split_ifs at h
  split at h
  · split_ifs at h
    · exact hm _ _ h
    · split at h
      · cases h
        rfl
      · exact hn _ _ h
      · cases h
  · exact hn _ _ h
  · cases h

/-! ## The router -/

theorem routeLast_noRaise (s : State) : (routeLast s).NoRaise :=
  transaction_noRaise (fun _ => trivial) (fun _ => trivial)

theorem missingVector_noRaise (s : State) : (missingVector s).NoRaise := by
  unfold missingVector
  split
  · trivial
  · exact routeLast_noRaise s

theorem nestedFault_noRaise (s : State) : (nestedFault s).NoRaise := by
  unfold nestedFault
  split
  · trivial
  · exact routeLast_noRaise s

/-- The router never raises: a fault inside it is routed once more or fatal (60_exceptions.md R234). -/
theorem route_noRaise (k : FaultKind) (s : State) : (route k s).NoRaise := by
  unfold route
  split_ifs
  · exact routeLast_noRaise s
  · exact transaction_noRaise missingVector_noRaise nestedFault_noRaise

theorem routeLast_ends (s : State) : (routeLast s).Ends (RouteOnly s) :=
  transaction_ends (fun _ h => h) (fun _ h => h)

theorem missingVector_ends (s : State) : (missingVector s).Ends (RouteOnly s) := by
  unfold missingVector
  split
  · exact .refl s
  · exact routeLast_ends s

theorem nestedFault_ends (s : State) : (nestedFault s).Ends (RouteOnly s) := by
  unfold nestedFault
  split
  · exact .refl s
  · exact routeLast_ends s

theorem route_ends (k : FaultKind) (s : State) : (route k s).Ends (RouteOnly s) := by
  unfold route
  split_ifs
  · exact routeLast_ends s
  · exact transaction_ends (fun t h => (missingVector_ends t).imp fun _ g => h.trans g)
      (fun t h => (nestedFault_ends t).imp fun _ g => h.trans g)

theorem routeLast_idle {s t : State} (h : routeLast s = .ok () t) : t.routing = none :=
  transaction_idle (fun _ _ h => by cases h) (fun _ _ h => by cases h) h

theorem route_idle {k : FaultKind} {s t : State} (h : route k s = .ok () t) : t.routing = none := by
  unfold route at h
  split_ifs at h
  · exact routeLast_idle h
  · refine transaction_idle (fun u t h => ?_) (fun u t h => ?_) h
    · unfold missingVector at h
      split at h
      · cases h
      · exact routeLast_idle h
    · unfold nestedFault at h
      split at h
      · cases h
      · exact routeLast_idle h

/-! ## The end of a step -/

/-- What a step that ends in `settle` may have changed after the part it settles: the fields of `RouteOnly`, and `run`
for a fatal outcome. -/
def SettleOnly (s t : State) : Prop :=
  ∃ p q r f d l h, t = { s with stackPos := p, pc := q, routing := r, frames := f, draws := d, portLog := l, run := h }

theorem RouteOnly.settle {s t : State} (h : RouteOnly s t) : SettleOnly s t := by
  obtain ⟨_, _, _, _, _, _, rfl⟩ := h
  exact ⟨_, _, _, _, _, _, _, rfl⟩

theorem RouteOnly.haltFatal {s t : State} (h : RouteOnly s t) (r : FatalReason) :
    SettleOnly s (haltFatal r t) := by
  obtain ⟨_, _, _, _, _, _, rfl⟩ := h
  exact ⟨_, _, _, _, _, _, _, rfl⟩

@[simp] theorem settle_ok (s : State) : settle (.ok () s) = s := rfl
@[simp] theorem settle_fatal (r : FatalReason) (s : State) : settle (.fatal r s) = haltFatal r s := rfl
@[simp] theorem finish_ok (s : State) : finish (.ok () s) = .next s := rfl
@[simp] theorem finish_fatal (r : FatalReason) (s : State) : finish (.fatal r s) = .next (haltFatal r s) := rfl

theorem settle_raise (k : FaultKind) (s : State) : settle (.raise k s) = afterRoute (route k s) := rfl

theorem settle_raise_only (k : FaultKind) (s : State) : SettleOnly s (settle (.raise k s)) := by
  have h := route_ends k s
  have hn := route_noRaise k s
  rw [settle_raise]
  revert h hn
  cases route k s with
  | ok v t => exact fun h _ => h.settle
  | raise k t => exact fun _ h => h.elim
  | fatal r t => exact fun h _ => h.haltFatal r

theorem settle_raise_idle (k : FaultKind) (s : State) : (settle (.raise k s)).routing = none := by
  rw [settle_raise]
  cases h : route k s with
  | ok v t => exact route_idle h
  | raise k t => rfl
  | fatal r t => rfl

/-- Routing a fault halts fatally or leaves `run` as it was. -/
theorem settle_raise_run (k : FaultKind) (s : State) :
    (∃ r, (settle (.raise k s)).run = .haltedFatal r) ∨ (settle (.raise k s)).run = s.run := by
  have h := route_ends k s
  rw [settle_raise]
  revert h
  cases route k s with
  | ok v t =>
    rintro ⟨_, _, _, _, _, _, rfl⟩
    exact .inr rfl
  | raise k t => exact fun _ => .inl ⟨_, rfl⟩
  | fatal r t => exact fun _ => .inl ⟨_, rfl⟩

/-! ## The ends of a transaction -/

theorem route_eq_transaction {k : FaultKind} (hk : k ≠ .undefinedInterrupt) (s : State) :
    route k s = transaction (vectorOf k) missingVector nestedFault s := by
  cases k <;> first | exact absurd rfl hk | rfl

theorem route_undefined (s : State) : route .undefinedInterrupt s = routeLast s := rfl

theorem transaction_noIvt {v : Nat} {missing nested : State → Res Unit} {s : State} (h : s.ivtBaseValid = false) :
    transaction v missing nested s = .fatal .unsetBase (servicing v s) := by
  simp [transaction, h]

/-- The transaction over an entry that stands in memory. -/
theorem transaction_of_holds {v : Nat} {missing nested : State → Res Unit} {s : State} {l : List Byte}
    (hv : s.ivtBaseValid = true) (hl : l.length = 4) (h : HoldsBytes s (s.ivtBase + BitVec.ofNat 32 (4 * v)) l) :
    transaction v missing nested s =
      if leValue l = 0 then missing (servicing v s)
      else
        match pushPcAndJump (BitVec.ofNat 32 (leValue l)) (servicing v s) with
        | .ok _ s => .ok () { s with routing := none }
        | .raise _ s => nested s
        | .fatal r s => .fatal r s := by
  have h1 : memRead (ivtSlot v s) 4 (servicing v s) = .ok (leValue l) (servicing v s) := by
    rw [← hl]
    exact memRead_of_holds (s := servicing v s) h
  rw [transaction, if_pos hv, h1] <;> rfl

/-- A handler is entered: the entry stands in memory and is not 0, and the push finds its slot in memory. -/
theorem transaction_entered {v : Nat} {missing nested : State → Res Unit} {s : State} {l : List Byte}
    (hv : s.ivtBaseValid = true) (hl : l.length = 4) (h : HoldsBytes s (s.ivtBase + BitVec.ofNat 32 (4 * v)) l)
    (h0 : leValue l ≠ 0) (hp : CanPush 4 s) :
    ∃ t, Pushed 4 s.pc.toNat s t ∧
      transaction v missing nested s = .ok () { t with pc := BitVec.ofNat 32 (leValue l), routing := none } := by
  obtain ⟨t, ht, he, hb, hr⟩ := push_pushed (by norm_num) s.pc.toNat (s := servicing v s) hp
  refine ⟨{ t with routing := s.routing }, ⟨?_, hb, hr⟩, ?_⟩
  · rw [he]
    rfl
  · rw [transaction_of_holds hv hl h, if_neg h0]
    have hpc : (servicing v s).pc = s.pc := rfl
    simp only [pushPcAndJump, hpc, ht, Res.bind_ok]
    rfl

end Sys2Proof.Machine
end

