-- ==== Sys2Proof/Laws/Fetch.lean ====
section
/-! SUPPORT. What a fetch can do, said once, and the fetch of bytes that stand in memory. -/

namespace Sys2Proof.Machine

/-! ## Bytes in memory -/

theorem HoldsBytes.append_left {s : State} {a : Addr} {l m : List Byte} (h : HoldsBytes s a (l ++ m)) :
    HoldsBytes s a l := fun k hk => by
  rw [h k (by simp; omega), List.getElem?_append_left hk]

theorem HoldsBytes.append_right {s : State} {a : Addr} {l m : List Byte} (h : HoldsBytes s a (l ++ m)) :
    HoldsBytes s (a + BitVec.ofNat 32 l.length) m := fun k hk => by
  have := h (l.length + k) (by simp; omega)
  rw [List.getElem?_append_right (by omega), Nat.add_sub_cancel_left] at this
  rw [← this, BitVec.add_assoc, BitVec.ofNat_add]

/-! ## What a fetch may change -/

/-- `t` is `s` but for pc and what port reads leave. -/
def FetchOnly (s t : State) : Prop := ∃ p d l, t = { s with pc := p, draws := d, portLog := l }

theorem FetchOnly.refl (s : State) : FetchOnly s s := ⟨s.pc, s.draws, s.portLog, rfl⟩

theorem FetchOnly.trans {s t u : State} (h : FetchOnly s t) (g : FetchOnly t u) : FetchOnly s u := by
  obtain ⟨_, _, _, rfl⟩ := h
  obtain ⟨_, _, _, rfl⟩ := g
  exact ⟨_, _, _, rfl⟩

theorem PortsOnly.fetch {s t : State} (h : PortsOnly s t) : FetchOnly s t := by
  obtain ⟨_, _, rfl⟩ := h
  exact ⟨_, _, _, rfl⟩

theorem FetchOnly.advance (n : Nat) (s : State) : FetchOnly s (advance n s) := ⟨_, _, _, rfl⟩

theorem FetchOnly.bs {s t : State} (h : FetchOnly s t) : t.bs = s.bs := by
  obtain ⟨_, _, _, rfl⟩ := h
  rfl

theorem fetchOpcode_ends (s : State) : (fetchOpcode s).Ends (FetchOnly s) := by
  refine ((load_ends s.pc s).imp fun _ h => h.fetch).bind (fun _ h => h) fun b t _ ht => ?_
  refine ((load_ends (t.pc + 1#32) t).imp fun _ h => ht.trans h.fetch).bind (fun _ h => h) fun c u _ hu => ?_
  exact hu.trans (.advance 2 u)

theorem fetchWord_ends (s : State) : (fetchWord s).Ends (FetchOnly s) := by
  refine ((memRead_ends s.pc s.bs.bytes s).imp fun _ h => h.fetch).bind (fun _ h => h) fun v t _ ht => ?_
  exact ht.trans (.advance _ t)

theorem fetchOperands_ends (f : Format) (s : State) : (fetchOperands f s).Ends (FetchOnly s) := by
  cases f with
  | f0 i => exact .refl s
  | f1 f => exact (fetchWord_ends s).bind (fun _ h => h) fun v t _ ht => ht
  | f2 f =>
    refine (fetchWord_ends s).bind (fun _ h => h) fun v t _ ht => ?_
    refine ((fetchWord_ends t).imp fun _ h => ht.trans h).bind (fun _ h => h) fun u w _ hw => hw

/-- A fetch latches `start` and changes nothing else but pc and what port reads leave (40_cycle.md R112 to R115). -/
theorem fetch_ends (s : State) : (fetch s).Ends (FetchOnly (latch s)) := by
  refine (fetchOpcode_ends (latch s)).bind (fun _ h => h) fun op t _ ht => ?_
  split
  · exact ht
  · exact (fetchOperands_ends _ t).imp fun _ h => ht.trans h

/-! ## What a fetch gives -/

theorem fetchWord_bound {s t : State} {v : Nat} (h : fetchWord s = .ok v t) : v < 2 ^ s.bs.width ∧ t.bs = s.bs := by
  have he := fetchWord_ends s
  rw [h] at he
  refine ⟨?_, FetchOnly.bs he⟩
  obtain ⟨w, u, hw, h⟩ := Res.bind_eq_ok h
  cases h
  exact two_pow_width s.bs ▸ memRead_bound hw

theorem fetchOperands_builds {P : Instr → Prop} {f : Format} {s t : State} {i : Instr}
    (hf : f.Builds P (2 ^ s.bs.width)) (h : fetchOperands f s = .ok i t) : P i := by
  cases f with
  | f0 j =>
    cases h
    exact hf
  | f1 f =>
    obtain ⟨v, u, hv, h⟩ := Res.bind_eq_ok h
    cases h
    exact hf v (fetchWord_bound hv).1
  | f2 f =>
    obtain ⟨v, u, hv, h⟩ := Res.bind_eq_ok h
    obtain ⟨w, x, hw, h⟩ := Res.bind_eq_ok h
    cases h
    have := fetchWord_bound hv
    have hw' := (fetchWord_bound hw).1
    rw [this.2] at hw'
    exact hf v this.1 w hw'

/-- A fetched instruction is well formed at the block size it was fetched at, which the fetch leaves as it was. -/
theorem fetch_wellFormed {s t : State} {i : Instr} (h : fetch s = .ok i t) : i.wellFormed t.bs = true := by
  obtain ⟨op, u, hu, h⟩ := Res.bind_eq_ok h
  split at h
  · cases h
  · have he := fetchOperands_ends (Action.format u.bs ‹Action›) u
    rw [h] at he
    rw [FetchOnly.bs he]
    exact fetchOperands_builds (format_wellFormed _ _) h

/-! ## Bytes that stand in memory are fetched as they stand -/

theorem advance_advance (m n : Nat) (s : State) : advance n (advance m s) = advance (m + n) s := by
  simp only [advance, BitVec.add_assoc, BitVec.ofNat_add]

theorem HoldsBytes.advance {s : State} {l m : List Byte} (h : HoldsBytes s s.pc (l ++ m)) {n : Nat}
    (hl : l.length = n) : HoldsBytes (advance n s) (advance n s).pc m :=
  hl ▸ HoldsBytes.append_right h

theorem fetchOpcode_of_holds {s : State} {b0 b1 : Byte} (h : HoldsBytes s s.pc [b0, b1]) :
    fetchOpcode s = .ok (opcodeOf b0 b1) (Machine.advance 2 s) := by
  have h0 : peek s s.pc = some b0 := by simpa using h 0 (by simp)
  have h1 : peek s (s.pc + 1#32) = some b1 := by simpa using h 1 (by simp)
  simp only [fetchOpcode, load_of_peek h0, load_of_peek h1, Res.bind_ok]

theorem fetchWord_of_holds {s : State} {l : List Byte} (hl : l.length = s.bs.bytes) (h : HoldsBytes s s.pc l) :
    fetchWord s = .ok (leValue l) (Machine.advance s.bs.bytes s) := by
  have := memRead_of_holds h
  rw [hl] at this
  simp only [fetchWord, this, Res.bind_ok]

theorem fetchOperands_of_holds {s : State} {f : Format} {l : List Byte} {i : Instr} (h : HoldsBytes s s.pc l)
    (hd : decodeOperands s.bs f l = some (i, [])) : fetchOperands f s = .ok i (Machine.advance l.length s) := by
  cases f with
  | f0 j =>
    cases hd
    simp [fetchOperands, Machine.advance]
  | f1 f =>
    obtain ⟨⟨v, m⟩, ht, he⟩ := Option.map_eq_some_iff.mp hd
    cases he
    obtain ⟨w, hw, rfl, rfl⟩ := takeWord_eq_some ht
    rw [List.append_nil] at h ⊢
    simp only [fetchOperands, fetchWord_of_holds hw h, Res.bind_ok, hw]
  | f2 f =>
    obtain ⟨⟨v, m⟩, ht, he⟩ := Option.bind_eq_some_iff.mp hd
    obtain ⟨⟨u, m'⟩, hu, he⟩ := Option.map_eq_some_iff.mp he
    cases he
    obtain ⟨w, hw, rfl, rfl⟩ := takeWord_eq_some ht
    obtain ⟨x, hx, rfl, rfl⟩ := takeWord_eq_some hu
    rw [List.append_nil] at h ⊢
    have h1 := fetchWord_of_holds hw (HoldsBytes.append_left h)
    have h2 := fetchWord_of_holds (s := Machine.advance s.bs.bytes s) hx (HoldsBytes.advance h hw)
    simp only [fetchOperands, h1, h2, Res.bind_ok, advance_bs, advance_advance, List.length_append, hw, hx]

/-- The fetch of an instruction whose bytes stand in memory at pc: it latches `start` and moves pc past them
(40_cycle.md R112 to R116). -/
theorem fetch_of_holds {s : State} {l : List Byte} {i : Instr} (h : HoldsBytes s s.pc l)
    (hd : decode s.cfg.opTable s.bs l = .ok (i, [])) : fetch s = .ok i (Machine.advance l.length (latch s)) := by
  match l, hd with
  | [], hd => cases hd
  | [_], hd => cases hd
  | b0 :: b1 :: m, hd =>
    have h' : HoldsBytes (latch s) (latch s).pc ([b0, b1] ++ m) := h
    have hr := HoldsBytes.advance h' (n := 2) rfl
    simp only [decode] at hd
    cases ha : s.cfg.opTable.action (opcodeOf b0 b1) with
    | none => simp [ha] at hd
    | some act =>
      cases hp : decodeOperands s.bs (act.format s.bs) m with
      | none => simp [ha, hp] at hd
      | some p =>
        simp only [ha, hp, Except.ok.injEq] at hd
        subst hd
        have ho := fetchOperands_of_holds (s := Machine.advance 2 (latch s)) (f := act.format s.bs) hr hp
        simp only [fetch, fetchOpcode_of_holds (HoldsBytes.append_left h'), Res.bind_ok, advance_cfg, latch_cfg, ha,
          advance_bs, latch_bs, ho, advance_advance, List.length_cons]
        rw [show 2 + m.length = m.length + 1 + 1 by omega]

end Sys2Proof.Machine
end

