-- ==== Sys2Proof/Laws/PerInstr.lean ====
section
/-! SUPPORT. The round trip of operands, one lemma per instruction: the format of an instruction's action rebuilds the
instruction from its operand words. -/

namespace Sys2Proof.Laws.Rebuild

open Sys2Proof.Machine

/-- What a format makes of a list of operand words. -/
def apply : Format → List Nat → Option Instr
  | .f0 i, [] => some i
  | .f1 f, [v] => some (f v)
  | .f2 f, [v, u] => some (f v u)
  | _, _ => none

/-- The format of the instruction's action gives the instruction back from its operand words, at every block size
whose operand words hold its operands. -/
def Statement (i : Instr) : Prop :=
  ∀ bs : BlockSize, i.wellFormed bs = true → apply (i.action.format bs) (i.operands.map (Operand.word bs)) = some i

/-! ## Each kind of operand -/

theorem wordOperand (v : Word) : BitVec.ofNat 64 v.toNat = v := by simp

theorem addressOperand (a : Addr) : BitVec.ofNat 32 a.toNat = a := by simp

theorem pageNoOperand (p : PageNo) : BitVec.ofNat 20 p.toNat = p := by simp

/-- Two's complement over W bits gives a displacement in range back (30_encoding.md R98). -/
theorem displacement {bs : BlockSize} {d : Int} (h : (Operand.disp d).fits bs = true) : sextW bs (maskW bs d) = d := by
  simp only [Operand.fits, decide_eq_true_eq] at h
  have hw : (2 : Int) ^ bs.width = 2 * 2 ^ (bs.width - 1) := by
    have := width_pos bs
    rw [← pow_succ', Nat.sub_add_cancel (by omega)]
  have hc := maskW_cast bs d
  have hN : ((2 ^ (bs.width - 1) : Nat) : Int) = 2 ^ (bs.width - 1) := by norm_cast
  unfold sextW
  rcases lt_or_ge d 0 with h0 | h0
  · have : d % 2 ^ bs.width = d + 2 ^ bs.width := by
      rw [← Int.add_emod_right, Int.emod_eq_of_lt (by omega) (by omega)]
    rw [if_neg (by zify; omega)]
    omega
  · have : d % 2 ^ bs.width = d := Int.emod_eq_of_lt h0 (by omega)
    rw [if_pos (by zify; omega)]
    omega

/-! ## Each instruction -/

theorem add : Statement .add := fun _ _ => rfl
theorem sub : Statement .sub := fun _ _ => rfl
theorem mul : Statement .mul := fun _ _ => rfl
theorem div : Statement .div := fun _ _ => rfl
theorem mod : Statement .mod := fun _ _ => rfl
theorem shl : Statement .shl := fun _ _ => rfl
theorem shr : Statement .shr := fun _ _ => rfl
theorem cmpi (v : Word) : Statement (.cmpi v) := fun _ _ =>
  congrArg (fun v => some (Instr.cmpi v)) (wordOperand v)
theorem cmp : Statement .cmp := fun _ _ => rfl
theorem movax : Statement .movax := fun _ _ => rfl
theorem movay : Statement .movay := fun _ _ => rfl
theorem movxa : Statement .movxa := fun _ _ => rfl
theorem movxy : Statement .movxy := fun _ _ => rfl
theorem movya : Statement .movya := fun _ _ => rfl
theorem movyx : Statement .movyx := fun _ _ => rfl
theorem ldia (v : Word) : Statement (.ldia v) := fun _ _ =>
  congrArg (fun v => some (Instr.ldia v)) (wordOperand v)
theorem ldix (v : Word) : Statement (.ldix v) := fun _ _ =>
  congrArg (fun v => some (Instr.ldix v)) (wordOperand v)
theorem ldiy (v : Word) : Statement (.ldiy v) := fun _ _ =>
  congrArg (fun v => some (Instr.ldiy v)) (wordOperand v)
theorem ldba (a : Addr) : Statement (.ldba a) := fun _ _ =>
  congrArg (fun v => some (Instr.ldba v)) (addressOperand a)
theorem ldbx (a : Addr) : Statement (.ldbx a) := fun _ _ =>
  congrArg (fun v => some (Instr.ldbx v)) (addressOperand a)
theorem ldby (a : Addr) : Statement (.ldby a) := fun _ _ =>
  congrArg (fun v => some (Instr.ldby v)) (addressOperand a)
theorem ldwa (a : Addr) : Statement (.ldwa a) := fun _ _ =>
  congrArg (fun v => some (Instr.ldwa v)) (addressOperand a)
theorem ldwx (a : Addr) : Statement (.ldwx a) := fun _ _ =>
  congrArg (fun v => some (Instr.ldwx v)) (addressOperand a)
theorem ldwy (a : Addr) : Statement (.ldwy a) := fun _ _ =>
  congrArg (fun v => some (Instr.ldwy v)) (addressOperand a)
theorem ldda (a : Addr) : Statement (.ldda a) := fun _ _ =>
  congrArg (fun v => some (Instr.ldda v)) (addressOperand a)
theorem lddx (a : Addr) : Statement (.lddx a) := fun _ _ =>
  congrArg (fun v => some (Instr.lddx v)) (addressOperand a)
theorem lddy (a : Addr) : Statement (.lddy a) := fun _ _ =>
  congrArg (fun v => some (Instr.lddy v)) (addressOperand a)
theorem ldqa (a : Addr) : Statement (.ldqa a) := fun _ _ =>
  congrArg (fun v => some (Instr.ldqa v)) (addressOperand a)
theorem ldqx (a : Addr) : Statement (.ldqx a) := fun _ _ =>
  congrArg (fun v => some (Instr.ldqx v)) (addressOperand a)
theorem ldqy (a : Addr) : Statement (.ldqy a) := fun _ _ =>
  congrArg (fun v => some (Instr.ldqy v)) (addressOperand a)
theorem stba (a : Addr) : Statement (.stba a) := fun _ _ =>
  congrArg (fun v => some (Instr.stba v)) (addressOperand a)
theorem stbx (a : Addr) : Statement (.stbx a) := fun _ _ =>
  congrArg (fun v => some (Instr.stbx v)) (addressOperand a)
theorem stby (a : Addr) : Statement (.stby a) := fun _ _ =>
  congrArg (fun v => some (Instr.stby v)) (addressOperand a)
theorem stwa (a : Addr) : Statement (.stwa a) := fun _ _ =>
  congrArg (fun v => some (Instr.stwa v)) (addressOperand a)
theorem stwx (a : Addr) : Statement (.stwx a) := fun _ _ =>
  congrArg (fun v => some (Instr.stwx v)) (addressOperand a)
theorem stwy (a : Addr) : Statement (.stwy a) := fun _ _ =>
  congrArg (fun v => some (Instr.stwy v)) (addressOperand a)
theorem stda (a : Addr) : Statement (.stda a) := fun _ _ =>
  congrArg (fun v => some (Instr.stda v)) (addressOperand a)
theorem stdx (a : Addr) : Statement (.stdx a) := fun _ _ =>
  congrArg (fun v => some (Instr.stdx v)) (addressOperand a)
theorem stdy (a : Addr) : Statement (.stdy a) := fun _ _ =>
  congrArg (fun v => some (Instr.stdy v)) (addressOperand a)
theorem stqa (a : Addr) : Statement (.stqa a) := fun _ _ =>
  congrArg (fun v => some (Instr.stqa v)) (addressOperand a)
theorem stqx (a : Addr) : Statement (.stqx a) := fun _ _ =>
  congrArg (fun v => some (Instr.stqx v)) (addressOperand a)
theorem stqy (a : Addr) : Statement (.stqy a) := fun _ _ =>
  congrArg (fun v => some (Instr.stqy v)) (addressOperand a)
theorem pusha : Statement .pusha := fun _ _ => rfl
theorem pushx : Statement .pushx := fun _ _ => rfl
theorem pushy : Statement .pushy := fun _ _ => rfl
theorem popa : Statement .popa := fun _ _ => rfl
theorem popx : Statement .popx := fun _ _ => rfl
theorem popy : Statement .popy := fun _ _ => rfl
theorem setstack (a : Addr) : Statement (.setstack a) := fun _ _ =>
  congrArg (fun v => some (Instr.setstack v)) (addressOperand a)
theorem jmp (d : Int) : Statement (.jmp d) := fun bs h =>
  congrArg (fun d => some (Instr.jmp d)) (displacement (by simpa [Instr.wellFormed, Instr.operands] using h))
theorem jmpa (t : Addr) : Statement (.jmpa t) := fun _ _ =>
  congrArg (fun v => some (Instr.jmpa v)) (addressOperand t)
theorem jz (d : Int) : Statement (.jz d) := fun bs h =>
  congrArg (fun d => some (Instr.jz d)) (displacement (by simpa [Instr.wellFormed, Instr.operands] using h))
theorem jnz (d : Int) : Statement (.jnz d) := fun bs h =>
  congrArg (fun d => some (Instr.jnz d)) (displacement (by simpa [Instr.wellFormed, Instr.operands] using h))
theorem jc (d : Int) : Statement (.jc d) := fun bs h =>
  congrArg (fun d => some (Instr.jc d)) (displacement (by simpa [Instr.wellFormed, Instr.operands] using h))
theorem jnc (d : Int) : Statement (.jnc d) := fun bs h =>
  congrArg (fun d => some (Instr.jnc d)) (displacement (by simpa [Instr.wellFormed, Instr.operands] using h))
theorem call (d : Int) : Statement (.call d) := fun bs h =>
  congrArg (fun d => some (Instr.call d)) (displacement (by simpa [Instr.wellFormed, Instr.operands] using h))
theorem calla (t : Addr) : Statement (.calla t) := fun _ _ =>
  congrArg (fun v => some (Instr.calla v)) (addressOperand t)
theorem bz (d : Int) : Statement (.bz d) := fun bs h =>
  congrArg (fun d => some (Instr.bz d)) (displacement (by simpa [Instr.wellFormed, Instr.operands] using h))
theorem bnz (d : Int) : Statement (.bnz d) := fun bs h =>
  congrArg (fun d => some (Instr.bnz d)) (displacement (by simpa [Instr.wellFormed, Instr.operands] using h))
theorem bc (d : Int) : Statement (.bc d) := fun bs h =>
  congrArg (fun d => some (Instr.bc d)) (displacement (by simpa [Instr.wellFormed, Instr.operands] using h))
theorem bnc (d : Int) : Statement (.bnc d) := fun bs h =>
  congrArg (fun d => some (Instr.bnc d)) (displacement (by simpa [Instr.wellFormed, Instr.operands] using h))
theorem ret : Statement .ret := fun _ _ => rfl
theorem int (n : Word) : Statement (.int n) := fun _ _ =>
  congrArg (fun v => some (Instr.int v)) (wordOperand n)
theorem defint (n : Word) (t : Addr) : Statement (.defint n t) := fun _ _ =>
  congrArg₂ (fun v u => some (Instr.defint v u)) (wordOperand n) (addressOperand t)
theorem setivt (a : Addr) : Statement (.setivt a) := fun _ _ =>
  congrArg (fun v => some (Instr.setivt v)) (addressOperand a)
theorem page (p : PageNo) : Statement (.page p) := fun _ _ =>
  congrArg (fun v => some (Instr.page v)) (pageNoOperand p)
theorem pageat (p : PageNo) (f : Word) : Statement (.pageat p f) := fun _ _ =>
  congrArg₂ (fun v u => some (Instr.pageat v u)) (pageNoOperand p) (wordOperand f)
theorem free (p : PageNo) : Statement (.free p) := fun _ _ =>
  congrArg (fun v => some (Instr.free v)) (pageNoOperand p)
theorem reduce : Statement .reduce := fun _ _ => rfl
theorem extend : Statement .extend := fun _ _ => rfl
theorem halt : Statement .halt := fun _ _ => rfl
theorem haltz : Statement .haltz := fun _ _ => rfl

end Sys2Proof.Laws.Rebuild
end

