-- ==== Sys2Proof/Laws/Unread.lean ====
section
/-! SUPPORT. An update of state that an operation neither reads nor writes commutes with it. -/

namespace Sys2Proof.Machine

variable {α β : Type}

/-- Apply `f` to the state of an outcome. -/
def Res.map (f : State → State) : Res α → Res α
  | .ok v s => .ok v (f s)
  | .raise k s => .raise k (f s)
  | .fatal r s => .fatal r (f s)

@[simp] theorem Res.map_ok (f : State → State) (v : α) (s : State) : (Res.ok v s).map f = .ok v (f s) := rfl
@[simp] theorem Res.map_raise (f : State → State) (k : FaultKind) (s : State) :
    (Res.raise k s : Res α).map f = .raise k (f s) := rfl
@[simp] theorem Res.map_fatal (f : State → State) (r : FatalReason) (s : State) :
    (Res.fatal r s : Res α).map f = .fatal r (f s) := rfl

theorem Res.map_bind {f : State → State} {m m' : Res α} {g g' : α → State → Res β} (hm : m' = m.map f)
    (hg : ∀ v s, g' v (f s) = (g v s).map f) : m'.bind g' = (m.bind g).map f := by
  subst hm
  cases m with
  | ok v s => exact hg v s
  | raise k s => rfl
  | fatal r s => rfl

/-- `f` touches nothing that memory and stack accesses read, and commutes with what they write. -/
structure Unread (f : State → State) : Prop where
  cfg : ∀ s, (f s).cfg = s.cfg
  pt : ∀ s, (f s).pt = s.pt
  ports : ∀ s, (f s).ports = s.ports
  frames : ∀ s, (f s).frames = s.frames
  draws : ∀ s, (f s).draws = s.draws
  portLog : ∀ s, (f s).portLog = s.portLog
  stackBase : ∀ s, (f s).stackBase = s.stackBase
  stackBaseValid : ∀ s, (f s).stackBaseValid = s.stackBaseValid
  stackPos : ∀ s, (f s).stackPos = s.stackPos
  setFrames : ∀ s m, f { s with frames := m } = { f s with frames := m }
  setPortLog : ∀ s l, f { s with portLog := l } = { f s with portLog := l }
  setPorts : ∀ s d l, f { s with draws := d, portLog := l } = { f s with draws := d, portLog := l }
  setStackPos : ∀ s p, f { s with stackPos := p } = { f s with stackPos := p }

namespace Unread

variable {f : State → State}

theorem translate (hf : Unread f) (a : Addr) (s : State) : Machine.translate (f s) a = Machine.translate s a := by
  simp only [Machine.translate, hf.cfg, hf.pt]

theorem portRead (hf : Unread f) (k : Nat) (s : State) : Machine.portRead k (f s) = (Machine.portRead k s).map f := by
  simp only [Machine.portRead, hf.ports, hf.draws, hf.portLog]
  split_ifs
  · rw [Res.map_ok, hf.setPorts s (s.draws + 1) (.read k (Config.deviceRead s.draws) :: s.portLog)]
    simp only [hf.ports]
  · rfl

theorem portWrite (hf : Unread f) (k : Nat) (b : Byte) (s : State) :
    Machine.portWrite k b (f s) = (Machine.portWrite k b s).map f := by
  simp only [Machine.portWrite, hf.ports, hf.portLog]
  split_ifs
  · rw [Res.map_ok, hf.setPortLog s (.write k b :: s.portLog)]
    simp only [hf.ports]
  · rfl

theorem load (hf : Unread f) (a : Addr) (s : State) : Machine.load a (f s) = (Machine.load a s).map f := by
  simp only [Machine.load, hf.translate]
  split
  · exact hf.portRead _ s
  · rw [hf.frames]
    rfl
  · rfl

theorem store (hf : Unread f) (a : Addr) (b : Byte) (s : State) :
    Machine.store a b (f s) = (Machine.store a b s).map f := by
  simp only [Machine.store, hf.translate]
  split
  · exact hf.portWrite _ b s
  · rw [hf.frames]
    exact congrArg _ (hf.setFrames s _).symm
  · rfl

theorem memRead (hf : Unread f) (a : Addr) (n : Nat) (s : State) :
    Machine.memRead a n (f s) = (Machine.memRead a n s).map f := by
  induction n generalizing a s with
  | zero => rfl
  | succ n ih => exact Res.map_bind (hf.load a s) fun b t => Res.map_bind (ih _ t) fun v u => rfl

theorem memWrite (hf : Unread f) (a : Addr) (n v : Nat) (s : State) :
    Machine.memWrite a n v (f s) = (Machine.memWrite a n v s).map f := by
  induction n generalizing a v s with
  | zero => rfl
  | succ n ih => exact Res.map_bind (hf.store a _ s) fun _ t => ih _ _ t

theorem push (hf : Unread f) (n v : Nat) (s : State) : Machine.push n v (f s) = (Machine.push n v s).map f := by
  have h := hf.memWrite (s.stackBase - (s.stackPos + BitVec.ofNat 32 n)) n v
    { s with stackPos := s.stackPos + BitVec.ofNat 32 n }
  rw [hf.setStackPos s (s.stackPos + BitVec.ofNat 32 n)] at h
  simp only [hf.stackBaseValid, hf.stackBase] at h
  simp only [Machine.push, stackSlot, hf.stackBaseValid, hf.stackPos, hf.stackBase]
  split_ifs
  · exact h
  · rfl

theorem pop (hf : Unread f) (n : Nat) (s : State) : Machine.pop n (f s) = (Machine.pop n s).map f := by
  simp only [Machine.pop, hf.stackBaseValid]
  split_ifs
  · simp only [stackSlot, hf.stackBase, hf.stackPos]
    refine Res.map_bind (hf.memRead _ n s) fun v t => ?_
    rw [hf.stackPos]
    exact congrArg _ (hf.setStackPos t _).symm
  · rfl

end Unread

/-- The router's marker is read by no access. -/
theorem unread_routing (r : Option Nat) : Unread fun s => { s with routing := r } := by
  constructor <;> intros <;> rfl

/-- One attempt of the router, said over the state without its marker: what the entry reads as and what the push comes to
decide which of its three ends it takes. -/
theorem transaction_attempt {v : Nat} {missing nested : State → Res Unit} {s : State} (h : s.ivtBaseValid = true) :
    transaction v missing nested s =
      match memRead (s.ivtBase + BitVec.ofNat 32 (4 * v)) 4 s with
      | .ok n u =>
        if n = 0 then missing (servicing v u)
        else
          match push 4 u.pc.toNat u with
          | .ok _ w => .ok () { w with pc := BitVec.ofNat 32 n, routing := none }
          | .raise _ w => nested (servicing v w)
          | .fatal r w => .fatal r (servicing v w)
      | .raise _ u => nested (servicing v u)
      | .fatal r u => .fatal r (servicing v u) := by
  have hm : memRead (ivtSlot v s) 4 (servicing v s) =
      (memRead (s.ivtBase + BitVec.ofNat 32 (4 * v)) 4 s).map (servicing v) := (unread_routing (some v)).memRead _ 4 s
  unfold transaction
  rw [if_pos h, hm]
  cases memRead (s.ivtBase + BitVec.ofNat 32 (4 * v)) 4 s with
  | raise k u => rfl
  | fatal r u => rfl
  | ok n u =>
    have hp : push 4 (servicing v u).pc.toNat (servicing v u) = (push 4 u.pc.toNat u).map (servicing v) :=
      (unread_routing (some v)).push 4 _ u
    simp only [Res.map_ok, pushPcAndJump, hp]
    cases push 4 u.pc.toNat u <;> rfl

/-- The router's last attempt does not depend on the marker it finds. -/
theorem routeLast_servicing (v : Nat) (s : State) : routeLast (servicing v s) = routeLast s := rfl

/-- pc and `start` are read by no access. -/
theorem unread_pc (p q : Addr) : Unread fun s => { s with pc := p, start := q } := by
  constructor <;> intros <;> rfl

/-! ## Updates that the IVT and the router do not read either -/

/-- `f` touches nothing that the execution of a fault reads, and commutes with what it writes. -/
structure Inert (f : State → State) : Prop extends Unread f where
  pc : ∀ s, (f s).pc = s.pc
  ivtBase : ∀ s, (f s).ivtBase = s.ivtBase
  ivtBaseValid : ∀ s, (f s).ivtBaseValid = s.ivtBaseValid
  setPc : ∀ s p, f { s with pc := p } = { f s with pc := p }
  setRouting : ∀ s r, f { s with routing := r } = { f s with routing := r }
  setRun : ∀ s r, f { s with run := r } = { f s with run := r }

namespace Inert

variable {f : State → State}

theorem pushPcAndJump (hf : Inert f) (a : Addr) (s : State) :
    Machine.pushPcAndJump a (f s) = (Machine.pushPcAndJump a s).map f := by
  simp only [Machine.pushPcAndJump, hf.pc]
  exact Res.map_bind (hf.push 4 _ s) fun _ t => congrArg _ (hf.setPc t a).symm

theorem returnPc (hf : Inert f) (s : State) : Machine.returnPc (f s) = (Machine.returnPc s).map f :=
  Res.map_bind (hf.pop 4 s) fun _ t => congrArg _ (hf.setPc t _).symm

theorem findInt (hf : Inert f) (id : Nat) (s : State) : Machine.findInt id (f s) = (Machine.findInt id s).map f := by
  simp only [Machine.findInt, ivtSlot, hf.ivtBase, hf.ivtBaseValid]
  split_ifs
  · refine Res.map_bind (hf.memRead _ 4 s) fun v t => ?_
    split_ifs <;> rfl
  · rfl

theorem registerInt (hf : Inert f) (id : Nat) (a : Addr) (s : State) :
    Machine.registerInt id a (f s) = (Machine.registerInt id a s).map f := by
  simp only [Machine.registerInt, ivtSlot, hf.cfg, hf.ivtBase, hf.ivtBaseValid]
  split_ifs
  · rfl
  · exact hf.memWrite _ 4 _ s
  · rfl

theorem transaction (hf : Inert f) {v : Nat} {missing nested : State → Res Unit}
    (hm : ∀ s, missing (f s) = (missing s).map f) (hn : ∀ s, nested (f s) = (nested s).map f) (s : State) :
    Machine.transaction v missing nested (f s) = (Machine.transaction v missing nested s).map f := by
  have hs : servicing v (f s) = f (servicing v s) := (hf.setRouting s _).symm
  simp only [Machine.transaction, ivtSlot, hf.ivtBase, hf.ivtBaseValid, hs, hf.memRead]
  split_ifs
  · cases Machine.memRead (s.ivtBase + BitVec.ofNat 32 (4 * v)) 4 (servicing v s) with
    | ok t u =>
      simp only [Res.map_ok, hf.pushPcAndJump]
      split_ifs
      · exact hm u
      · cases Machine.pushPcAndJump (BitVec.ofNat 32 t) u with
        | ok w u => exact congrArg _ (hf.setRouting u none).symm
        | raise k u => exact hn u
        | fatal r u => rfl
    | raise k u => exact hn u
    | fatal r u => rfl
  · rfl

theorem routeLast (hf : Inert f) (s : State) : Machine.routeLast (f s) = (Machine.routeLast s).map f :=
  hf.transaction (fun _ => rfl) (fun _ => rfl) s

theorem missingVector (hf : Inert f) (s : State) :
    Machine.missingVector (f s) = (Machine.missingVector s).map f := by
  simp only [Machine.missingVector, hf.cfg]
  split
  · rfl
  · exact hf.routeLast s

theorem nestedFault (hf : Inert f) (s : State) : Machine.nestedFault (f s) = (Machine.nestedFault s).map f := by
  simp only [Machine.nestedFault, hf.cfg]
  split
  · rfl
  · exact hf.routeLast s

theorem route (hf : Inert f) (k : FaultKind) (s : State) : Machine.route k (f s) = (Machine.route k s).map f := by
  simp only [Machine.route]
  split_ifs
  · exact hf.routeLast s
  · exact hf.transaction hf.missingVector hf.nestedFault s

theorem haltFatal (hf : Inert f) (r : FatalReason) (s : State) :
    Machine.haltFatal r (f s) = f (Machine.haltFatal r s) := by
  have h := hf.setRouting { s with run := .haltedFatal r } none
  rw [hf.setRun] at h
  exact h.symm

theorem settle (hf : Inert f) (m : Res Unit) : Machine.settle (m.map f) = f (Machine.settle m) := by
  cases m with
  | ok v s => rfl
  | raise k s =>
    simp only [Res.map_raise, settle_raise, hf.route]
    cases Machine.route k s with
    | ok v s => rfl
    | raise k s => exact hf.haltFatal _ s
    | fatal r s => exact hf.haltFatal r s
  | fatal r s => exact hf.haltFatal r s

/-- What a step ends in commutes with an update that nothing reads. -/
theorem finish (hf : Inert f) (m : Res Unit) : Machine.finish (m.map f) = .next (f (Machine.settle m)) :=
  congrArg _ (hf.settle m)

end Inert

/-- No access, no IVT lookup and no routing reads C. -/
theorem inert_c (b : Bool) : Inert fun s => { s with c := b } := by
  constructor <;> first | (constructor <;> intros <;> rfl) | (intros; rfl)

/-- No access, no IVT lookup and no routing reads Z. -/
theorem inert_z (b : Bool) : Inert fun s => { s with z := b } := by
  constructor <;> first | (constructor <;> intros <;> rfl) | (intros; rfl)

end Sys2Proof.Machine
end

