-- ==== Sys2Proof/Tests/Slice0.lean ====
section
/-! SUPPORT. Tests of the model, as named theorems: ill-formed operands are refused, written-out words decode to the
instructions they stand for, the vectors of 95_test_vectors.md come out, and every statement's hypotheses can be met.
Expected values are those of 95_test_vectors.md or are worked out by hand from the rule a test names. -/

open Sys2Proof Sys2Proof.Machine Sys2Proof.Spec

namespace Sys2Proof.Tests

/-! ## Well-formedness: one ill-formed term for each operand kind (30_encoding.md R94) -/

theorem test_wf_imm : (Instr.ldia 0x10000).wellFormed .one = false ∧ (Instr.ldia 0xFFFF).wellFormed .one = true := by
  decide

theorem test_wf_addr : (Instr.ldba 0x10000).wellFormed .one = false ∧ (Instr.ldba 0x10000).wellFormed .two = true := by
  decide

theorem test_wf_tgt : (Instr.jmpa 0x10000).wellFormed .one = false ∧
    (Instr.defint 0 0x10000).wellFormed .one = false ∧ (Instr.jmpa 0xFFFF).wellFormed .one = true := by
  decide

theorem test_wf_disp : (Instr.jmp 0x8000).wellFormed .one = false ∧ (Instr.jmp (-0x8001)).wellFormed .one = false ∧
    (Instr.jmp 0x7FFF).wellFormed .one = true ∧ (Instr.jmp (-0x8000)).wellFormed .one = true := by
  decide

theorem test_wf_id : (Instr.int 0x10000).wellFormed .one = false ∧
    (Instr.int 0x100000000).wellFormed .two = false ∧ (Instr.int 0xFFFFFFFFFFFFFFFF).wellFormed .four = true := by
  decide

theorem test_wf_page : (Instr.page 0x12345).wellFormed .one = false ∧ (Instr.page 0xFFFFF).wellFormed .two = true := by
  decide

theorem test_wf_frame : (Instr.pageat 0 0x10000).wellFormed .one = false ∧
    (Instr.pageat 0 0xFFFF).wellFormed .one = true := by
  decide

/-! ## Decoding -/

/-- Every listed byte string decodes, under EXA, to the instruction beside it and nothing is left over. -/
def decodesAll (bs : BlockSize) (l : List (List Byte × Instr)) : Bool :=
  l.all fun p =>
    match decode exaTable bs p.1 with
    | .ok q => decide (q = (p.2, []))
    | .error _ => false

/-- Every word of the family, from its EXA bytes at bs = 2 (95_test_vectors.md Part 2; 30_encoding.md R94 to R96). -/
theorem test_decode_arithmetic : decodesAll .two
    [([0x01, 0x01], .add), ([0x01, 0x02], .sub), ([0x01, 0x03], .mul), ([0x01, 0x04], .div), ([0x01, 0x05], .mod),
     ([0x01, 0x06], .shl), ([0x01, 0x07], .shr), ([0x01, 0x08, 0x78, 0x56, 0x34, 0x12], .cmpi 0x12345678),
     ([0x01, 0x09], .cmp)] = true := by decide

/-- Every word of the family, from its EXA bytes at bs = 2 (95_test_vectors.md Part 2; 30_encoding.md R94 to R96). -/
theorem test_decode_moves_and_immediates : decodesAll .two
    [([0x02, 0x01], .movax), ([0x02, 0x02], .movay), ([0x02, 0x03], .movxa), ([0x02, 0x04], .movxy),
     ([0x02, 0x05], .movya), ([0x02, 0x06], .movyx), ([0x02, 0x11, 0x78, 0x56, 0x34, 0x12], .ldia 0x12345678),
     ([0x02, 0x12, 0x78, 0x56, 0x34, 0x12], .ldix 0x12345678),
     ([0x02, 0x13, 0x78, 0x56, 0x34, 0x12], .ldiy 0x12345678)] = true := by decide

/-- Every word of the family, from its EXA bytes at bs = 2 (95_test_vectors.md Part 2; 30_encoding.md R94 to R96). -/
theorem test_decode_loads : decodesAll .two
    [([0x03, 0x01, 0x78, 0x56, 0x34, 0x12], .ldba 0x12345678),
     ([0x03, 0x02, 0x78, 0x56, 0x34, 0x12], .ldbx 0x12345678),
     ([0x03, 0x03, 0x78, 0x56, 0x34, 0x12], .ldby 0x12345678),
     ([0x03, 0x11, 0x78, 0x56, 0x34, 0x12], .ldwa 0x12345678),
     ([0x03, 0x12, 0x78, 0x56, 0x34, 0x12], .ldwx 0x12345678),
     ([0x03, 0x13, 0x78, 0x56, 0x34, 0x12], .ldwy 0x12345678),
     ([0x03, 0x21, 0x78, 0x56, 0x34, 0x12], .ldda 0x12345678),
     ([0x03, 0x22, 0x78, 0x56, 0x34, 0x12], .lddx 0x12345678),
     ([0x03, 0x23, 0x78, 0x56, 0x34, 0x12], .lddy 0x12345678),
     ([0x03, 0x31, 0x78, 0x56, 0x34, 0x12], .ldqa 0x12345678),
     ([0x03, 0x32, 0x78, 0x56, 0x34, 0x12], .ldqx 0x12345678),
     ([0x03, 0x33, 0x78, 0x56, 0x34, 0x12], .ldqy 0x12345678)] = true := by decide

/-- Every word of the family, from its EXA bytes at bs = 2 (95_test_vectors.md Part 2; 30_encoding.md R94 to R96). -/
theorem test_decode_stores : decodesAll .two
    [([0x04, 0x01, 0x78, 0x56, 0x34, 0x12], .stba 0x12345678),
     ([0x04, 0x02, 0x78, 0x56, 0x34, 0x12], .stbx 0x12345678),
     ([0x04, 0x03, 0x78, 0x56, 0x34, 0x12], .stby 0x12345678),
     ([0x04, 0x11, 0x78, 0x56, 0x34, 0x12], .stwa 0x12345678),
     ([0x04, 0x12, 0x78, 0x56, 0x34, 0x12], .stwx 0x12345678),
     ([0x04, 0x13, 0x78, 0x56, 0x34, 0x12], .stwy 0x12345678),
     ([0x04, 0x21, 0x78, 0x56, 0x34, 0x12], .stda 0x12345678),
     ([0x04, 0x22, 0x78, 0x56, 0x34, 0x12], .stdx 0x12345678),
     ([0x04, 0x23, 0x78, 0x56, 0x34, 0x12], .stdy 0x12345678),
     ([0x04, 0x31, 0x78, 0x56, 0x34, 0x12], .stqa 0x12345678),
     ([0x04, 0x32, 0x78, 0x56, 0x34, 0x12], .stqx 0x12345678),
     ([0x04, 0x33, 0x78, 0x56, 0x34, 0x12], .stqy 0x12345678)] = true := by decide

/-- Every word of the family, from its EXA bytes at bs = 2 (95_test_vectors.md Part 2; 30_encoding.md R94 to R96). -/
theorem test_decode_stack : decodesAll .two
    [([0x05, 0x01], .pusha), ([0x05, 0x02], .pushx), ([0x05, 0x03], .pushy), ([0x05, 0x11], .popa),
     ([0x05, 0x12], .popx), ([0x05, 0x13], .popy),
     ([0x00, 0x06, 0x78, 0x56, 0x34, 0x12], .setstack 0x12345678)] = true := by decide

/-- Every word of the family, from its EXA bytes at bs = 2 (95_test_vectors.md Part 2; 30_encoding.md R94 to R96). -/
theorem test_decode_control : decodesAll .two
    [([0x06, 0x01, 0xFE, 0xFF, 0xFF, 0xFF], .jmp (-2)), ([0x06, 0x02, 0x78, 0x56, 0x34, 0x12], .jmpa 0x12345678),
     ([0x06, 0x03, 0xFE, 0xFF, 0xFF, 0xFF], .jz (-2)), ([0x06, 0x04, 0xFE, 0xFF, 0xFF, 0xFF], .jnz (-2)),
     ([0x06, 0x05, 0xFE, 0xFF, 0xFF, 0xFF], .jc (-2)), ([0x06, 0x06, 0xFE, 0xFF, 0xFF, 0xFF], .jnc (-2)),
     ([0x06, 0x11, 0xFE, 0xFF, 0xFF, 0xFF], .call (-2)), ([0x06, 0x12, 0x78, 0x56, 0x34, 0x12], .calla 0x12345678),
     ([0x06, 0x13, 0xFE, 0xFF, 0xFF, 0xFF], .bz (-2)), ([0x06, 0x14, 0xFE, 0xFF, 0xFF, 0xFF], .bnz (-2)),
     ([0x06, 0x15, 0xFE, 0xFF, 0xFF, 0xFF], .bc (-2)), ([0x06, 0x16, 0xFE, 0xFF, 0xFF, 0xFF], .bnc (-2)),
     ([0x06, 0x20], .ret)] = true := by decide

/-- Every word of the family, from its EXA bytes at bs = 2 (95_test_vectors.md Part 2; 30_encoding.md R94 to R96). -/
theorem test_decode_system : decodesAll .two
    [([0x00, 0x07, 0x78, 0x56, 0x34, 0x12], .int 0x12345678),
     ([0x00, 0x08, 0x78, 0x56, 0x34, 0x12, 0x00, 0x20, 0x00, 0x80], .defint 0x12345678 0x80002000),
     ([0x00, 0x05, 0x78, 0x56, 0x34, 0x12], .setivt 0x12345678),
     ([0x00, 0x09, 0x78, 0x56, 0x34, 0x12], .page 0x45678),
     ([0x00, 0x0A, 0x78, 0x56, 0x34, 0x12, 0x0D, 0xF0, 0xAD, 0x8B], .pageat 0x45678 0x8BADF00D),
     ([0x00, 0x0B, 0x78, 0x56, 0x34, 0x12], .free 0x45678), ([0x00, 0x03], .reduce), ([0x00, 0x04], .extend),
     ([0x00, 0x01], .halt), ([0x00, 0x02], .haltz)] = true := by decide

/-- Vectors M3, M5, J2, J6, Y21 and Q7: the operand size follows bs, a displacement is signed, a target is 32 bits, a
page 20 bits. -/
theorem test_decode_block_sizes :
    decodesAll .one [([0x02, 0x11, 0x34, 0x12], .ldia 0x1234), ([0x06, 0x01, 0xFE, 0xFF], .jmp (-2)),
      ([0x06, 0x01, 0x00, 0x80], .jmp (-32768)), ([0x00, 0x09, 0x45, 0x23], .page 0x2345)] = true ∧
    decodesAll .two [([0x02, 0x11, 0x34, 0x12, 0x00, 0x00], .ldia 0x1234)] = true ∧
    decodesAll .four [([0x02, 0x13, 0x08, 0x07, 0x06, 0x05, 0x04, 0x03, 0x02, 0x01], .ldiy 0x0102030405060708),
      ([0x06, 0x02, 0x00, 0x20, 0x00, 0x00, 0x01, 0x00, 0x00, 0x00], .jmpa 0x2000)] = true := by
  decide

/-- Vectors Q2 and Q7: the opcodes 0000 and FFFF are absent from EXA, and so is a byte-swapped one. -/
theorem test_decode_absent : exaTable.action 0x0000 = none ∧ exaTable.action 0xFFFF = none ∧
    exaTable.action (opcodeOf 0x11 0x02) = none := by
  decide

/-- Vector Q1: lengths. -/
theorem test_lengths : Instr.length .four .add = 2 ∧ Instr.length .one (.ldia 0) = 4 ∧
    Instr.length .two (.ldia 0) = 6 ∧ Instr.length .four (.ldia 0) = 10 ∧ Instr.length .one (.defint 0 0) = 6 ∧
    Instr.length .two (.pageat 0 0) = 10 ∧ Instr.length .four (.defint 0 0) = 18 := by
  decide

/-- The host's numbering: bits 15..0 are the opcode, the operand words follow (opcode_table.json). -/
theorem test_table_word : decodeTableWord 16 0x0101 = some .add ∧ decodeTableWord 32 0x56780301 = some (.ldba 0x5678) ∧
    decodeTableWord 48 0x2000_0010_0008 = some (.defint 0x10 0x2000) ∧ decodeTableWord 16 0x0301 = some (.ldba 0) ∧
    decodeTableWord 16 0 = none := by
  decide

/-! ## One step -/

/-- The state a step or a meaning goes on with. -/
def nextState : Host.Outcome State Fault Refusal → Option State
  | .next t => some t
  | _ => none

/-- Bytes put in mapped memory. -/
def withBytes (a : Addr) (l : List Byte) (s : State) : State := hostState (flash a l s)

/-- The step that starts at pc with these bytes there. -/
def stepOn (l : List Byte) (s : State) : Option State := nextState (step (withBytes s.pc l s))

/-- The start state of the vectors at bs = 2 (95_test_vectors.md Part 2), with page 2 mapped to frame 1, an IVT at 0x2000
and a stack at 0x3000. -/
def st : State :=
  { State.resetWith examplePlatform with
    bs := .two, pt := [(1, 0), (2, 1)], ports := 1
    stackBase := 0x3000, stackBaseValid := true, ivtBase := 0x2000, ivtBaseValid := true }

/-- `st` at bs = 1. -/
def st1 : State := { st with bs := .one }

/-- Nonzero IVT entries for the four fault vectors: handlers at 0x1040, 0x1020, 0x1030 and 0x1050. -/
def handled (s : State) : State :=
  withBytes 0x2400
    [0x40, 0x10, 0, 0, 0x20, 0x10, 0, 0, 0x30, 0x10, 0, 0, 0x50, 0x10, 0, 0] s

/-- A, C and Z after an instruction on X and Y. -/
def arith (i : Instr) (bs : BlockSize) (x y : Word) : Option (Word × Bool × Bool) :=
  (nextState (exec i { st with bs := bs, x := x, y := y })).map fun t => (t.a, t.c, t.z)

/-! ### Arithmetic, shift and compare: vectors A1 to A36 -/

theorem test_add : arith .add .one 0xFFFF 1 = some (0, true, true) ∧ arith .add .two 0xFFFF 1 = some (0x10000, false, false) ∧
    arith .add .one 0x8000 0x8000 = some (0, true, true) ∧ arith .add .one 0 0 = some (0, false, true) ∧
    arith .add .four 0xFFFFFFFFFFFFFFFF 1 = some (0, true, true) := by
  decide

theorem test_sub : arith .sub .one 5 3 = some (2, false, false) ∧ arith .sub .one 3 3 = some (0, false, true) ∧
    arith .sub .one 0 1 = some (0xFFFF, true, false) ∧ arith .sub .two 0 1 = some (0xFFFFFFFF, true, false) := by
  decide

theorem test_mul : arith .mul .one 0x100 0x100 = some (0, true, true) ∧
    arith .mul .one 0xFF 0xFF = some (0xFE01, false, false) ∧ arith .mul .one 0xFFFF 0xFFFF = some (1, true, false) ∧
    arith .mul .one 0x1234 0 = some (0, false, true) := by
  decide

theorem test_div : arith .div .one 7 2 = some (3, false, false) ∧ arith .div .one 1 2 = some (0, false, true) ∧
    arith .div .one 0xFFFF 1 = some (0xFFFF, false, false) := by
  decide

theorem test_mod : arith .mod .one 7 2 = some (1, false, false) ∧ arith .mod .one 6 3 = some (0, false, true) ∧
    arith .mod .one 2 7 = some (2, false, false) := by
  decide

/-- Vectors A18 and A22: nothing is written, pc is past the instruction, the run is over. -/
theorem test_divide_by_zero :
    (stepOn [0x01, 0x04] { st with a := 9, x := 7 }).map (fun t => (t.run, t.pc, t.a, t.c, t.z)) =
      some (.haltedFatal .divideByZero, 0x1002, 9, false, false) ∧
    (stepOn [0x01, 0x05] { st with a := 9, x := 5 }).map (fun t => (t.run, t.pc, t.a)) =
      some (.haltedFatal .divideByZero, 0x1002, 9) := by
  decide

theorem test_shl : arith .shl .one 0x8001 1 = some (2, true, false) ∧ arith .shl .one 1 0xF = some (0x8000, false, false) ∧
    arith .shl .one 1 0x10 = some (0, true, true) ∧ arith .shl .one 0 0x14 = some (0, false, true) ∧
    arith .shl .one 0x1234 0 = some (0x1234, false, false) ∧
    arith .shl .four 1 0xFFFFFFFFFFFFFFFF = some (0, true, true) := by
  decide

theorem test_shr : arith .shr .one 0x8001 0xF = some (1, false, false) ∧ arith .shr .one 0x8001 0x10 = some (0, false, true) ∧
    arith .shr .one 0xF0 4 = some (0xF, false, false) ∧ arith .shr .one 3 1 = some (1, false, false) ∧
    arith .shr .four 1 0xFFFFFFFFFFFFFFFF = some (0, false, true) := by
  decide

theorem test_compares :
    (nextState (exec (.cmpi 5) { st1 with a := 5, c := true })).map (fun t => (t.z, t.c)) = some (true, true) ∧
    (nextState (exec (.cmpi 6) { st1 with a := 5, z := true })).map (·.z) = some false ∧
    (nextState (exec .cmp { st1 with x := 3, y := 3 })).map (fun t => (t.z, t.a)) = some (true, 0) ∧
    (nextState (exec .cmp { st1 with x := 3, y := 4, z := true, c := true })).map (fun t => (t.z, t.c)) =
      some (false, true) := by
  decide

/-! ### Data movement: vectors M1 to M5, L1 to L9, T1 to T9 -/

theorem test_moves :
    (nextState (exec .movax { st with x := 5, y := 7 })).map (·.a) = some 5 ∧
    (nextState (exec .movay { st with x := 5, y := 7 })).map (·.a) = some 7 ∧
    (nextState (exec .movxa { st with a := 5, y := 7 })).map (·.x) = some 5 ∧
    (nextState (exec .movxy { st with a := 5, y := 7 })).map (·.x) = some 7 ∧
    (nextState (exec .movya { st with a := 5, x := 7 })).map (·.y) = some 5 ∧
    (nextState (exec .movyx { st with a := 5, x := 7 })).map (·.y) = some 7 := by
  decide

theorem test_immediate_loads :
    (stepOn [0x02, 0x11, 0x34, 0x12] st1).map (fun t => (t.a, t.pc)) = some (0x1234, 0x1004) ∧
    (stepOn [0x02, 0x12, 0x78, 0x56, 0x34, 0x12] st).map (fun t => (t.x, t.pc)) = some (0x12345678, 0x1006) ∧
    (stepOn [0x02, 0x13, 0x08, 0x07, 0x06, 0x05, 0x04, 0x03, 0x02, 0x01] { st with bs := .four }).map
      (fun t => (t.y, t.pc)) = some (0x0102030405060708, 0x100A) := by
  decide

/-- The memory of L1 to L9. -/
def loads (s : State) : State := withBytes 0x2000 [0x11, 0x22, 0x33, 0x44, 0x55, 0x66, 0x77, 0x88] s

theorem test_loads_a :
    (nextState (exec (.ldba 0x2000) (loads st))).map (·.a) = some 0x11 ∧
    (nextState (exec (.ldwa 0x2000) (loads st))).map (·.a) = some 0x2211 ∧
    (nextState (exec (.ldda 0x2000) (loads st))).map (·.a) = some 0x44332211 ∧
    (nextState (exec (.ldqa 0x2000) (loads st))).map (·.a) = some 0x44332211 ∧
    (nextState (exec (.ldba 0x2008) { loads st with a := 9 })).map (·.a) = some 0 := by
  decide

theorem test_loads_x :
    (nextState (exec (.ldbx 0x2001) (loads st))).map (·.x) = some 0x22 ∧
    (nextState (exec (.ldwx 0x2001) (loads st))).map (·.x) = some 0x3322 ∧
    (nextState (exec (.lddx 0x2001) (loads st))).map (·.x) = some 0x55443322 ∧
    (nextState (exec (.ldqx 0x2000) { loads st with bs := .four })).map (·.x) = some 0x8877665544332211 := by
  decide

theorem test_loads_y :
    (nextState (exec (.ldby 0x2007) (loads st))).map (·.y) = some 0x88 ∧
    (nextState (exec (.ldwy 0x2006) (loads st))).map (·.y) = some 0x8877 ∧
    (nextState (exec (.lddy 0x2004) { loads st with bs := .one })).map (·.y) = some 0x6655 ∧
    (nextState (exec (.ldqy 0x2000) { loads st with bs := .four })).map (·.y) = some 0x8877665544332211 := by
  decide

/-- L8: the fault is routed to vector 0x102 with pc past the instruction; A is unchanged. -/
theorem test_load_fault :
    (stepOn [0x03, 0x01, 0x00, 0x50, 0x00, 0x00] (handled { st with a := 9 })).map
      (fun t => (t.a, t.pc, t.stackPos, decide (HoldsBytes t 0x2FFC [0x06, 0x10, 0, 0]))) =
      some (9, 0x1030, 4, true) ∧
    (nextState (exec (.ldwa 0x2FFF) (handled { st with a := 9 }))).map (fun t => (t.a, t.pc)) = some (9, 0x1030) := by
  decide

/-- The bytes from 0x2000 on after a store, from memory full of EE. -/
def stored (i : Instr) (s : State) (l : List Byte) : Bool :=
  match nextState (exec i (withBytes 0x2000 (List.replicate 9 0xEE) s)) with
  | some t => decide (HoldsBytes t 0x2000 (l ++ List.replicate (9 - l.length) 0xEE))
  | none => false

theorem test_stores_a :
    stored (.stba 0x2000) { st with a := 0x12345678 } [0x78] = true ∧
    stored (.stwa 0x2000) { st with a := 0x12345678 } [0x78, 0x56] = true ∧
    stored (.stda 0x2000) { st with a := 0x12345678 } [0x78, 0x56, 0x34, 0x12] = true ∧
    stored (.stqa 0x2000) { st with a := 0x12345678 } [0x78, 0x56, 0x34, 0x12, 0, 0, 0, 0] = true := by
  decide

theorem test_stores_x :
    stored (.stbx 0x2000) { st with x := 0x12345678 } [0x78] = true ∧
    stored (.stwx 0x2000) { st with x := 0x12345678 } [0x78, 0x56] = true ∧
    stored (.stdx 0x2000) { st1 with x := 0xABCD } [0xCD, 0xAB, 0, 0] = true ∧
    stored (.stqx 0x2000) { st with x := 0x12345678 } [0x78, 0x56, 0x34, 0x12, 0, 0, 0, 0] = true := by
  decide

theorem test_stores_y :
    stored (.stby 0x2000) { st with y := 0x12345678 } [0x78] = true ∧
    stored (.stwy 0x2000) { st with y := 0x12345678 } [0x78, 0x56] = true ∧
    stored (.stdy 0x2000) { st with y := 0x12345678 } [0x78, 0x56, 0x34, 0x12] = true ∧
    stored (.stqy 0x2000) { st with bs := .four, y := 0x0102030405060708 } [8, 7, 6, 5, 4, 3, 2, 1] = true := by
  decide

/-- T6: the bytes before the faulting one stay. -/
theorem test_store_fault :
    (nextState (exec (.stdx 0x2FFE) { handled st with x := 0x12345678, stackBase := 0x2F00, pc := 0x1006 })).map
      (fun t => (t.pc, decide (HoldsBytes t 0x2FFE [0x78, 0x56]), decide (HoldsBytes t 0x2EFC [0x06, 0x10, 0, 0]))) =
      some (0x1030, true, true) := by
  decide

/-- T7 and T8. -/
theorem test_port_store :
    (nextState (exec (.stba 0xFFFFF000) { st with a := 0x41 })).map (fun t => (t.portLog, t.frames)) =
      some ([.write 0 0x41], []) ∧
    (nextState (exec (.stba 0xFFFFF001) { st with a := 0x41 })).map (·.run) = some (.haltedFatal .noPort) := by
  decide

/-- Program P6: a port read is a draw, and one call. -/
theorem test_port_load :
    (nextState (exec (.ldbx 0xFFFFF000) st)).map (fun t => (t.x, t.draws, t.portLog)) =
      some (BitVec.ofNat 64 ((Config.deviceRead 0).toNat % 2 ^ 32), 1, [.read 0 (Config.deviceRead 0)]) := by
  rfl

/-! ### Stack: vectors K1 to K9 -/

theorem test_pushes :
    (nextState (exec .pusha { st with a := 0x12345678 })).map
      (fun t => (t.stackPos, decide (HoldsBytes t 0x2FFC [0x78, 0x56, 0x34, 0x12]))) = some (4, true) ∧
    (nextState (exec .pushx { st1 with x := 0x1111 })).map
      (fun t => (t.stackPos, decide (HoldsBytes t 0x2FFE [0x11, 0x11]))) = some (2, true) ∧
    (nextState (exec .pushy { st1 with y := 0x2222, stackPos := 2 })).map
      (fun t => (t.stackPos, decide (HoldsBytes t 0x2FFC [0x22, 0x22, 0, 0]))) = some (4, true) ∧
    (nextState (exec .pusha { st with stackBaseValid := false })).map (fun t => (t.run, t.stackPos)) =
      some (.haltedFatal .unsetBase, 0) := by
  decide

theorem test_pops :
    (nextState (exec .popa (withBytes 0x2FFC [0x22, 0x22, 0x11, 0x11] { st1 with stackPos := 4 }))).map
      (fun t => (t.a, t.stackPos)) = some (0x2222, 2) ∧
    (nextState (exec .popx (withBytes 0x2FF8 [8, 7, 6, 5, 4, 3, 2, 1] { st1 with stackPos := 8 }))).map
      (fun t => (t.x, t.stackPos)) = some (0x0708, 6) ∧
    (nextState (exec .popy (withBytes 0x2FFC [0x78, 0x56, 0x34, 0x12] { st with stackPos := 4 }))).map
      (fun t => (t.y, t.stackPos)) = some (0x12345678, 0) ∧
    (nextState (exec .popa { st with a := 9, pt := [(1, 0), (2, 1), (3, 2)] })).map (fun t => (t.a, t.stackPos)) =
      some (0, 0xFFFFFFFC) := by
  decide

/-- K8: A and stack_pos stay; the router's push then takes the slot below. -/
theorem test_pop_fault :
    (nextState (exec .popa (handled { st with a := 9, pc := 0x1002 }))).map (fun t => (t.a, t.pc, t.stackPos)) =
      some (9, 0x1030, 4) := by
  decide

theorem test_setstack :
    (stepOn [0x00, 0x06, 0x00, 0x30, 0x00, 0x00] { st with stackBaseValid := false, stackBase := 0, stackPos := 8 }).map
      (fun t => (t.stackBase, t.stackBaseValid, t.stackPos)) = some (0x3000, true, 0) := by
  decide

/-! ### Control transfer: vectors J1 to J20 -/

theorem test_jmp :
    (stepOn [0x06, 0x01, 0x00, 0x00] st1).map (·.pc) = some 0x1000 ∧
    (stepOn [0x06, 0x01, 0xFE, 0xFF] st1).map (·.pc) = some 0x0FFE ∧
    (nextState (exec (.jmp (-32768)) { st1 with start := 0x9000 })).map (·.pc) = some 0x1000 ∧
    (nextState (exec (.jmp (-4)) { st1 with start := 0 })).map (·.pc) = some 0xFFFFFFFC := by
  decide

theorem test_jmpa :
    (stepOn [0x06, 0x02, 0x00, 0x20] st1).map (·.pc) = some 0x2000 ∧
    (stepOn [0x06, 0x02, 0x00, 0x20, 0, 0, 1, 0, 0, 0] { st with bs := .four }).map (·.pc) = some 0x2000 := by
  decide

theorem test_conditional_jumps :
    (stepOn [0x06, 0x03, 0x08, 0x00] { st1 with z := true }).map (·.pc) = some 0x1008 ∧
    (stepOn [0x06, 0x03, 0x08, 0x00] st1).map (·.pc) = some 0x1004 ∧
    (stepOn [0x06, 0x04, 0xFC, 0xFF] { st1 with pc := 0x100C }).map (·.pc) = some 0x1008 ∧
    (stepOn [0x06, 0x04, 0xFC, 0xFF] { st1 with pc := 0x100C, z := true }).map (·.pc) = some 0x1010 ∧
    (stepOn [0x06, 0x05, 0x10, 0, 0, 0] { st with c := true }).map (·.pc) = some 0x1010 ∧
    (stepOn [0x06, 0x05, 0x10, 0, 0, 0] { st with z := true }).map (·.pc) = some 0x1006 ∧
    (stepOn [0x06, 0x06, 0x10, 0, 0, 0] { st with c := true }).map (·.pc) = some 0x1006 ∧
    (stepOn [0x06, 0x06, 0x10, 0, 0, 0] { st with z := true }).map (·.pc) = some 0x1010 := by
  decide

theorem test_calls :
    (stepOn [0x06, 0x11, 0x08, 0, 0, 0] { st with pc := 0x1018 }).map
      (fun t => (t.pc, t.stackPos, decide (HoldsBytes t 0x2FFC [0x1E, 0x10, 0, 0]))) = some (0x1020, 4, true) ∧
    (stepOn [0x06, 0x12, 0x00, 0x15] st1).map
      (fun t => (t.pc, t.stackPos, decide (HoldsBytes t 0x2FFC [0x04, 0x10, 0, 0]))) = some (0x1500, 4, true) ∧
    (stepOn [0x06, 0x11, 0x08, 0, 0, 0] { st with stackBaseValid := false }).map (fun t => (t.run, t.pc)) =
      some (.haltedFatal .unsetBase, 0x1006) := by
  decide

theorem test_conditional_calls :
    (stepOn [0x06, 0x13, 0x20, 0x00] st1).map (fun t => (t.pc, t.stackPos)) = some (0x1004, 0) ∧
    (stepOn [0x06, 0x13, 0x20, 0x00] { st1 with z := true }).map
      (fun t => (t.pc, decide (HoldsBytes t 0x2FFC [0x04, 0x10, 0, 0]))) = some (0x1020, true) ∧
    (stepOn [0x06, 0x14, 0x20, 0x00] { st1 with c := true }).map (fun t => (t.pc, t.stackPos)) = some (0x1020, 4) ∧
    (stepOn [0x06, 0x14, 0x20, 0x00] { st1 with z := true }).map (fun t => (t.pc, t.stackPos)) = some (0x1004, 0) ∧
    (stepOn [0x06, 0x15, 0x20, 0x00] { st1 with c := true }).map (fun t => (t.pc, t.stackPos)) = some (0x1020, 4) ∧
    (stepOn [0x06, 0x15, 0x20, 0x00] { st1 with z := true }).map (fun t => (t.pc, t.stackPos)) = some (0x1004, 0) ∧
    (stepOn [0x06, 0x16, 0x20, 0x00] { st1 with c := true }).map (fun t => (t.pc, t.stackPos)) = some (0x1004, 0) ∧
    (stepOn [0x06, 0x16, 0x20, 0x00] { st1 with z := true }).map (fun t => (t.pc, t.stackPos)) = some (0x1020, 4) := by
  decide

theorem test_ret :
    (nextState (exec .ret (withBytes 0x2FFC [0x1E, 0x10, 0, 0] { st with stackPos := 4 }))).map
      (fun t => (t.pc, t.stackPos)) = some (0x101E, 0) ∧
    (nextState (exec .ret (withBytes 0x2FFC [0x1E, 0x10, 0, 0] { st with bs := .four, stackPos := 4 }))).map
      (fun t => (t.pc, t.stackPos)) = some (0x101E, 0) := by
  decide

/-- J18. -/
theorem test_ret_fault :
    (stepOn [0x06, 0x20] (handled st)).map
      (fun t => (t.pc, t.stackPos, decide (HoldsBytes t 0x2FFC [0x02, 0x10, 0, 0]))) = some (0x1030, 4, true) := by
  decide

/-! ### System: vectors Y1 to Y21 -/

theorem test_setivt :
    (stepOn [0x00, 0x05, 0x00, 0x20, 0, 0] { st with ivtBase := 0, ivtBaseValid := false }).map
      (fun t => (t.ivtBase, t.ivtBaseValid)) = some (0x2000, true) := by
  decide

theorem test_defint :
    (stepOn [0x00, 0x08, 0x10, 0, 0, 0, 0x00, 0x20, 0, 0] st).map (fun t => decide (HoldsBytes t 0x2040 [0, 0x20, 0, 0]))
      = some true ∧
    (nextState (exec (.defint 0x200 0x1234) st)).map (fun t => decide (HoldsBytes t 0x2800 [0x34, 0x12, 0, 0])) =
      some true := by
  decide

theorem test_defint_overflow :
    (nextState (exec (.defint 0x201 0x1234) (handled st))).map
      (fun t => (t.pc, decide (HoldsBytes t 0x2804 [0, 0, 0, 0]))) = some (0x1050, true) ∧
    (nextState (exec (.defint 0x201 0x1234) { st with ivtBaseValid := false })).map (·.run) =
      some (.haltedFatal .unsetBase) := by
  decide

theorem test_int :
    (stepOn [0x00, 0x07, 0x10, 0, 0, 0] (withBytes 0x2040 [0, 0x15, 0, 0] st)).map
      (fun t => (t.pc, t.stackPos, decide (HoldsBytes t 0x2FFC [0x06, 0x10, 0, 0]))) = some (0x1500, 4, true) ∧
    (stepOn [0x00, 0x07, 0x02, 0x01, 0, 0] (handled st)).map (fun t => (t.pc, t.stackPos)) = some (0x1030, 4) := by
  decide

/-- Y7, Y8, Y9. -/
theorem test_int_zero_entry :
    (stepOn [0x00, 0x07, 0x10, 0, 0, 0] (handled st)).map (fun t => (t.pc, t.stackPos)) = some (0x1040, 4) ∧
    (stepOn [0x00, 0x07, 0x00, 0x02, 0, 0] (handled st)).map (fun t => (t.pc, t.stackPos)) = some (0x1006, 0) ∧
    (stepOn [0x00, 0x07, 0x10, 0, 0, 0] { st with ivtBaseValid := false }).map (·.run) =
      some (.haltedFatal .unsetBase) := by
  decide

theorem test_page :
    (stepOn [0x00, 0x09, 0x02, 0, 0, 0] { st with pt := [(1, 0)] }).map (·.pt) = some [(1, 0), (2, 1)] ∧
    (nextState (exec (.page 5) { st with pt := [(2, 1), (6, 2)] })).map (·.pt) = some [(2, 1), (5, 0), (6, 2)] := by
  decide

theorem test_pageat :
    (nextState (exec (.pageat 3 1) st)).map (·.pt) = some [(1, 0), (2, 1), (3, 1)] ∧
    (nextState (exec (.pageat 4 0xFFFFFFFF) st)).map (fun t => (t.run, t.pt)) =
      some (.haltedFatal .reservedFrame, [(1, 0), (2, 1)]) := by
  decide

theorem test_free :
    (nextState (exec (.free 1) (loads { st with pt := [(1, 0), (2, 1), (6, 2)] }))).map
      (fun t => (t.pt, t.frames.length)) = some ([(2, 1), (6, 2)], 8) ∧
    (nextState (exec (.free 7) st)).map (·.pt) = some [(1, 0), (2, 1)] := by
  decide

theorem test_reduce :
    (nextState (exec .reduce { st with a := 0x12345, x := 0xFFFFFFFF })).map (fun t => (t.bs, t.a, t.x)) =
      some (.one, 0x2345, 0xFFFF) ∧
    (nextState (exec .reduce { st1 with a := 7 })).map (fun t => (t.bs, t.a)) = some (.one, 7) := by
  decide

theorem test_extend :
    (nextState (exec .extend { st with a := 0x12345678 })).map (fun t => (t.bs, t.a)) = some (.four, 0x12345678) ∧
    (nextState (exec .extend { st with bs := .four })).map (·.bs) = some .four := by
  decide

theorem test_host_reset : hostReset { st with a := 5, run := .haltedBy .halt } = State.resetWith examplePlatform := by
  rfl

theorem test_halts :
    (stepOn [0x00, 0x01] { st with pc := 0x1010 }).map (fun t => (t.run, t.pc)) = some (.haltedBy .halt, 0x1012) ∧
    (stepOn [0x00, 0x02] { st with pc := 0x1022 }).map (fun t => (t.run, t.pc)) = some (.haltedBy .haltz, 0x1024) := by
  decide

/-! ### The cycle and the router: vectors Q2 to Q7, F2 to F7 -/

theorem test_unknown_opcode :
    (stepOn [0xFF, 0xFF] (handled { st1 with pc := 0x100C })).map
      (fun t => (t.pc, decide (HoldsBytes t 0x2FFC [0x0E, 0x10, 0, 0]))) = some (0x1020, true) ∧
    (stepOn [0xFF, 0xFF] { st1 with pc := 0x100C }).map (fun t => (t.run, t.pc, t.stackPos)) =
      some (.haltedFatal .noHandler, 0x100E, 0) ∧
    (stepOn [0xFF, 0xFF] (withBytes 0x2400 [0x40, 0x10, 0, 0]
        { st1 with pc := 0x100C, cfg := { examplePlatform with missingVector := .escalate } })).map
      (fun t => (t.pc, decide (HoldsBytes t 0x2FFC [0x0E, 0x10, 0, 0]))) = some (0x1040, true) := by
  decide

/-- Q5 and Q6, with the IVT and the stack in page 3. -/
theorem test_fetch_faults :
    (stepOn [0x02, 0x11] (withBytes 0x3408 [0x30, 0x10, 0, 0]
        { st1 with pc := 0x1FFE, pt := [(1, 0), (3, 1)], ivtBase := 0x3000, stackBase := 0x3100 })).map
      (fun t => (t.pc, t.start, decide (HoldsBytes t 0x30FC [0x00, 0x20, 0, 0]))) = some (0x1030, 0x1FFE, true) ∧
    (stepOn [0x02] (withBytes 0x3408 [0x30, 0x10, 0, 0]
        { st1 with pc := 0x1FFF, pt := [(1, 0), (3, 1)], ivtBase := 0x3000, stackBase := 0x3100 })).map
      (fun t => (t.pc, decide (HoldsBytes t 0x30FC [0xFF, 0x1F, 0, 0]))) = some (0x1030, true) := by
  decide

/-- F2, F3 and F7. -/
theorem test_router_bases :
    (stepOn [0x00, 0x00] { st with ivtBaseValid := false }).map (·.run) = some (.haltedFatal .unsetBase) ∧
    (stepOn [0x00, 0x00] (handled { st with stackBaseValid := false })).map (fun t => (t.run, t.routing)) =
      some (.haltedFatal .unsetBase, none) ∧
    (stepOn [0x00, 0x00] { st with ivtBase := 0x5000 }).map (·.run) = some (.haltedFatal .doubleFault) := by
  decide

/-- F4, F5 and F6. -/
theorem test_router_double_fault :
    (stepOn [0x05, 0x01] (handled { st with stackBase := 0x5000 })).map (fun t => (t.run, t.stackPos)) =
      some (.haltedFatal .doubleFault, 12) ∧
    (stepOn [0x05, 0x01] (withBytes 0x2408 [0x30, 0x10, 0, 0] { st with stackBase := 0x5000 })).map
      (fun t => (t.run, t.stackPos)) = some (.haltedFatal .noHandler, 8) ∧
    (stepOn [0x05, 0x01] (handled
        { st with stackBase := 0x5000, cfg := { examplePlatform with routerFault := .fatal } })).map
      (fun t => (t.run, t.stackPos)) = some (.haltedFatal .doubleFault, 8) := by
  decide

/-- The host's placing of one instruction after reset: a page is mapped, and the step runs the instruction. -/
theorem test_with_fetch_word :
    (nextState (step (State.reset.withFetchWord 32 0x12340211))).map (fun t => (t.a, t.pc, t.pt)) =
      some (0x1234, 0x1004, [(1, 0)]) := by
  decide

/-! ## Witnesses: states and operands that meet the hypotheses of each statement, clause by clause, at the edges of
their ranges. The statement a theorem belongs to stands after `test_witness_`. -/

theorem test_witness_DecodeOfEncode :
    (Instr.jmp (-32768)).wellFormed .one = true ∧ encode exaTable .one (.jmp (-32768)) = some [0x06, 0x01, 0x00, 0x80] ∧
    (Instr.jmp 32767).wellFormed .one = true ∧ encode exaTable .one (.jmp 32767) = some [0x06, 0x01, 0xFF, 0x7F] ∧
    (Instr.defint 0xFFFF 0).wellFormed .one = true ∧
    encode exaTable .one (.defint 0xFFFF 0) = some [0x00, 0x08, 0xFF, 0xFF, 0x00, 0x00] ∧
    (Instr.ldia 0xFFFFFFFFFFFFFFFF).wellFormed .four = true ∧
    encode exaTable .four (.ldia 0xFFFFFFFFFFFFFFFF) = some ([0x02, 0x11] ++ List.replicate 8 0xFF) := by
  decide

theorem test_witness_DecodedInstruction :
    decode exaTable .one [0x00, 0x08, 0xFF, 0xFF, 0x00, 0x00, 0x01] = .ok (.defint 0xFFFF 0, [0x01]) := by
  rfl

/-- The two operand words sit on both sides of the sign of a displacement. -/
theorem test_witness_OperandReduction :
    [0xFF, 0x7F].length = 2 * BlockSize.one.count ∧ [0x00, 0x80].length = 2 * BlockSize.one.count ∧
    exaTable.action (opcodeOf 0x02 0x11) = some .ldia ∧ exaTable.action (opcodeOf 0x03 0x01) = some .ldba ∧
    exaTable.action (opcodeOf 0x06 0x02) = some .jmpa ∧ exaTable.action (opcodeOf 0x06 0x01) = some .jmp ∧
    exaTable.action (opcodeOf 0x00 0x07) = some .int ∧ exaTable.action (opcodeOf 0x00 0x09) = some .page ∧
    exaTable.action (opcodeOf 0x00 0x0A) = some .pageat ∧ exaTable.action (opcodeOf 0xFF 0xFF) = none := by
  decide

/-- `st` with the page below the device page mapped, no ports, and pc at `a`. -/
def belowPorts (a : Addr) : State := { st with pc := a, pt := [(0xFFFFE, 0)], ports := 0 }

theorem test_witness_StepRunsDecoded :
    ∃ s : State, s.run = .running ∧ HoldsBytes s s.pc [0x02, 0x11, 0x78, 0x56, 0x34, 0x12] ∧
      decode s.cfg.opTable s.bs [0x02, 0x11, 0x78, 0x56, 0x34, 0x12] = .ok (.ldia 0x12345678, []) :=
  ⟨withBytes 0x1000 [0x02, 0x11, 0x78, 0x56, 0x34, 0x12] st, rfl, by decide, rfl⟩

/-- `st` with pc at the first of 4096 ports, whose draws are an opcode of `act`. -/
def devicePc (act : Action) : State :=
  { st with
    pc := 0xFFFFF000, ports := 4096
    cfg := { examplePlatform with opTable := [(opcodeOf (Config.deviceRead 0) (Config.deviceRead 1), act)] } }

/-- `devicePc act` once the first `n` ports have been read. -/
def devicePcRead (act : Action) (n : Nat) : State :=
  { devicePc act with
    draws := n, portLog := ((List.range n).map fun i => .read i (Config.deviceRead i)).reverse }

/-- A fetch through device ports for each format: the opcode's bytes and the operand words are draws. -/
theorem test_witness_StepRunsDecoded_ports (act : Action) : (devicePc act).run = .running ∧
    load 0xFFFFF000 (devicePc act) = .ok (Config.deviceRead 0) (devicePcRead act 1) ∧
    load (0xFFFFF000 + 1#32) (devicePcRead act 1) = .ok (Config.deviceRead 1) (devicePcRead act 2) ∧
    (devicePc act).cfg.opTable.action (opcodeOf (Config.deviceRead 0) (Config.deviceRead 1)) = some act ∧
    (∃ v, memRead (0xFFFFF000 + 2#32) (2 * BlockSize.two.count) (devicePcRead act 2) = .ok v (devicePcRead act 6)) ∧
    ∃ v, memRead (0xFFFFF000 + BitVec.ofNat 32 (2 + 2 * BlockSize.two.count)) (2 * BlockSize.two.count)
      (devicePcRead act 6) = .ok v (devicePcRead act 10) :=
  ⟨rfl, rfl, rfl, by simp [devicePc, OpTable.action], ⟨_, rfl⟩, _, rfl⟩

theorem test_witness_StepRunsDecoded_formats : (Action.add.format .two = .f0 .add) ∧
    (Action.ldba.format .two = .f1 fun v => .ldba (BitVec.ofNat 32 v)) ∧
    Action.pageat.format .two = .f2 fun v w => .pageat (BitVec.ofNat 20 v) (BitVec.ofNat 64 w) := ⟨rfl, rfl, rfl⟩

/-- The first or the second byte of an opcode in an unmapped page, or at an absent port: the first port that is absent,
and the first port of none, after a byte of the page below. -/
theorem test_witness_FetchFaults :
    (st.run = .running ∧ Machine.translate { st with pc := 0x0FFF } 0x0FFF = .unmapped) ∧
    load 0x2FFF { st with pc := 0x2FFF } = .ok 0 { st with pc := 0x2FFF } ∧
    Machine.translate { st with pc := 0x2FFF } 0x3000 = .unmapped ∧
    Machine.translate { st with pc := 0xFFFFF001 } 0xFFFFF001 = .port 1 ∧ st.ports ≤ 1 ∧
    load 0xFFFFEFFF (belowPorts 0xFFFFEFFF) = .ok 0 (belowPorts 0xFFFFEFFF) ∧
    Machine.translate (belowPorts 0xFFFFEFFF) (0xFFFFEFFF + 1#32) = .port 0 ∧ (belowPorts 0xFFFFEFFF).ports ≤ 0 := by
  decide

theorem test_witness_FetchFaults_ports : ∃ b t, load 0xFFFFF000 { st with pc := 0xFFFFF000 } = .ok b t ∧
    translate t (0xFFFFF000 + 1#32) = .port 1 ∧ t.ports ≤ 1 :=
  ⟨_, _, rfl, by decide, by decide⟩

/-- `s` with an opcode at `a`, and pc at it. -/
def opcodeAt (s : State) (a : Addr) (op : Opcode) : State :=
  withBytes a [BitVec.ofNat 8 (op.toNat / 256), BitVec.ofNat 8 op.toNat] { s with pc := a }

/-- The hypotheses of `OperandFault` for the entry `e` of EXA, with `j` operand words and `i` bytes read, where the next
byte is at the place `p`. -/
def operandFaults (s : State) (p : Place) (a : Addr) (j i : Nat) (e : Opcode × Action) : Bool :=
  let s := opcodeAt s a e.1
  decide (load a s = .ok (BitVec.ofNat 8 (e.1.toNat / 256)) s) &&
  decide (load (a + 1#32) s = .ok (BitVec.ofNat 8 e.1.toNat) s) &&
  decide (s.cfg.opTable.action (opcodeOf (BitVec.ofNat 8 (e.1.toNat / 256)) (BitVec.ofNat 8 e.1.toNat)) = some e.2) &&
  decide (j < (e.2.format s.bs).count ∧ i < 2 * s.bs.count) &&
  decide (memRead (a + 2#32) (j * (2 * s.bs.count) + i) s = .ok 0 s) &&
  decide (translate s (a + BitVec.ofNat 32 (2 + j * (2 * s.bs.count) + i)) = p)

/-- Every action with an operand, at the first and the last byte of its operand, in an unmapped page. -/
theorem test_witness_OperandFault :
    (exaTable.all fun e => (e.2.format .two).count == 0 ||
      (operandFaults st .unmapped 0x2FFE 0 0 e && operandFaults st .unmapped 0x2FFB 0 3 e)) = true := by
  decide

/-- The same at an absent port. -/
theorem test_witness_OperandFault_ports :
    (exaTable.all fun e => (e.2.format .two).count == 0 ||
      (operandFaults (belowPorts 0) (.port 0) 0xFFFFEFFE 0 0 e &&
        operandFaults (belowPorts 0) (.port 0) 0xFFFFEFFB 0 3 e)) = true := by
  decide

/-- The second operand of the two-operand actions. -/
theorem test_witness_OperandFault_second :
    ([(0x0008#16, Action.defint), (0x000A#16, Action.pageat)].all fun e =>
      operandFaults st .unmapped 0x2FFA 1 0 e && operandFaults st .unmapped 0x2FF7 1 3 e &&
      operandFaults (belowPorts 0) (.port 0) 0xFFFFEFFA 1 0 e &&
      operandFaults (belowPorts 0) (.port 0) 0xFFFFEFF7 1 3 e) = true := by
  decide

theorem test_witness_UnknownOpcodeRaises :
    st.run = .running ∧ load st.pc st = .ok 0 st ∧ load (st.pc + 1#32) st = .ok 0 st ∧
    st.cfg.opTable.action (opcodeOf 0 0) = none := by
  decide

theorem test_witness_StepEnabled : st.run = .running ∧ { st with run := .haltedBy .halt }.run ≠ .running ∧
    (State.resetWith { examplePlatform with ivtMaxId := 0 }).run = .running := by
  decide

/-- Also for `StoreByte`: the first and the last port, the first absent one, the pages beside the device page. -/
theorem test_witness_LoadByte :
    ((0xFFFFF000#32).toNat / 4096 = st.cfg.devicePage.toNat ∧ (0xFFFFF000#32).toNat % 4096 < st.ports) ∧
    ((0xFFFFFFFF#32).toNat / 4096 = st.cfg.devicePage.toNat ∧ (0xFFFFFFFF#32).toNat % 4096 < { st with ports := 4096 }.ports) ∧
    st.ports ≤ (0xFFFFF001#32).toNat % 4096 ∧ { st with ports := 0 }.ports ≤ (0xFFFFF000#32).toNat % 4096 ∧
    ((0xFFFFEFFF#32).toNat / 4096 ≠ st.cfg.devicePage.toNat ∧ mapGet st.pt ((0xFFFFEFFF#32).toNat / 4096) = none) ∧
    mapGet st.pt ((0x0FFF#32).toNat / 4096) = none ∧ mapGet st.pt ((0x1000#32).toNat / 4096) = some 0 ∧
    mapGet st.pt ((0x2FFF#32).toNat / 4096) = some 1 ∧ (0x2FFF#32).toNat / 4096 ≠ st.cfg.devicePage.toNat := by
  decide

theorem test_witness_MemReadAscending :
    (∃ v t, memRead 0x2FFE 1 st = .ok v t ∧ ∃ b, load 0x2FFF t = .ok b t) ∧
    (∃ v t, memRead 0x2FFE 2 st = .ok v t ∧ load (0x2FFE + BitVec.ofNat 32 2) t = .raise .pageFault t) ∧
    ∃ v t, memRead 0xFFFFF000 1 st = .ok v t ∧ load (0xFFFFF000 + BitVec.ofNat 32 1) t = .fatal .noPort t :=
  ⟨⟨_, _, rfl, _, rfl⟩, ⟨_, _, rfl, rfl⟩, ⟨_, _, rfl, rfl⟩⟩

theorem test_witness_MemWriteAscending :
    (∃ t u, memWrite 0x2FFE 1 0x1234 st = .ok () t ∧ store 0x2FFF 0x12 t = .ok () u) ∧
    (∃ t, memWrite 0x2FFE 2 0x1234 st = .ok () t ∧
      store (0x2FFE + BitVec.ofNat 32 2) (BitVec.ofNat 8 (0x1234 / 2 ^ (8 * 2))) t = .raise .pageFault t) ∧
    ∃ t, memWrite 0xFFFFF000 1 0x1234 st = .ok () t ∧
      store (0xFFFFF000 + BitVec.ofNat 32 1) (BitVec.ofNat 8 (0x1234 / 2 ^ (8 * 1))) t = .fatal .noPort t :=
  ⟨⟨_, _, rfl, rfl⟩, ⟨_, rfl, rfl⟩, ⟨_, rfl, rfl⟩⟩

/-- Eight bytes at the end of a page, across two pages, and none at all. -/
theorem test_witness_WriteThenRead : InMemory st 0x2FF8 8 ∧ InMemory st 0x1FFC 8 ∧ InMemory st 0x5000 0 ∧
    Apart st 0x2FF8 8 0x2FF7 ∧ Apart st 0x1FFC 8 0x1FFB := by
  decide

theorem test_witness_AliasedPages :
    (2#20 ≠ st.cfg.devicePage ∧ 3#20 ≠ st.cfg.devicePage ∧ mapGet st.pt (2#20).toNat = some 1 ∧
      mapGet { st with pt := [(1, 0), (2, 1), (3, 1)] }.pt (3#20).toNat = some 1) ∧
    1 ≠ st.cfg.deviceFrame ∧ FrameExists { st with cfg := { examplePlatform with numFrames := some 2 } } 1 ∧
    load (2#20 ++ 0xFFF#12) st = .ok 0 st := by
  refine ⟨by decide, by decide, ?_, by decide⟩
  rintro n ⟨⟩
  decide

/-- One access on the first port alone, and eight bytes that end at the last of 4096 ports. -/
theorem test_witness_ConsecutivePorts :
    (0xFFFFF000#32).toNat = st.cfg.devicePage.toNat * 4096 + 0 ∧ 0 + 1 ≤ st.ports ∧
    (0xFFFFFFF8#32).toNat = st.cfg.devicePage.toNat * 4096 + 4088 ∧ 4088 + 8 ≤ 4096 ∧
    4088 + 8 ≤ { st with ports := 4096 }.ports := by
  decide

/-- LowestFree is 2 here: it lies below a NUM_FRAMES of 3 and not below one of 2. -/
theorem test_witness_LowestFreeFrame :
    mapSorted st.pt ∧ lowestFree st = 2 ∧
    FrameExists { st with cfg := { examplePlatform with numFrames := some 3 } } 2 ∧
    ¬ FrameExists { st with cfg := { examplePlatform with numFrames := some 2 } } 2 := by
  refine ⟨by decide, by decide, ?_, fun h => absurd (h 2 rfl) (by decide)⟩
  rintro n ⟨⟩
  decide

/-- Also for `PushThenPop`: the widest push, none, and the narrowest slot above an unmapped page. -/
theorem test_witness_PushRule : { st with stackBaseValid := false }.stackBaseValid = false ∧ st.stackBaseValid = true ∧
    CanPush 8 st ∧ CanPush 0 st ∧ CanPush 8 { st with stackPos := 0x1FF8 } := by
  decide

theorem test_witness_PopRule :
    st.stackBaseValid = true ∧ { st with stackBaseValid := false }.stackBaseValid = false ∧
    memRead ({ st with stackPos := 8 }.stackBase - { st with stackPos := 8 }.stackPos) 8 { st with stackPos := 8 } =
      .ok 0 { st with stackPos := 8 } ∧
    memRead (st.stackBase - st.stackPos) 1 st = .raise .pageFault st ∧
    memRead ({ st with stackBase := 0xFFFFF001 }.stackBase - { st with stackBase := 0xFFFFF001 }.stackPos) 1
      { st with stackBase := 0xFFFFF001 } = .fatal .noPort { st with stackBase := 0xFFFFF001 } := by
  decide

/-- IVT_MAX_ID is 512: 512 is in range, 513 is not. -/
theorem test_witness_RegisterIntRule : st.cfg.ivtMaxId < 513 ∧ 512 ≤ st.cfg.ivtMaxId ∧ st.ivtBaseValid = true ∧
    { st with ivtBaseValid := false }.ivtBaseValid = false ∧
    InMemory st (st.ivtBase + BitVec.ofNat 32 (4 * 512)) 4 ∧ InMemory st (st.ivtBase + BitVec.ofNat 32 (4 * 0)) 4 := by
  decide

/-- Zero entries on both sides of 0x100, an entry that is not 0, one in an unmapped page, one in a port that is
absent. -/
theorem test_witness_FindIntRule :
    st.ivtBaseValid = true ∧ { st with ivtBaseValid := false }.ivtBaseValid = false ∧
    memRead (st.ivtBase + BitVec.ofNat 32 (4 * 0xFF)) 4 st = .ok 0 st ∧
    memRead (st.ivtBase + BitVec.ofNat 32 (4 * 0x100)) 4 st = .ok 0 st ∧
    memRead ((handled st).ivtBase + BitVec.ofNat 32 (4 * 0x100)) 4 (handled st) = .ok 0x1040 (handled st) ∧
    memRead (st.ivtBase + BitVec.ofNat 32 (4 * 0x400)) 4 st = .raise .pageFault st ∧
    memRead ({ st with ivtBase := 0xFFFFF004 }.ivtBase + BitVec.ofNat 32 (4 * 0)) 4 { st with ivtBase := 0xFFFFF004 } =
      .fatal .noPort { st with ivtBase := 0xFFFFF004 } := by
  decide

/-- A target that is not 0 below 0x100, and a zero target at 0x100 and at IVT_MAX_ID. -/
theorem test_witness_RegisterThenFind :
    0xFF ≤ st.cfg.ivtMaxId ∧ st.ivtBaseValid = true ∧ InMemory st (st.ivtBase + BitVec.ofNat 32 (4 * 0xFF)) 4 ∧
    1#32 ≠ 0 ∧ InMemory st (st.ivtBase + BitVec.ofNat 32 (4 * 0x100)) 4 ∧ 512 ≤ st.cfg.ivtMaxId ∧
    InMemory st (st.ivtBase + BitVec.ofNat 32 (4 * 512)) 4 := by
  decide

/-- The four fault kinds. -/
def kinds : List FaultKind := [.undefinedInterrupt, .unknownOpcode, .pageFault, .ivtOverflow]

/-- Also for `IntEntersAsFault` and `RetResumes`: for each kind, an entry that is not 0 and a stack. -/
theorem test_witness_RouterEnters :
    (handled st).ivtBaseValid = true ∧ (handled st).routing = none ∧ CanPush 4 (handled st) ∧
    ∀ p ∈ kinds.zip [[0x40#8, 0x10, 0, 0], [0x20#8, 0x10, 0, 0], [0x30#8, 0x10, 0, 0], [0x50#8, 0x10, 0, 0]],
      p.2.length = 4 ∧ leValue p.2 ≠ 0 ∧
        HoldsBytes (handled st) ((handled st).ivtBase + BitVec.ofNat 32 (4 * vector p.1)) p.2 := by
  decide

/-- `Enters` through memory, for each kind; with the slot in the device page; and with the entry there, whose four draws
are the handler's address (a statement on the draws alone, since no value of a draw is known). -/
theorem test_witness_Enters :
    (∀ k ∈ kinds, ∃ t, nextState (finish (.raise k (handled st))) = some t ∧ Enters (vector k) (handled st) t) ∧
    (∃ t, Enters 0x102 (handled { st with stackBase := 0xFFFFF004, ports := 4 }) t ∧ t.portLog.length = 4) ∧
    ∃ v u, memRead (entryAt 0x102 { st with ivtBase := 0xFFFFEBF8, ports := 4 }) 4
        { st with ivtBase := 0xFFFFEBF8, ports := 4 } = .ok v u ∧
      (v ≠ 0 → ∃ t, Enters 0x102 { st with ivtBase := 0xFFFFEBF8, ports := 4 } t ∧ t.pc = BitVec.ofNat 32 v) := by
  refine ⟨fun k _ => ?_, ⟨_, ⟨rfl, 0x1030, _, _, rfl, by decide, rfl, rfl⟩, rfl⟩, _, _, rfl,
    fun h => ⟨_, ⟨rfl, _, _, _, rfl, h, rfl, rfl⟩, rfl⟩⟩
  cases k
  · exact ⟨_, rfl, rfl, 0x1040, _, _, rfl, by decide, rfl, rfl⟩
  · exact ⟨_, rfl, rfl, 0x1020, _, _, rfl, by decide, rfl, rfl⟩
  · exact ⟨_, rfl, rfl, 0x1030, _, _, rfl, by decide, rfl, rfl⟩
  · exact ⟨_, rfl, rfl, 0x1050, _, _, rfl, by decide, rfl, rfl⟩

/-- fatal(NoPort) inside the router: at the first byte of the entry for each kind, at its third byte, and at the first and
the third byte of the slot. -/
theorem test_witness_RouterEnters_ports :
    (∀ k ∈ kinds, memRead (entryAt (vector k) { st with ivtBase := 0xFFFFEC00, ports := 0 }) 0
        { st with ivtBase := 0xFFFFEC00, ports := 0 } = .ok 0 { st with ivtBase := 0xFFFFEC00, ports := 0 } ∧
      Machine.translate { st with ivtBase := 0xFFFFEC00, ports := 0 }
        (entryAt (vector k) { st with ivtBase := 0xFFFFEC00, ports := 0 } + BitVec.ofNat 32 0) =
        .port (4 * (vector k - 0x100))) ∧
    (∃ s v t, s = { st with ivtBase := 0xFFFFEBF8, ports := 2 } ∧ memRead (entryAt 0x102 s) 2 s = .ok v t ∧
      translate t (entryAt 0x102 s + BitVec.ofNat 32 2) = .port 2 ∧ t.ports ≤ 2) ∧
    ∀ j ∈ [0, 2], ∃ s u, s = handled { st with stackBase := 0xFFFFF004, ports := j } ∧
      memRead (entryAt 0x102 s) 4 s = .ok 0x1030 s ∧ s.stackBaseValid = true ∧
      memWrite (s.stackBase - (s.stackPos + 4#32)) j s.pc.toNat { s with stackPos := s.stackPos + 4#32 } = .ok () u ∧
      translate u (s.stackBase - (s.stackPos + 4#32) + BitVec.ofNat 32 j) = .port j ∧ u.ports ≤ j := by
  refine ⟨by decide, ⟨_, _, _, rfl, rfl, by decide, by decide⟩, fun j hj => ?_⟩
  have : j = 0 ∨ j = 2 := by simpa using hj
  rcases this with rfl | rfl
  · exact ⟨_, _, rfl, by decide, rfl, rfl, by decide, by decide⟩
  · exact ⟨_, _, rfl, by decide, rfl, rfl, by decide, by decide⟩

theorem test_witness_RetResumes : ∃ t, finish (.raise .pageFault (handled st)) = .next t ∧ t.pc = 0x1030 :=
  ⟨_, rfl, by decide⟩

theorem test_witness_RouterWithoutBase :
    { st with ivtBaseValid := false }.ivtBaseValid = false ∧ (handled { st with stackBaseValid := false }).ivtBaseValid = true ∧
    (handled { st with stackBaseValid := false }).stackBaseValid = false ∧
    memRead ((handled { st with stackBaseValid := false }).ivtBase + BitVec.ofNat 32 (4 * vector .pageFault)) 4
      (handled { st with stackBaseValid := false }) = .ok 0x1030 (handled { st with stackBaseValid := false }) := by
  decide

/-- Zero entries for every kind, under both policies. -/
theorem test_witness_MissingVectorRule :
    (∀ k ∈ kinds, memRead (st.ivtBase + BitVec.ofNat 32 (4 * vector k)) 4 st = .ok 0 st) ∧
    st.ivtBaseValid = true ∧ st.cfg.missingVector = .fatal ∧
    ∃ s, s = { st with cfg := { examplePlatform with missingVector := .escalate } } ∧
      s.cfg.missingVector = .escalate ∧ ∀ k ∈ kinds, memRead (s.ivtBase + BitVec.ofNat 32 (4 * vector k)) 4 s = .ok 0 s :=
  ⟨by decide, rfl, rfl, _, rfl, rfl, by decide⟩

/-- A fault in the entry's read and one in the push, under both policies. -/
theorem test_witness_FaultInsideRouter :
    (∀ k ∈ kinds, memRead ({ st with ivtBase := 0x5000 }.ivtBase + BitVec.ofNat 32 (4 * vector k)) 4
      { st with ivtBase := 0x5000 } = .raise .pageFault { st with ivtBase := 0x5000 }) ∧
    (∃ s u, s = handled { st with stackBase := 0x5000 } ∧ s.ivtBaseValid = true ∧ s.cfg.routerFault = .escalate ∧
      memRead (s.ivtBase + BitVec.ofNat 32 (4 * vector .pageFault)) 4 s = .ok 0x1030 s ∧
      push 4 s.pc.toNat s = .raise .pageFault u) ∧
    ∃ s, s = { st with ivtBase := 0x5000, cfg := { examplePlatform with routerFault := .fatal } } ∧
      s.cfg.routerFault = .fatal ∧
      memRead (s.ivtBase + BitVec.ofNat 32 (4 * vector .pageFault)) 4 s = .raise .pageFault s :=
  ⟨by decide, ⟨_, _, rfl, rfl, rfl, by decide, rfl⟩, _, rfl, rfl, by decide⟩

/-- A stack whose first slot, at 0x3000, lies in an unmapped page and whose second one ends page 2. -/
def secondSlot : State := handled { st with stackBase := 0x3004 }

/-- The outcomes of NoFaultSwallowed: a fatal one; an escalation after a zero entry and one after a failed push, where the
handler of vector 0x100 is entered with one and with two pushes begun. -/
theorem test_witness_NoFaultSwallowed :
    (∃ t, finish (.raise .pageFault st) = .next t ∧ t.run = .haltedFatal .noHandler ∧ t.pc = st.pc) ∧
    (∃ s t, s = withBytes 0x2400 [0x40, 0x10, 0, 0] { st with cfg := { examplePlatform with missingVector := .escalate } } ∧
      finish (.raise .pageFault s) = .next t ∧ Escalates 0x102 s s ∧ Enters 0x100 s t ∧ t.stackPos = 4) ∧
    ∃ u t, finish (.raise .pageFault secondSlot) = .next t ∧ Escalates 0x102 secondSlot u ∧ Enters 0x100 u t ∧
      t.pc = 0x1040 ∧ t.stackPos = 8 :=
  ⟨⟨_, rfl, rfl, rfl⟩,
    ⟨_, _, rfl, rfl, ⟨rfl, .inl ⟨rfl, rfl⟩⟩, ⟨rfl, 0x1040, _, _, rfl, by decide, rfl, rfl⟩, rfl⟩,
    _, _, rfl, ⟨rfl, .inr ⟨rfl, .pageFault, .inr ⟨0x1030, _, rfl, by decide, rfl⟩⟩⟩,
    ⟨rfl, 0x1040, _, _, rfl, by decide, rfl, rfl⟩, rfl, rfl⟩

/-- The clauses of TrapEntryFrame: no push, one and two; bytes beside the slots. -/
theorem test_witness_TrapEntryFrame :
    (∀ k ∈ kinds, (nextState (finish (.raise k (handled st)))).map (·.stackPos) = some 4) ∧
    Apart (handled st) ((handled st).stackBase - ((handled st).stackPos + 4#32)) 4 0x2FFB ∧
    (nextState (finish (.raise .pageFault st))).map (fun t => (t.run, t.stackPos)) = some (.haltedFatal .noHandler, 0) ∧
    (nextState (finish (.raise .pageFault secondSlot))).map (·.stackPos) = some 8 ∧
    Apart secondSlot (secondSlot.stackBase - (secondSlot.stackPos + 4#32)) 4 0x2FFB ∧
    Apart secondSlot (secondSlot.stackBase - (secondSlot.stackPos + 8#32)) 4 0x2FFB := by
  decide

/-- Also for `Shifts`: registers at the top of the width. -/
theorem test_witness_Subtract : { st1 with a := 0xFFFF, x := 0xFFFF, y := 0xFFFF }.widthsFit ∧
    { st with bs := .four, x := 0xFFFFFFFFFFFFFFFF }.widthsFit ∧ State.reset.widthsFit :=
  ⟨⟨by decide, by decide, by decide⟩, ⟨by decide, by decide, by decide⟩, ⟨by decide, by decide, by decide⟩⟩

theorem test_witness_DivAndMod : { st1 with x := 0xFFFF, y := 0 }.widthsFit ∧ { st1 with x := 0xFFFF, y := 0 }.y = 0 ∧
    { st1 with x := 0xFFFF, y := 1 }.widthsFit ∧ { st1 with x := 0xFFFF, y := 1 }.y ≠ 0 :=
  ⟨⟨by decide, by decide, by decide⟩, rfl, ⟨by decide, by decide, by decide⟩, by decide⟩

/-- The clauses of `Reads`, for each width a load, a pop or RET has: the last bytes of a page, the first byte after it,
an absent port. -/
theorem test_witness_Loads :
    (∀ n ∈ [1, 2, 4, 8], HoldsBytes st (0x3000 - BitVec.ofNat 32 n) (List.replicate n 0) ∧
      (List.replicate n (0 : Byte)).length = n ∧
      memRead (0x3000 - BitVec.ofNat 32 (n - 1)) (n - 1) st = .ok 0 st ∧
      translate st (0x3000 - BitVec.ofNat 32 (n - 1) + BitVec.ofNat 32 (n - 1)) = .unmapped) ∧
    memRead 0x5000 0 st = .ok 0 st ∧ translate st (0x5000 + BitVec.ofNat 32 0) = .unmapped ∧
    memRead 0xFFFFF001 0 st = .ok 0 st ∧ translate st (0xFFFFF001 + BitVec.ofNat 32 0) = .port 1 ∧ st.ports ≤ 1 := by
  decide

/-- A read of 2 bytes that meets an absent port only at its second one. -/
theorem test_witness_Loads_ports : ∃ v t, memRead 0xFFFFF000 1 st = .ok v t ∧
    translate t (0xFFFFF000 + BitVec.ofNat 32 1) = .port 1 ∧ t.ports ≤ 1 :=
  ⟨_, _, rfl, by decide, by decide⟩

/-- The clauses of `Writes`, for each width. -/
theorem test_witness_Stores :
    (∀ n ∈ [1, 2, 4, 8], InMemory st (0x3000 - BitVec.ofNat 32 n) n ∧ InMemory st 0x2000 n ∧
      Apart st 0x2000 n (0x2000 + BitVec.ofNat 32 n)) ∧
    (∃ t, memWrite 0x2FFE 2 0x12345678 st = .ok () t ∧ translate t (0x2FFE + BitVec.ofNat 32 2) = .unmapped) ∧
    (∃ t, memWrite 0xFFFFF000 1 0x1234 st = .ok () t ∧
      translate t (0xFFFFF000 + BitVec.ofNat 32 1) = .port 1 ∧ t.ports ≤ 1) ∧
    ∃ t, memWrite 0x5000 0 1 st = .ok () t ∧ translate t (0x5000 + BitVec.ofNat 32 0) = .unmapped :=
  ⟨by decide, ⟨_, rfl, by decide⟩, ⟨_, rfl, by decide, by decide⟩, ⟨_, rfl, by decide⟩⟩

/-- The clauses of `Pushes`, for each width of RegisterPushes, the calls and INT. -/
theorem test_witness_RegisterPushes : { st with stackBaseValid := false }.stackBaseValid = false ∧ st.stackBaseValid = true ∧
    CanPush 2 st ∧ CanPush 4 st ∧ CanPush 8 st ∧
    (∀ n ∈ [2, 4, 8], InMemory { st with stackPos := st.stackPos + BitVec.ofNat 32 n }
      (st.stackBase - (st.stackPos + BitVec.ofNat 32 n)) n) ∧
    memWrite (0x5000 - (0 + BitVec.ofNat 32 4)) 0 1 { st with stackPos := 4 } = .ok () { st with stackPos := 4 } ∧
    Machine.translate { st with stackPos := 4 } (0x5000 - (0 + BitVec.ofNat 32 4) + BitVec.ofNat 32 0) = .unmapped := by
  decide

/-- The clauses of `Pops` that are about the stack; those about the read are `test_witness_Loads`. -/
theorem test_witness_RegisterPops : { st with stackBaseValid := false }.stackBaseValid = false ∧ st.stackBaseValid = true ∧
    ∀ n ∈ [2, 4, 8], HoldsBytes { st with stackPos := BitVec.ofNat 32 n } (0x3000 - BitVec.ofNat 32 n) (List.replicate n 0) := by
  decide

/-- Both outcomes of each condition; also for `Calls`. -/
theorem test_witness_Jumps : { st with z := true }.z = true ∧ { st with z := false }.z = false ∧
    { st with c := true }.c = true ∧ { st with c := false }.c = false := by
  decide

/-- INT: no base; zero entries at 0xFF and 0x100; an entry that is not 0; an entry in an unmapped page; one whose third
byte meets an absent port. -/
theorem test_witness_SoftwareInterrupt :
    { st with ivtBaseValid := false }.ivtBaseValid = false ∧ st.ivtBaseValid = true ∧
    memRead (st.ivtBase + BitVec.ofNat 32 (4 * (0xFF : Word).toNat)) 4 st = .ok 0 st ∧
    memRead (st.ivtBase + BitVec.ofNat 32 (4 * (0x100 : Word).toNat)) 4 st = .ok 0 st ∧
    memRead ((handled st).ivtBase + BitVec.ofNat 32 (4 * (0x102 : Word).toNat)) 4 (handled st) = .ok 0x1030 (handled st) ∧
    memRead (st.ivtBase + BitVec.ofNat 32 (4 * (0x400 : Word).toNat)) 0 st = .ok 0 st ∧
    translate st (st.ivtBase + BitVec.ofNat 32 (4 * (0x400 : Word).toNat) + BitVec.ofNat 32 0) = .unmapped ∧
    memRead ({ st with ivtBase := 0xFFFFEFFE, pt := [(0xFFFFE, 0)], ports := 0 }.ivtBase + BitVec.ofNat 32 (4 * (0 : Word).toNat))
      2 { st with ivtBase := 0xFFFFEFFE, pt := [(0xFFFFE, 0)], ports := 0 } =
      .ok 0 { st with ivtBase := 0xFFFFEFFE, pt := [(0xFFFFE, 0)], ports := 0 } ∧
    Machine.translate { st with ivtBase := 0xFFFFEFFE, pt := [(0xFFFFE, 0)], ports := 0 }
      (0xFFFFEFFE + BitVec.ofNat 32 (4 * (0 : Word).toNat) + BitVec.ofNat 32 2) = .port 0 := by
  decide

theorem test_witness_SoftwareInterruptFromMemory :
    HoldsBytes st (st.ivtBase + BitVec.ofNat 32 (4 * (0x100 : Word).toNat)) [0, 0, 0, 0] ∧ leValue [0, 0, 0, 0] = 0 ∧
    HoldsBytes (handled st) ((handled st).ivtBase + BitVec.ofNat 32 (4 * (0x102 : Word).toNat)) [0x30, 0x10, 0, 0] ∧
    leValue [0x30, 0x10, 0, 0] ≠ 0 ∧ CanPush 4 (handled st) := by
  decide

/-- DEFINT with the ids 512 and 513, with a base and without one. -/
theorem test_witness_DefineInterrupt : st.cfg.ivtMaxId < (513 : Word).toNat ∧ (512 : Word).toNat ≤ st.cfg.ivtMaxId ∧
    st.ivtBaseValid = true ∧ { st with ivtBaseValid := false }.ivtBaseValid = false ∧
    InMemory st (st.ivtBase + BitVec.ofNat 32 (4 * (512 : Word).toNat)) 4 := by
  decide

/-- PAGE: frame 2 is the lowest free one; PAGEAT: the device frame, a frame at and one below NUM_FRAMES. -/
theorem test_witness_PageTable :
    mapSorted st.pt ∧ IsLowestFree st 2 ∧ FrameExists st 2 ∧
    (∃ s, s = { st with cfg := { examplePlatform with numFrames := some 2 } } ∧ mapSorted s.pt ∧ IsLowestFree s 2 ∧
      ¬ FrameExists s 2 ∧ (2 : Word).toNat ≠ s.cfg.deviceFrame ∧ FrameExists s (1 : Word).toNat) ∧
    (0xFFFFFFFF : Word).toNat = st.cfg.deviceFrame := by
  have h : ∀ p, mapGet st.pt p ≠ some 2 := by
    intro p
    simp only [st, mapGet]
    split_ifs <;> simp
  have h2 : ∀ g < 2, g = st.cfg.deviceFrame ∨ ∃ p, mapGet st.pt p = some g := fun g hg => by
    match g, hg with
    | 0, _ => exact .inr ⟨1, rfl⟩
    | 1, _ => exact .inr ⟨2, rfl⟩
  refine ⟨by decide, ⟨by decide, h, h2⟩, fun n hn => (nomatch hn), ⟨_, rfl, by decide, ⟨by decide, h, h2⟩,
    fun hf => absurd (hf 2 rfl) (by decide), by decide, ?_⟩, by decide⟩
  rintro n ⟨⟩
  decide

/-- The invariant on a state that has used everything, and its next state. -/
theorem test_witness_StepKeepsInvariant :
    ∃ s t : State, s = withBytes 0x1000 [0x05, 0x01] { st with a := 0xFFFFFFFF, stackPos := 4 } ∧ s.Inv ∧
      step s = .next t ∧ t.stackPos = 8 := by
  refine ⟨_, _, rfl, ⟨⟨by decide, by decide, by decide⟩, ⟨by decide, ?_⟩, ⟨by decide, by decide⟩, rfl, by decide⟩, rfl,
    by decide⟩
  intro e he
  have : e = (1, 0) ∨ e = (2, 1) := by simpa using (show e ∈ [(1, 0), (2, 1)] from he)
  rcases this with rfl | rfl <;> exact ⟨by decide, by decide, fun n hn => (nomatch hn)⟩

theorem test_witness_StepFromReset : examplePlatform.biosEntry.toNat / 4096 ≠ examplePlatform.devicePage.toNat := by
  decide

/-- Two images, the second in the page below the device page, up to its last byte, where two frames are enough and one
is not; and each image missing. -/
theorem test_witness_BootRule :
    ∃ cfg : Config, cfg = { examplePlatform with biosBase := 0xFFFFEFFE } ∧
      FramesEnough cfg [0x00, 0x01] [0x11, 0x22] ∧
      FramesEnough { cfg with numFrames := some 2 } [0x00, 0x01] [0x11, 0x22] ∧
      ¬ FramesEnough { cfg with numFrames := some 1 } [0x00, 0x01] [0x11, 0x22] ∧
      ¬ FramesEnough { cfg with numFrames := some 2, deviceFrame := 1 } [0x00, 0x01] [0x11, 0x22] ∧
      cfg.devicePage ∉ imagePages cfg.bootBase [0x00, 0x01] ∧ cfg.devicePage ∉ imagePages cfg.biosBase [0x11, 0x22] ∧
      (boot cfg 1 (some [0x00, 0x01]) (some [0x11, 0x22])).pt = [(1, 0), (0xFFFFE, 1)] ∧
      (boot cfg 1 none (some [])).run = .haltedFatal .missingImage ∧
      (boot cfg 1 (some []) none).run = .haltedFatal .missingImage := by
  refine ⟨_, rfl, fun n hn => (nomatch hn), ?_, fun h => absurd (h 1 rfl) (by decide),
    fun h => absurd (h 2 rfl) (by decide), by decide, by decide, by decide, by decide, by decide⟩
  rintro n ⟨⟩
  decide

/-- Images of three bytes that overlap in the BIOS image's first: the boot image's first two bytes lie outside it. -/
theorem test_witness_BootRule_overlap :
    ∃ cfg : Config, cfg = { examplePlatform with bootBase := 0x1000, biosBase := 0x1002 } ∧
      (∀ i < 2, ∀ j < 3, cfg.bootBase + BitVec.ofNat 32 i ≠ cfg.biosBase + BitVec.ofNat 32 j) ∧
      (List.range 5).map (fun k => peek (boot cfg 0 (some [1, 2, 3]) (some [4, 5, 6])) (0x1000 + BitVec.ofNat 32 k)) =
        [some 1, some 2, some 4, some 5, some 6] :=
  ⟨_, rfl, by decide, by decide⟩

/-- For the statements on what an instruction may write or read: an instruction inside each list and one outside, each
with a next state. -/
theorem test_witness_RegisterAndFlagWriters :
    (∀ i ∈ [Instr.add, .cmp, .movxa, .movya, .pusha, .setstack 0, .setivt 0, .page 7, .extend, .halt, .jz 0, .jc 0],
      (nextState (exec i st)).isSome = true) ∧
    (Instr.halt).action ∉ [Action.add, .sub, .mul, .div, .mod, .shl, .shr, .cmpi, .cmp] ∧
    (Instr.add).action ∉ [Action.jz, .jnz, .bz, .bnz] ∧ (Instr.add).action ∉ [Action.halt, .haltz] := by
  decide

/-- FlagReaders: ADD writes Z without reading it. -/
theorem test_witness_FlagReaders : ∃ t, exec .add { st with z := false } = .next t ∧ t.z = true := ⟨_, rfl, by decide⟩

theorem test_witness_ControlStateWriters : ∃ t, exec .reduce st = .next t ∧ t.bs = .one := ⟨_, rfl, rfl⟩

theorem test_witness_StepKeepsParameters : ∃ t, step st = .next t ∧ t.start = 0x1000 := ⟨_, rfl, by decide⟩

end Sys2Proof.Tests
end

section
/-! SUPPORT. A step as one sequence: the fetch, then the work of the execute phase, then `settle`. What a step may write
and what it keeps is a property of that sequence, so it is proved of the parts. -/

namespace Sys2Proof.Machine

variable {α : Type}

/-! ## The work of an instruction -/

/-- What the execute phase of an instruction does before the step ends in `finish`; `exec_eq_finish` ties it to
`exec`. -/
def work (i : Instr) (s : State) : Res Unit :=
  match i with
  | .add => .ok () (setArith (s.x.toNat + s.y.toNat) s)
  | .sub => .ok () (setArith (s.x.toNat - s.y.toNat) s)
  | .mul => .ok () (setArith (s.x.toNat * s.y.toNat) s)
  | .div => if s.y = 0 then .fatal .divideByZero s else .ok () (setArith ((s.x.toNat / s.y.toNat : Nat) : Int) s)
  | .mod => if s.y = 0 then .fatal .divideByZero s else .ok () (setArith ((s.x.toNat % s.y.toNat : Nat) : Int) s)
  | .shl => .ok () (setArith (shiftedLeft s) s)
  | .shr => .ok () (setArith (shiftedRight s) s)
  | .cmpi v => .ok () (setCompare s.a v s)
  | .cmp => .ok () (setCompare s.x s.y s)
  | .movax => moveReg .A .X s
  | .movay => moveReg .A .Y s
  | .movxa => moveReg .X .A s
  | .movxy => moveReg .X .Y s
  | .movya => moveReg .Y .A s
  | .movyx => moveReg .Y .X s
  | .ldia v => loadImm .A v s
  | .ldix v => loadImm .X v s
  | .ldiy v => loadImm .Y v s
  | .ldba a => loadReg .A 1 a s
  | .ldbx a => loadReg .X 1 a s
  | .ldby a => loadReg .Y 1 a s
  | .ldwa a => loadReg .A 2 a s
  | .ldwx a => loadReg .X 2 a s
  | .ldwy a => loadReg .Y 2 a s
  | .ldda a => loadReg .A 4 a s
  | .lddx a => loadReg .X 4 a s
  | .lddy a => loadReg .Y 4 a s
  | .ldqa a => loadReg .A 8 a s
  | .ldqx a => loadReg .X 8 a s
  | .ldqy a => loadReg .Y 8 a s
  | .stba a => storeReg .A 1 a s
  | .stbx a => storeReg .X 1 a s
  | .stby a => storeReg .Y 1 a s
  | .stwa a => storeReg .A 2 a s
  | .stwx a => storeReg .X 2 a s
  | .stwy a => storeReg .Y 2 a s
  | .stda a => storeReg .A 4 a s
  | .stdx a => storeReg .X 4 a s
  | .stdy a => storeReg .Y 4 a s
  | .stqa a => storeReg .A 8 a s
  | .stqx a => storeReg .X 8 a s
  | .stqy a => storeReg .Y 8 a s
  | .pusha => pushReg .A s
  | .pushx => pushReg .X s
  | .pushy => pushReg .Y s
  | .popa => popReg .A s
  | .popx => popReg .X s
  | .popy => popReg .Y s
  | .setstack a => .ok () { s with stackBase := a, stackBaseValid := true, stackPos := 0 }
  | .jmp d => .ok () (jump (relTarget d s) s)
  | .jmpa t => .ok () (jump t s)
  | .jz d => jumpIf s.z d s
  | .jnz d => jumpIf (!s.z) d s
  | .jc d => jumpIf s.c d s
  | .jnc d => jumpIf (!s.c) d s
  | .call d => callTo (relTarget d s) s
  | .calla t => callTo t s
  | .bz d => callIf s.z d s
  | .bnz d => callIf (!s.z) d s
  | .bc d => callIf s.c d s
  | .bnc d => callIf (!s.c) d s
  | .ret => returnPc s
  | .int n => interrupt n.toNat s
  | .defint n t => registerInt n.toNat t s
  | .setivt a => .ok () { s with ivtBase := a, ivtBaseValid := true }
  | .page p => allocatePage p s
  | .pageat p f => allocatePageAt p f.toNat s
  | .free p => .ok () (freePage p s)
  | .reduce => .ok () (shrinkTo s.bs.halve s)
  | .extend => .ok () { s with bs := s.bs.double }
  | .halt => .ok () { s with run := .haltedBy .halt }
  | .haltz => .ok () { s with run := .haltedBy .haltz }

theorem exec_eq_finish (i : Instr) (s : State) : exec i s = finish (work i s) := by
  cases i <;> rfl

theorem exec_eq_next {i : Instr} {s t : State} : exec i s = .next t ↔ settle (work i s) = t := by
  rw [exec_eq_finish, finish, Host.Outcome.next.injEq]

theorem afterFetch_exec (m : Res Instr) : afterFetch exec m = finish (m.bind work) := by
  cases m with
  | ok i s => exact exec_eq_finish i s
  | raise k s => rfl
  | fatal r s => rfl

/-- A step with a next state began Running, and is the fetch and the work in sequence, settled (40_cycle.md R122). -/
theorem step_eq_next {s t : State} : step s = .next t ↔ s.run = .running ∧ settle ((fetch s).bind work) = t := by
  unfold step
  cases s.run <;> simp [afterFetch_exec, finish]

/-! ## Every outcome, and the settled state -/

theorem Res.Ends.and {P Q : State → Prop} {m : Res α} (h : m.Ends P) (g : m.Ends Q) : m.Ends fun s => P s ∧ Q s := by
  cases m <;> exact ⟨h, g⟩

theorem Res.Ends.of_eq_ok {P : State → Prop} {m : Res α} {v : α} {s : State} (h : m.Ends P) (he : m = .ok v s) :
    P s := by
  subst he
  exact h

/-- The settled state of a part differs only as `SettleOnly` says from a state in which the part may end, and its `run`
is the one there or fatal. -/
theorem settle_ends {P : State → Prop} {m : Res Unit} (h : m.Ends P) :
    ∃ u, P u ∧ SettleOnly u (settle m) ∧ ((settle m).run = u.run ∨ ∃ r, (settle m).run = .haltedFatal r) := by
  cases m with
  | ok v u => exact ⟨u, h, (RouteOnly.refl u).settle, .inl rfl⟩
  | raise k u => exact ⟨u, h, settle_raise_only k u, (settle_raise_run k u).symm⟩
  | fatal r u => exact ⟨u, h, (RouteOnly.refl u).haltFatal r, .inr ⟨r, rfl⟩⟩

/-- The router's marker is clear in a settled state if it is clear where the part completes (10_state.md R41). -/
theorem settle_idle {m : Res Unit} (h : ∀ u, m = .ok () u → u.routing = none) : (settle m).routing = none := by
  cases m with
  | ok v u => exact h u rfl
  | raise k u => exact settle_raise_idle k u
  | fatal r u => rfl

end Sys2Proof.Machine
end

section
/-! SUPPORT. Which pieces of the state each instruction may write, said once over all 72 (10_state.md R23, R31 to
R38). -/

namespace Sys2Proof.Machine

/-! ## The writers of each piece -/

/-- The actions of 41_arithmetic.md that write A, C and Z (10_state.md R31). -/
abbrev arithmeticActions : List Action := [.add, .sub, .mul, .div, .mod, .shl, .shr]

/-- The actions that write a general register (10_state.md R23). -/
abbrev regWriters : Reg → List Action
  | .A => arithmeticActions ++ [.movax, .movay, .ldia, .ldba, .ldwa, .ldda, .ldqa, .popa, .reduce]
  | .X => [.movxa, .movxy, .ldix, .ldbx, .ldwx, .lddx, .ldqx, .popx, .reduce]
  | .Y => [.movya, .movyx, .ldiy, .ldby, .ldwy, .lddy, .ldqy, .popy, .reduce]

/-- `t` differs from `s` in the pieces alone that the rules let the action `act` write, and in what memory and stack
accesses leave (`AccessOnly`). A field that is not given is one where the two states hold the same by definition. -/
structure Framed (act : Action) (s t : State) : Prop where
  reg : ∀ r, act ∉ regWriters r → getReg r t = getReg r s := by intros; rfl
  c : act ∉ arithmeticActions → t.c = s.c := by intros; rfl
  z : act ∉ arithmeticActions ++ [.cmpi, .cmp] → t.z = s.z := by intros; rfl
  bs : act ∉ [.reduce, .extend] → t.bs = s.bs := by intros; rfl
  stack : act ∉ [.setstack] → t.stackBase = s.stackBase ∧ t.stackBaseValid = s.stackBaseValid := by
    intros; exact ⟨rfl, rfl⟩
  ivt : act ∉ [.setivt] → t.ivtBase = s.ivtBase ∧ t.ivtBaseValid = s.ivtBaseValid := by intros; exact ⟨rfl, rfl⟩
  pt : act ∉ [.page, .pageat, .free] → t.pt = s.pt := by intros; rfl
  run : act ∉ [.halt, .haltz] → t.run = s.run := by intros; rfl
  start : t.start = s.start := by rfl
  ports : t.ports = s.ports := by rfl
  routing : t.routing = s.routing := by rfl
  cfg : t.cfg = s.cfg := by rfl

variable {act : Action} {s t u : State}

theorem Framed.refl : Framed act s s := {}

theorem Framed.trans (h : Framed act s t) (g : Framed act t u) : Framed act s u where
  reg r hr := (g.reg r hr).trans (h.reg r hr)
  c ha := (g.c ha).trans (h.c ha)
  z ha := (g.z ha).trans (h.z ha)
  bs ha := (g.bs ha).trans (h.bs ha)
  stack ha := ⟨(g.stack ha).1.trans (h.stack ha).1, (g.stack ha).2.trans (h.stack ha).2⟩
  ivt ha := ⟨(g.ivt ha).1.trans (h.ivt ha).1, (g.ivt ha).2.trans (h.ivt ha).2⟩
  pt ha := (g.pt ha).trans (h.pt ha)
  run ha := (g.run ha).trans (h.run ha)
  start := g.start.trans h.start
  ports := g.ports.trans h.ports
  routing := g.routing.trans h.routing
  cfg := g.cfg.trans h.cfg

/-! ## The shared operations -/

theorem AccessOnly.framed (h : AccessOnly s t) : Framed act s t := by
  obtain ⟨_, _, _, _, _, rfl⟩ := h
  exact {}

theorem setArith_framed (ha : act ∈ arithmeticActions) (r : Int) (s : State) : Framed act s (setArith r s) where
  reg q hq := by
    cases q with
    | A => exact absurd (List.mem_append_left _ ha) hq
    | X => rfl
    | Y => rfl
  c hc := absurd ha hc
  z hz := absurd (List.mem_append_left _ ha) hz

theorem setCompare_framed (ha : act ∈ [.cmpi, .cmp]) (v w : Word) (s : State) : Framed act s (setCompare v w s) where
  z hz := absurd (List.mem_append_right _ ha) hz

theorem setReg_framed {r : Reg} (ha : act ∈ regWriters r) (v : Word) (s : State) : Framed act s (setReg r v s) := by
  have hreg : ∀ q, act ∉ regWriters q → getReg q (setReg r v s) = getReg q s := fun q hq => by
    have hne : r ≠ q := fun he => hq (he ▸ ha)
    rw [getReg_setReg, if_neg hne]
  cases r <;> exact { reg := hreg }

theorem loadReg_framed {r : Reg} (ha : act ∈ regWriters r) (n : Nat) (a : Addr) (s : State) :
    (loadReg r n a s).Ends (Framed act s) :=
  ((memRead_ends a n s).imp fun _ h => h.access.framed).bind (fun _ h => h) fun _ t _ ht =>
    ht.trans (setReg_framed ha _ t)

theorem popReg_framed {r : Reg} (ha : act ∈ regWriters r) (s : State) : (popReg r s).Ends (Framed act s) :=
  ((pop_ends s.bs.bytes s).imp fun _ h => h.framed).bind (fun _ h => h) fun _ t _ ht => ht.trans (setReg_framed ha _ t)

theorem jump_access (a : Addr) (s : State) : AccessOnly s (jump a s) := ⟨_, _, _, _, _, rfl⟩

theorem jumpIf_ends (cond : Bool) (d : Int) (s : State) : (jumpIf cond d s).Ends (AccessOnly s) := by
  cases cond
  · exact .refl s
  · exact jump_access _ s

theorem callIf_ends (cond : Bool) (d : Int) (s : State) : (callIf cond d s).Ends (AccessOnly s) := by
  cases cond
  · exact .refl s
  · exact pushPcAndJump_ends _ s

theorem interrupt_ends (id : Nat) (s : State) : (interrupt id s).Ends (AccessOnly s) := by
  refine (findInt_ends id s).bind (fun _ h => h) fun n t _ ht => ?_
  split_ifs
  · exact ht
  · exact (pushPcAndJump_ends _ t).imp fun _ h => ht.trans h

theorem pageTable_framed (ha : act ∈ [.page, .pageat, .free]) (h : ∃ m, t = { s with pt := m }) : Framed act s t := by
  obtain ⟨m, rfl⟩ := h
  exact { pt := fun hp => absurd ha hp }

/-! ## Each instruction -/

/-- The work of an instruction keeps every piece that its action is no writer of. -/
theorem work_framed (i : Instr) (s : State) : (work i s).Ends (Framed i.action s) := by
  cases i with
  | add | sub | mul | shl | shr => exact setArith_framed (by decide) _ s
  | div | mod =>
    unfold work
    split_ifs
    · exact Framed.refl
    · exact setArith_framed (by decide) _ s
  | cmpi _ | cmp => exact setCompare_framed (by simp [Instr.action]) _ _ s
  | movax | movay | movxa | movxy | movya | movyx => exact setReg_framed (by decide) _ s
  | ldia v | ldix v | ldiy v => exact setReg_framed (by simp [Instr.action]) v s
  | ldba a | ldbx a | ldby a | ldwa a | ldwx a | ldwy a | ldda a | lddx a | lddy a | ldqa a | ldqx a | ldqy a =>
    exact loadReg_framed (by simp [Instr.action]) _ a s
  | stba a | stbx a | stby a | stwa a | stwx a | stwy a | stda a | stdx a | stdy a | stqa a | stqx a | stqy a =>
    exact (memWrite_ends a _ _ s).imp fun _ h => h.access.framed
  | pusha | pushx | pushy => exact (push_ends _ _ s).imp fun _ h => h.framed
  | popa | popx | popy => exact popReg_framed (by decide) s
  | setstack a => exact { stack := fun h => absurd List.mem_cons_self h }
  | jmp _ | jmpa _ => exact (jump_access _ s).framed
  | jz d | jnz d | jc d | jnc d => exact (jumpIf_ends _ d s).imp fun _ h => h.framed
  | call _ | calla _ => exact (pushPcAndJump_ends _ s).imp fun _ h => h.framed
  | bz d | bnz d | bc d | bnc d => exact (callIf_ends _ d s).imp fun _ h => h.framed
  | ret => exact (returnPc_ends s).imp fun _ h => h.framed
  | int n => exact (interrupt_ends _ s).imp fun _ h => h.framed
  | defint n a => exact (registerInt_ends _ a s).imp fun _ h => h.framed
  | setivt a => exact { ivt := fun h => absurd List.mem_cons_self h }
  | page p => exact (allocatePage_ends p s).imp fun _ h => pageTable_framed (by simp [Instr.action]) h
  | pageat p f => exact (allocatePageAt_ends p _ s).imp fun _ h => pageTable_framed (by simp [Instr.action]) h
  | free p => exact pageTable_framed (by simp [Instr.action]) ⟨_, rfl⟩
  | reduce =>
    exact { reg := fun r h => absurd (by cases r <;> decide) h, bs := fun h => absurd (by decide) h }
  | extend => exact { bs := fun h => absurd (by decide) h }
  | halt | haltz => exact { run := fun h => absurd (by decide) h }

/-- The next state of an instruction: what its action may write, then what settling leaves. -/
theorem exec_framed {i : Instr} (h : exec i s = .next t) :
    ∃ u, Framed i.action s u ∧ SettleOnly u t ∧ (t.run = u.run ∨ ∃ r, t.run = .haltedFatal r) := by
  obtain rfl := exec_eq_next.mp h
  exact settle_ends (work_framed i s)

/-- The fetch latches `start` and the work keeps it; neither changes a parameter or a port (10_state.md R27, R40,
R42). -/
theorem fetch_bind_work_parameters (s : State) :
    ((fetch s).bind work).Ends fun u => u.cfg = s.cfg ∧ u.ports = s.ports ∧ u.start = s.pc := by
  refine (fetch_ends s).bind ?_ fun i u _ hu => ?_
  · rintro _ ⟨_, _, _, rfl⟩
    exact ⟨rfl, rfl, rfl⟩
  · obtain ⟨_, _, _, rfl⟩ := hu
    exact (work_framed i _).imp fun _ hw => ⟨hw.cfg, hw.ports, hw.start⟩

end Sys2Proof.Machine
end

section
/-! SUPPORT. What every part of a step keeps of the invariant, from the accesses up to the whole step. -/

namespace Sys2Proof.Machine

/-! ## The invariant inside a step -/

/-- The invariant but for the router's marker, which is set inside a router transaction (10_state.md R41): what holds at
every point of a step. -/
structure State.Fits (s : State) : Prop where
  widths : s.widthsFit
  pageTable : s.pageTableFits
  store : s.framesFit
  portCount : s.ports ≤ 4096

theorem State.inv_iff {s : State} : s.Inv ↔ s.Fits ∧ s.routing = none :=
  ⟨fun h => ⟨⟨h.widths, h.pageTable, h.store, h.portCount⟩, h.idle⟩,
    fun ⟨h, hr⟩ => ⟨h.widths, h.pageTable, h.store, hr, h.portCount⟩⟩

variable {s t : State}

/-! ## Updates that the invariant reads nothing of -/

theorem PortsOnly.fits (h : PortsOnly s t) (hs : s.Fits) : t.Fits := by
  obtain ⟨_, _, rfl⟩ := h
  exact { hs with }

theorem FetchOnly.fits (h : FetchOnly s t) (hs : s.Fits) : t.Fits := by
  obtain ⟨_, _, _, rfl⟩ := h
  exact { hs with }

theorem latch_fits (hs : s.Fits) : (latch s).Fits := { hs with }
theorem servicing_fits (v : Nat) (hs : s.Fits) : (servicing v s).Fits := { hs with }
theorem jump_fits (a : Addr) (hs : s.Fits) : (jump a s).Fits := { hs with }
theorem haltFatal_fits (r : FatalReason) (hs : s.Fits) : (haltFatal r s).Fits := { hs with }
theorem setCompare_fits (v w : Word) (hs : s.Fits) : (setCompare v w s).Fits := { hs with }

/-! ## Registers -/

theorem widthsFit_iff : s.widthsFit ↔ ∀ r, (getReg r s).toNat < 2 ^ s.bs.width :=
  ⟨fun ⟨ha, hx, hy⟩ r => by cases r <;> assumption, fun h => ⟨h .A, h .X, h .Y⟩⟩

theorem getReg_fits (hs : s.Fits) (r : Reg) : (getReg r s).toNat < 2 ^ s.bs.width := widthsFit_iff.mp hs.widths r

theorem setReg_fits (r : Reg) {v : Word} (hv : v.toNat < 2 ^ s.bs.width) (hs : s.Fits) : (setReg r v s).Fits := by
  have hw : (setReg r v s).widthsFit := widthsFit_iff.mpr fun q => by
    rw [getReg_setReg, setReg_bs]
    split_ifs
    · exact hv
    · exact getReg_fits hs q
  cases r <;> exact { hs with widths := hw }

theorem setRegMasked_fits (r : Reg) (v : Nat) (hs : s.Fits) : (setRegMasked r v s).Fits :=
  setReg_fits r (maskedCell_lt _ _) hs

theorem setArith_fits (r : Int) (hs : s.Fits) : (setArith r s).Fits :=
  { hs with widths := ⟨maskedCell_lt _ _, hs.widths.2⟩ }

theorem shrinkTo_fits (b : BlockSize) (hs : s.Fits) : (shrinkTo b s).Fits :=
  { hs with widths := ⟨maskedCell_lt _ _, maskedCell_lt _ _, maskedCell_lt _ _⟩ }

theorem width_le_double (b : BlockSize) : b.width ≤ b.double.width := by
  cases b <;> decide

/-- EXTEND keeps the registers, which fit the wider width too (45_system.md R219). -/
theorem extend_fits (hs : s.Fits) : State.Fits { s with bs := s.bs.double } :=
  have hw : 2 ^ s.bs.width ≤ 2 ^ s.bs.double.width := Nat.pow_le_pow_right (by norm_num) (width_le_double _)
  have ⟨ha, hx, hy⟩ := hs.widths
  { hs with widths := ⟨ha.trans_le hw, hx.trans_le hw, hy.trans_le hw⟩ }

/-! ## Memory, stack and IVT -/

theorem memRead_fits (a : Addr) (n : Nat) (hs : s.Fits) : (memRead a n s).Ends State.Fits :=
  (memRead_ends a n s).imp fun _ h => h.fits hs

theorem memWrite_fits (a : Addr) (n v : Nat) (hs : s.Fits) : (memWrite a n v s).Ends State.Fits :=
  ((memWrite_ends a n v s).and (memWrite_framesFit hs.pageTable hs.store)).imp fun t ht => by
    obtain ⟨⟨_, _, rfl⟩, hf⟩ := ht
    exact { hs with store := hf }

theorem push_fits (n v : Nat) (hs : s.Fits) : (push n v s).Ends State.Fits := by
  unfold push
  split_ifs
  · exact memWrite_fits _ n v (s := { s with stackPos := s.stackPos + BitVec.ofNat 32 n }) { hs with }
  · exact hs

theorem pop_fits (n : Nat) (hs : s.Fits) : (pop n s).Ends State.Fits := by
  unfold pop
  split_ifs
  · exact (memRead_fits _ n hs).bind (fun _ h => h) fun _ _ _ ht => { ht with }
  · exact hs

theorem pushPcAndJump_fits (a : Addr) (hs : s.Fits) : (pushPcAndJump a s).Ends State.Fits :=
  (push_fits 4 _ hs).bind (fun _ h => h) fun _ _ _ ht => jump_fits a ht

theorem returnPc_fits (hs : s.Fits) : (returnPc s).Ends State.Fits :=
  (pop_fits 4 hs).bind (fun _ h => h) fun _ _ _ ht => jump_fits _ ht

theorem findInt_fits (id : Nat) (hs : s.Fits) : (findInt id s).Ends State.Fits := by
  unfold findInt
  split_ifs
  · refine (memRead_fits _ 4 hs).bind (fun _ h => h) fun v t _ ht => ?_
    split_ifs <;> exact ht
  · exact hs

theorem registerInt_fits (id : Nat) (a : Addr) (hs : s.Fits) : (registerInt id a s).Ends State.Fits := by
  unfold registerInt
  split_ifs
  · exact hs
  · exact memWrite_fits _ 4 _ hs
  · exact hs

theorem interrupt_fits (id : Nat) (hs : s.Fits) : (interrupt id s).Ends State.Fits := by
  refine (findInt_fits id hs).bind (fun _ h => h) fun v t _ ht => ?_
  split_ifs
  · exact ht
  · exact pushPcAndJump_fits _ ht

theorem jumpIf_fits (cond : Bool) (d : Int) (hs : s.Fits) : (jumpIf cond d s).Ends State.Fits := by
  cases cond
  · exact hs
  · exact jump_fits _ hs

theorem callIf_fits (cond : Bool) (d : Int) (hs : s.Fits) : (callIf cond d s).Ends State.Fits := by
  cases cond
  · exact hs
  · exact pushPcAndJump_fits _ hs

theorem loadReg_fits (r : Reg) (n : Nat) (a : Addr) (hs : s.Fits) : (loadReg r n a s).Ends State.Fits :=
  (memRead_fits a n hs).bind (fun _ h => h) fun v _ _ ht => setRegMasked_fits r v ht

/-- A popped word fits: it is WB bytes, which are W bits (43_stack.md R181). -/
theorem popReg_fits (r : Reg) (hs : s.Fits) : (popReg r s).Ends State.Fits := by
  refine ((pop_ends s.bs.bytes s).and (pop_fits _ hs)).bind (fun _ h => h.2) fun v t hv ⟨hat, ht⟩ => setReg_fits r ?_ ht
  have hbound : v < 2 ^ s.bs.width := two_pow_width s.bs ▸ pop_bound hv
  obtain ⟨_, _, _, _, _, rfl⟩ := hat
  exact (BitVec.toNat_ofNat v 64 ▸ Nat.mod_le v (2 ^ 64)).trans_lt hbound

theorem pageTable_fits (h : ∃ m, t = { s with pt := m }) (hp : t.pageTableFits) (hs : s.Fits) : t.Fits := by
  obtain ⟨m, rfl⟩ := h
  exact { hs with pageTable := hp }

/-! ## The router -/

theorem transaction_fits {v : Nat} {missing nested : State → Res Unit}
    (hm : ∀ {t : State}, t.Fits → (missing t).Ends State.Fits)
    (hn : ∀ {t : State}, t.Fits → (nested t).Ends State.Fits) (hs : s.Fits) :
    (transaction v missing nested s).Ends State.Fits := by
  have hs' := servicing_fits v hs
  unfold transaction
  split_ifs
  · have hread := memRead_fits (ivtSlot v s) 4 hs'
    cases hr : memRead (ivtSlot v s) 4 (servicing v s) with
    | ok n u =>
      have hu : u.Fits := hread.of_eq_ok hr
      have hpush := pushPcAndJump_fits (BitVec.ofNat 32 n) hu
      dsimp only
      split_ifs
      · exact hm hu
      · revert hpush
        cases pushPcAndJump (BitVec.ofNat 32 n) u with
        | ok _ w => exact fun hw => { hw with }
        | raise _ w => exact hn
        | fatal _ w => exact id
    | raise _ u => exact hn (by rwa [hr] at hread)
    | fatal _ u => rwa [hr] at hread
  · exact hs'

theorem routeLast_fits (hs : s.Fits) : (routeLast s).Ends State.Fits :=
  transaction_fits (fun h => h) (fun h => h) hs

theorem missingVector_fits (hs : s.Fits) : (missingVector s).Ends State.Fits := by
  unfold missingVector
  split
  · exact hs
  · exact routeLast_fits hs

theorem nestedFault_fits (hs : s.Fits) : (nestedFault s).Ends State.Fits := by
  unfold nestedFault
  split
  · exact hs
  · exact routeLast_fits hs

theorem route_fits (k : FaultKind) (hs : s.Fits) : (route k s).Ends State.Fits := by
  unfold route
  split_ifs
  · exact routeLast_fits hs
  · exact transaction_fits missingVector_fits nestedFault_fits hs

theorem settle_fits {m : Res Unit} (h : m.Ends State.Fits) : (settle m).Fits := by
  cases m with
  | ok _ u => exact h
  | fatal r u => exact haltFatal_fits r h
  | raise k u =>
    have hroute := route_fits k h
    rw [settle_raise]
    revert hroute
    cases route k u with
    | ok _ w => exact id
    | raise _ w => exact haltFatal_fits _
    | fatal r w => exact haltFatal_fits r

/-! ## Each instruction and the step -/

/-- The work of an instruction that fits the block size keeps the invariant: what goes to a register is masked, was in a
register, is a popped word, or is an immediate that fits. -/
theorem work_fits {i : Instr} (hi : i.wellFormed s.bs = true) (hs : s.Fits) : (work i s).Ends State.Fits := by
  cases i with
  | add | sub | mul | shl | shr => exact setArith_fits _ hs
  | div | mod =>
    unfold work
    split_ifs
    · exact hs
    · exact setArith_fits _ hs
  | cmpi _ | cmp => exact setCompare_fits _ _ hs
  | movax | movay | movxa | movxy | movya | movyx => exact setReg_fits _ (getReg_fits hs _) hs
  | ldia v | ldix v | ldiy v =>
    exact setReg_fits _ (by simpa [Instr.wellFormed, Instr.operands, Operand.fits] using hi) hs
  | ldba a | ldbx a | ldby a | ldwa a | ldwx a | ldwy a | ldda a | lddx a | lddy a | ldqa a | ldqx a | ldqy a =>
    exact loadReg_fits _ _ a hs
  | stba a | stbx a | stby a | stwa a | stwx a | stwy a | stda a | stdx a | stdy a | stqa a | stqx a | stqy a =>
    exact memWrite_fits a _ _ hs
  | pusha | pushx | pushy => exact push_fits _ _ hs
  | popa | popx | popy => exact popReg_fits _ hs
  | setstack _ | setivt _ | halt | haltz => exact { hs with }
  | jmp _ | jmpa _ => exact jump_fits _ hs
  | jz d | jnz d | jc d | jnc d => exact jumpIf_fits _ d hs
  | call _ | calla _ => exact pushPcAndJump_fits _ hs
  | bz d | bnz d | bc d | bnc d => exact callIf_fits _ d hs
  | ret => exact returnPc_fits hs
  | int n => exact interrupt_fits _ hs
  | defint n a => exact registerInt_fits _ a hs
  | page p =>
    exact ((allocatePage_ends p s).and (allocatePage_pageTableFits p hs.pageTable)).imp fun _ h =>
      pageTable_fits h.1 h.2 hs
  | pageat p f =>
    exact ((allocatePageAt_ends p _ s).and (allocatePageAt_pageTableFits p _ hs.pageTable)).imp fun _ h =>
      pageTable_fits h.1 h.2 hs
  | free p => exact pageTable_fits ⟨_, rfl⟩ (freePage_pageTableFits p hs.pageTable) hs
  | reduce => exact shrinkTo_fits _ hs
  | extend => exact extend_fits hs

/-- The fetch gives an instruction that fits, and the work keeps what the fetch kept. -/
theorem fetch_bind_work_fits (hs : s.Fits) : ((fetch s).bind work).Ends State.Fits :=
  ((fetch_ends s).imp fun _ h => h.fits (latch_fits hs)).bind (fun _ h => h) fun _ _ hi hu =>
    work_fits (fetch_wellFormed hi) hu

/-- A fetch and a work that complete leave the router's marker as it was. -/
theorem fetch_bind_work_routing (h : (fetch s).bind work = .ok () t) : t.routing = s.routing := by
  obtain ⟨i, u, hf, hw⟩ := Res.bind_eq_ok h
  obtain ⟨_, _, _, rfl⟩ := (fetch_ends s).of_eq_ok hf
  exact ((work_framed i _).of_eq_ok hw).routing

end Sys2Proof.Machine
end

section
/-! SUPPORT. A flag that an instruction does not read makes no difference but in itself (10_state.md R30). -/

namespace Sys2Proof.Machine

/-! ## Setting a flag -/

/-- The two flags (10_state.md R28, R29). -/
inductive Flag where
  | c | z

/-- The flag `f` set to `b`. -/
def setFlag (f : Flag) (b : Bool) (s : State) : State :=
  match f with
  | .c => { s with c := b }
  | .z => { s with z := b }

/-- The actions that read a flag (10_state.md R30). -/
def Flag.readers : Flag → List Action
  | .c => [.jc, .jnc, .bc, .bnc]
  | .z => [.jz, .jnz, .bz, .bnz]

variable {f : Flag} {b : Bool}

theorem inert_setFlag (f : Flag) (b : Bool) : Inert (setFlag f b) := by
  cases f
  · exact inert_c b
  · exact inert_z b

@[simp] theorem setFlag_a (s : State) : (setFlag f b s).a = s.a := by cases f <;> rfl
@[simp] theorem setFlag_x (s : State) : (setFlag f b s).x = s.x := by cases f <;> rfl
@[simp] theorem setFlag_y (s : State) : (setFlag f b s).y = s.y := by cases f <;> rfl
@[simp] theorem setFlag_bs (s : State) : (setFlag f b s).bs = s.bs := by cases f <;> rfl
@[simp] theorem setFlag_start (s : State) : (setFlag f b s).start = s.start := by cases f <;> rfl
@[simp] theorem getReg_setFlag (r : Reg) (s : State) : getReg r (setFlag f b s) = getReg r s := by cases f <;> rfl

theorem setFlag_c (hf : f ≠ .c) (s : State) : (setFlag f b s).c = s.c := by
  cases f
  · exact absurd rfl hf
  · rfl

theorem setFlag_z (hf : f ≠ .z) (s : State) : (setFlag f b s).z = s.z := by
  cases f
  · rfl
  · exact absurd rfl hf

theorem setReg_setFlag (r : Reg) (v : Word) (s : State) : setReg r v (setFlag f b s) = setFlag f b (setReg r v s) := by
  cases f <;> cases r <;> rfl

theorem relTarget_setFlag (d : Int) (s : State) : relTarget d (setFlag f b s) = relTarget d s := by
  rw [relTarget, setFlag_start, relTarget]

theorem jump_setFlag (a : Addr) (s : State) : jump a (setFlag f b s) = setFlag f b (jump a s) :=
  ((inert_setFlag f b).setPc s a).symm

/-! ## The shared operations -/

theorem moveReg_setFlag (dst src : Reg) (s : State) :
    moveReg dst src (setFlag f b s) = (moveReg dst src s).map (setFlag f b) := by
  rw [moveReg, getReg_setFlag, setReg_setFlag, moveReg, Res.map_ok]

theorem loadReg_setFlag (r : Reg) (n : Nat) (a : Addr) (s : State) :
    loadReg r n a (setFlag f b s) = (loadReg r n a s).map (setFlag f b) :=
  Res.map_bind ((inert_setFlag f b).memRead a n s) fun v t => by
    simp only [setRegMasked, setFlag_bs, setReg_setFlag, Res.map_ok]

theorem storeReg_setFlag (r : Reg) (n : Nat) (a : Addr) (s : State) :
    storeReg r n a (setFlag f b s) = (storeReg r n a s).map (setFlag f b) := by
  rw [storeReg, getReg_setFlag]
  exact (inert_setFlag f b).memWrite a n _ s

theorem pushReg_setFlag (r : Reg) (s : State) : pushReg r (setFlag f b s) = (pushReg r s).map (setFlag f b) := by
  rw [pushReg, getReg_setFlag, setFlag_bs]
  exact (inert_setFlag f b).push _ _ s

theorem popReg_setFlag (r : Reg) (s : State) : popReg r (setFlag f b s) = (popReg r s).map (setFlag f b) := by
  rw [popReg, setFlag_bs]
  exact Res.map_bind ((inert_setFlag f b).pop _ s) fun v t => by rw [setReg_setFlag, Res.map_ok]

theorem callTo_setFlag (a : Addr) (s : State) : callTo a (setFlag f b s) = (callTo a s).map (setFlag f b) :=
  (inert_setFlag f b).pushPcAndJump a s

theorem jumpIf_setFlag (cond : Bool) (d : Int) (s : State) :
    jumpIf cond d (setFlag f b s) = (jumpIf cond d s).map (setFlag f b) := by
  cases cond
  · rfl
  · exact congrArg (Res.ok ()) (by rw [relTarget_setFlag]; exact jump_setFlag _ s)

theorem callIf_setFlag (cond : Bool) (d : Int) (s : State) :
    callIf cond d (setFlag f b s) = (callIf cond d s).map (setFlag f b) := by
  cases cond
  · rfl
  · exact (congrArg (callTo · _) (relTarget_setFlag d s)).trans (callTo_setFlag _ s)

theorem interrupt_setFlag (id : Nat) (s : State) : interrupt id (setFlag f b s) = (interrupt id s).map (setFlag f b) :=
  Res.map_bind ((inert_setFlag f b).findInt id s) fun v t => by
    split_ifs
    · rfl
    · exact callTo_setFlag _ t

theorem lowestFree_setFlag (s : State) : lowestFree (setFlag f b s) = lowestFree s := by cases f <;> rfl

theorem beyondFrames_setFlag (n : Nat) (s : State) : beyondFrames (setFlag f b s) n = beyondFrames s n := by
  cases f <;> rfl

theorem mapPage_setFlag (p : PageNo) (n : Nat) (s : State) :
    mapPage p n (setFlag f b s) = setFlag f b (mapPage p n s) := by
  cases f <;> rfl

theorem allocatePage_setFlag (p : PageNo) (s : State) :
    allocatePage p (setFlag f b s) = (allocatePage p s).map (setFlag f b) := by
  simp only [allocatePage, lowestFree_setFlag, beyondFrames_setFlag, mapPage_setFlag]
  split_ifs <;> rfl

theorem allocatePageAt_setFlag (p : PageNo) (n : Nat) (s : State) :
    allocatePageAt p n (setFlag f b s) = (allocatePageAt p n s).map (setFlag f b) := by
  simp only [allocatePageAt, (inert_setFlag f b).cfg, beyondFrames_setFlag, mapPage_setFlag]
  split_ifs <;> rfl

/-- An arithmetic result overwrites both flags, so the flag set before is lost. -/
theorem setArith_setFlag (f : Flag) (b : Bool) (r : Int) (s : State) :
    ∃ b', Res.ok () (setArith r (setFlag f b s)) = (Res.ok () (setArith r s)).map (setFlag f b') := by
  cases f <;> exact ⟨_, rfl⟩

/-- A compare overwrites Z and keeps C. -/
theorem setCompare_setFlag (f : Flag) (b : Bool) (v w : Word) (s : State) :
    ∃ b', Res.ok () (setCompare v w (setFlag f b s)) = (Res.ok () (setCompare v w s)).map (setFlag f b') := by
  cases f <;> exact ⟨_, rfl⟩

/-! ## Each instruction -/

/-- An action that reads `g` and does not read `f` tells the two apart. -/
theorem ne_of_mem_readers {act : Action} {g : Flag} (ha : act ∈ g.readers) (hi : act ∉ f.readers) : f ≠ g :=
  fun h => hi (h ▸ ha)

/-- The work of an instruction that does not read a flag comes to the same, but for that flag, whatever it holds. -/
theorem work_setFlag {i : Instr} (hi : i.action ∉ f.readers) (b : Bool) (s : State) :
    ∃ b', work i (setFlag f b s) = (work i s).map (setFlag f b') := by
  cases i with
  | add | sub | mul | shl | shr =>
    simp only [work, shiftedLeft, shiftedRight, setFlag_x, setFlag_y, setFlag_bs]
    exact setArith_setFlag f b _ s
  | div | mod =>
    simp only [work, setFlag_x, setFlag_y]
    split_ifs
    · exact ⟨b, rfl⟩
    · exact setArith_setFlag f b _ s
  | cmpi _ | cmp =>
    simp only [work, setFlag_a, setFlag_x, setFlag_y]
    exact setCompare_setFlag f b _ _ s
  | movax | movay | movxa | movxy | movya | movyx => exact ⟨b, moveReg_setFlag _ _ s⟩
  | ldia v | ldix v | ldiy v => exact ⟨b, congrArg _ (setReg_setFlag _ v s)⟩
  | ldba a | ldbx a | ldby a | ldwa a | ldwx a | ldwy a | ldda a | lddx a | lddy a | ldqa a | ldqx a | ldqy a =>
    exact ⟨b, loadReg_setFlag _ _ a s⟩
  | stba a | stbx a | stby a | stwa a | stwx a | stwy a | stda a | stdx a | stdy a | stqa a | stqx a | stqy a =>
    exact ⟨b, storeReg_setFlag _ _ a s⟩
  | pusha | pushx | pushy => exact ⟨b, pushReg_setFlag _ s⟩
  | popa | popx | popy => exact ⟨b, popReg_setFlag _ s⟩
  | setstack _ | setivt _ | free _ | reduce | extend | halt | haltz => cases f <;> exact ⟨b, rfl⟩
  | jmp d => exact ⟨b, jumpIf_setFlag true d s⟩
  | jmpa a => exact ⟨b, congrArg _ (jump_setFlag a s)⟩
  | jz d | jnz d =>
    rw [work, setFlag_z (ne_of_mem_readers (by simp [Flag.readers, Instr.action]) hi)]
    exact ⟨b, jumpIf_setFlag _ d s⟩
  | jc d | jnc d =>
    rw [work, setFlag_c (ne_of_mem_readers (by simp [Flag.readers, Instr.action]) hi)]
    exact ⟨b, jumpIf_setFlag _ d s⟩
  | call d => exact ⟨b, callIf_setFlag true d s⟩
  | calla a => exact ⟨b, callTo_setFlag a s⟩
  | bz d | bnz d =>
    rw [work, setFlag_z (ne_of_mem_readers (by simp [Flag.readers, Instr.action]) hi)]
    exact ⟨b, callIf_setFlag _ d s⟩
  | bc d | bnc d =>
    rw [work, setFlag_c (ne_of_mem_readers (by simp [Flag.readers, Instr.action]) hi)]
    exact ⟨b, callIf_setFlag _ d s⟩
  | ret => exact ⟨b, (inert_setFlag f b).returnPc s⟩
  | int n => exact ⟨b, interrupt_setFlag _ s⟩
  | defint n a => exact ⟨b, (inert_setFlag f b).registerInt _ a s⟩
  | page p => exact ⟨b, allocatePage_setFlag p s⟩
  | pageat p n => exact ⟨b, allocatePageAt_setFlag p _ s⟩

/-- The next state of an instruction that does not read a flag is the same, but for that flag, whatever it holds. -/
theorem exec_setFlag {i : Instr} {s t : State} (hi : i.action ∉ f.readers) (b : Bool) (h : exec i s = .next t) :
    ∃ b', exec i (setFlag f b s) = .next (setFlag f b' t) := by
  obtain ⟨b', hw⟩ := work_setFlag hi b s
  exact ⟨b', by rw [exec_eq_finish, hw, (inert_setFlag f b').finish, exec_eq_next.mp h]⟩

end Sys2Proof.Machine
end

section
/-! PROOFS. The statements on the state (10_state.md): what every step keeps, who writes and who reads each piece, and
the values at reset. -/

namespace Sys2Proof.Machine

/-- Settles O52: every part of a step keeps `State.Fits`, and a settled state has the marker clear. -/
theorem stepKeepsInvariant : Obligations.StepKeepsInvariant := by
  unfold Obligations.StepKeepsInvariant
  intro s t hinv h
  obtain ⟨hs, hidle⟩ := State.inv_iff.mp hinv
  obtain ⟨-, rfl⟩ := step_eq_next.mp h
  exact State.inv_iff.mpr ⟨settle_fits (fetch_bind_work_fits hs),
    settle_idle fun _ hu => (fetch_bind_work_routing hu).trans hidle⟩

/-- Settles O57: every register and flag is kept by the work (`work_framed`) and by settling. -/
theorem registerAndFlagWriters : Obligations.RegisterAndFlagWriters := by
  unfold Obligations.RegisterAndFlagWriters
  intro i s t h
  obtain ⟨u, hu, ⟨_, _, _, _, _, _, _, rfl⟩, -⟩ := exec_framed h
  exact ⟨hu.reg .A, hu.reg .X, hu.reg .Y, hu.c, hu.z⟩

/-- Settles O58: `exec_setFlag`, for each of the two flags. -/
theorem flagReaders : Obligations.FlagReaders := by
  unfold Obligations.FlagReaders
  intro i s t b h
  exact ⟨fun hz => exec_setFlag (f := .z) hz b h, fun hc => exec_setFlag (f := .c) hc b h⟩

/-- Settles O59: as O57, and settling changes `run` to a fatal end alone. -/
theorem controlStateWriters : Obligations.ControlStateWriters := by
  unfold Obligations.ControlStateWriters
  intro i s t h
  obtain ⟨u, hu, hs, hrun⟩ := exec_framed h
  refine ⟨?_, ?_, ?_, ?_, fun ha => hrun.imp_left fun h => h.trans (hu.run ha)⟩
  all_goals obtain ⟨_, _, _, _, _, _, _, rfl⟩ := hs
  exacts [hu.bs, hu.stack, hu.ivt, hu.pt]

/-- Settles O60: fetch and work leave the three as they should be, and settling writes none of them. -/
theorem stepKeepsParameters : Obligations.StepKeepsParameters := by
  unfold Obligations.StepKeepsParameters
  intro s t h
  obtain ⟨-, rfl⟩ := step_eq_next.mp h
  obtain ⟨u, hu, ⟨_, _, _, _, _, _, _, he⟩, -⟩ := settle_ends (fetch_bind_work_parameters s)
  rw [he]
  exact hu

/-- Settles O53: zero registers fit every width, and the maps are empty. -/
theorem resetMeetsInvariant : Obligations.ResetMeetsInvariant := by
  unfold Obligations.ResetMeetsInvariant
  intro cfg
  have hpos : 0 < 2 ^ cfg.resetBs.width := Nat.two_pow_pos _
  exact
    { widths := ⟨hpos, hpos, hpos⟩
      pageTable := ⟨.nil, fun _ he => absurd he List.not_mem_nil⟩
      store := ⟨⟨.nil, fun _ he => absurd he List.not_mem_nil⟩, fun _ he => absurd he List.not_mem_nil⟩
      idle := rfl
      portCount := Nat.zero_le _ }

/-- Settles O54: each field of `State.resetWith` is the value that the rule gives; an empty map has no entry and reads
as 0. -/
theorem resetValues : Obligations.ResetValues := by
  unfold Obligations.ResetValues
  exact ⟨rfl, fun cfg => ⟨_, rfl, rfl, rfl, rfl, rfl, rfl, rfl, rfl, rfl, rfl, rfl, rfl, fun _ => rfl, Memory.read_nil,
    rfl, rfl, rfl, rfl⟩⟩

end Sys2Proof.Machine
end

section
/-! SUPPORT. One byte of memory or of a port, by the page and the offset of its address (20_memory.md R51 to R54, R57,
R58, R71). -/

namespace Sys2Proof.Machine

variable {s : State} {a : Addr}

/-! ## Translation -/

theorem pageOf_eq_iff {p : PageNo} : pageOf a = p ↔ a.toNat / 4096 = p.toNat := by
  rw [← BitVec.toNat_inj, toNat_pageOf]

theorem translate_of_devicePage (h : a.toNat / 4096 = s.cfg.devicePage.toNat) :
    translate s a = .port (a.toNat % 4096) := by
  rw [translate, if_pos (pageOf_eq_iff.mpr h), toNat_offsetOf]

theorem translate_of_mapped {f : Nat} (h : a.toNat / 4096 ≠ s.cfg.devicePage.toNat)
    (hf : mapGet s.pt (a.toNat / 4096) = some f) : translate s a = .cell (4096 * f + a.toNat % 4096) := by
  rw [translate, if_neg (mt pageOf_eq_iff.mp h), toNat_pageOf, hf]
  simp only [cellKey, toNat_offsetOf]

theorem translate_of_absent (h : a.toNat / 4096 ≠ s.cfg.devicePage.toNat)
    (hf : mapGet s.pt (a.toNat / 4096) = none) : translate s a = .unmapped := by
  rw [translate, if_neg (mt pageOf_eq_iff.mp h), toNat_pageOf, hf]

/-- The `i`-th address after port `k` of the device page is port `k + i`, inside the page. -/
theorem translate_devicePage_add {k i : Nat} (ha : a.toNat = s.cfg.devicePage.toNat * 4096 + k) (hi : k + i < 4096) :
    translate s (a + BitVec.ofNat 32 i) = .port (k + i) := by
  have hd := s.cfg.devicePage.isLt
  have hsum : (a + BitVec.ofNat 32 i).toNat = s.cfg.devicePage.toNat * 4096 + (k + i) := by
    rw [BitVec.toNat_add, BitVec.toNat_ofNat]
    omega
  rw [translate_of_devicePage (by omega), show (a + BitVec.ofNat 32 i).toNat % 4096 = k + i by omega]

theorem toNat_page_append (p : PageNo) (o : Offset) : (p ++ o).toNat = 4096 * p.toNat + o.toNat := by
  rw [BitVec.toNat_append, Nat.shiftLeft_eq, Nat.mul_comm, ← Nat.two_pow_add_eq_or_of_lt o.isLt]

/-- An address put together from a mapped page and an offset reaches that byte of the page's frame. -/
theorem translate_append {p : PageNo} {f : Nat} (o : Offset) (hp : p ≠ s.cfg.devicePage)
    (hf : mapGet s.pt p.toNat = some f) : translate s (p ++ o) = .cell (cellKey f o) := by
  have ho := o.isLt
  have hpage : (p ++ o).toNat / 4096 = p.toNat := by rw [toNat_page_append]; omega
  have hoffset : (p ++ o).toNat % 4096 = o.toNat := by rw [toNat_page_append]; omega
  rw [translate_of_mapped (f := f) (by rwa [hpage, ne_eq, BitVec.toNat_inj]) (by rwa [hpage]), hoffset, cellKey]

/-! ## Ports -/

theorem portRead_of_lt {k : Nat} (h : k < s.ports) :
    portRead k s = .ok (Config.deviceRead s.draws)
      { s with draws := s.draws + 1, portLog := .read k (Config.deviceRead s.draws) :: s.portLog } :=
  if_pos h

theorem portRead_absent {k : Nat} (h : s.ports ≤ k) : portRead k s = .fatal .noPort s :=
  if_neg h.not_gt

theorem portWrite_of_lt {k : Nat} (b : Byte) (h : k < s.ports) :
    portWrite k b s = .ok () { s with portLog := .write k b :: s.portLog } :=
  if_pos h

theorem portWrite_absent {k : Nat} (b : Byte) (h : s.ports ≤ k) : portWrite k b s = .fatal .noPort s :=
  if_neg h.not_gt

/-! ## The frame store -/

theorem Memory.read_write (m : Memory) (k l : Nat) (b : Byte) :
    (m.write k b).read l = if l = k then b else m.read l := by
  split_ifs with h
  · rw [h, Memory.read_write_same]
  · exact Memory.read_write_other m b h

end Sys2Proof.Machine
end

section
/-! SUPPORT. Multi-byte access by its last byte: `memRead` and `memWrite` recurse on the first byte, the rules speak of
the bytes before byte `i` (20_memory.md R63, R64, R69). -/

namespace Sys2Proof.Machine

variable {s t : State} {a : Addr} {i n v k : Nat}

theorem two_pow_eight_mul (i : Nat) : 2 ^ (8 * i) = 256 ^ i := Nat.pow_mul 2 8 i

theorem leValue_append (l m : List Byte) : leValue (l ++ m) = leValue l + 256 ^ l.length * leValue m := by
  induction l with
  | nil => simp [leValue]
  | cons b l ih =>
    simp only [List.cons_append, leValue, ih, List.length_cons, Nat.pow_succ]
    ring

/-- A read longer than `i` bytes is, after those, the load of byte `i`, which counts 256^i, and then the rest. -/
theorem memRead_eq_load_bind (h : memRead a i s = .ok v t) (m : Nat) :
    memRead a (i + m + 1) s = (load (a + BitVec.ofNat 32 i) t).bind fun b u =>
      (memRead (a + BitVec.ofNat 32 i + 1#32) m u).bind fun w x => .ok (v + 256 ^ i * (b.toNat + 256 * w)) x := by
  rw [Nat.add_assoc, memRead_append, h, Res.bind_ok, memRead]
  cases load (a + BitVec.ofNat 32 i) t with
  | ok b u => simp only [Res.bind_ok]; cases memRead (a + BitVec.ofNat 32 i + 1#32) m u <;> rfl
  | raise k u => rfl
  | fatal r u => rfl

/-- A write longer than `i` bytes is, after those, the store of byte `i` and then the rest. -/
theorem memWrite_eq_store_bind (h : memWrite a i v s = .ok () t) (m : Nat) :
    memWrite a (i + m + 1) v s =
      (store (a + BitVec.ofNat 32 i) (BitVec.ofNat 8 (v / 2 ^ (8 * i))) t).bind fun _ u =>
        memWrite (a + BitVec.ofNat 32 i + 1#32) m (v / 256 ^ i / 256) u := by
  rw [Nat.add_assoc, memWrite_append, h, Res.bind_ok, memWrite, two_pow_eight_mul]

theorem memRead_succ {b : Byte} {u : State} (h : memRead a i s = .ok v t)
    (hb : load (a + BitVec.ofNat 32 i) t = .ok b u) :
    memRead a (i + 1) s = .ok (v + 256 ^ i * b.toNat) u := by
  rw [memRead_eq_load_bind h 0, hb]
  rfl

theorem memWrite_succ {u : State} (h : memWrite a i v s = .ok () t)
    (hb : store (a + BitVec.ofNat 32 i) (BitVec.ofNat 8 (v / 2 ^ (8 * i))) t = .ok () u) :
    memWrite a (i + 1) v s = .ok () u := by
  rw [memWrite_eq_store_bind h 0, hb]
  rfl

/-- Reading back a value that stands in memory gives it modulo 2^(8n), and nothing changes (20_memory.md R64). -/
theorem memRead_of_leBytes (h : HoldsBytes s a (leBytes n v)) : memRead a n s = .ok (v % 2 ^ (8 * n)) s := by
  have hread := memRead_of_holds h
  rwa [length_leBytes, leValue_leBytes, ← two_pow_eight_mul] at hread

/-! ## Consecutive ports -/

theorem memRead_ports (ha : a.toNat = s.cfg.devicePage.toNat * 4096 + k) (hpage : k + n ≤ 4096)
    (hports : k + n ≤ s.ports) :
    memRead a n s = .ok (leValue ((List.range n).map fun i => Config.deviceRead (s.draws + i)))
      { s with
        draws := s.draws + n
        portLog :=
          ((List.range n).map fun i => PortCall.read (k + i) (Config.deviceRead (s.draws + i))).reverse
            ++ s.portLog } := by
  induction n with
  | zero => rfl
  | succ n ih =>
    rw [memRead_succ (ih (by omega) (by omega)) ((load_port (k := k + n) ?_).trans (portRead_of_lt ?_))]
    · simp [List.range_succ, leValue_append, leValue, Nat.add_assoc]
    · exact translate_devicePage_add ha hpage
    · exact hports

theorem memWrite_ports (v : Nat) (ha : a.toNat = s.cfg.devicePage.toNat * 4096 + k) (hpage : k + n ≤ 4096)
    (hports : k + n ≤ s.ports) :
    memWrite a n v s = .ok () { s with
      portLog := ((List.range n).map fun i => PortCall.write (k + i) (BitVec.ofNat 8 (v / 2 ^ (8 * i)))).reverse
        ++ s.portLog } := by
  induction n with
  | zero => rfl
  | succ n ih =>
    rw [memWrite_succ (ih (by omega) (by omega)) ((store_port (k := k + n) ?_).trans (portWrite_of_lt _ ?_))]
    · simp [List.range_succ]
    · exact translate_devicePage_add ha hpage
    · exact hports

end Sys2Proof.Machine
end

section
/-! SUPPORT. Which frames are in use, and what the allocations come to (20_memory.md R59, R60). -/

namespace Sys2Proof.Machine

variable {s : State} {p : PageNo} {f : Nat}

theorem mapGet_mapSet {α : Type} (m : List (Nat × α)) (k l : Nat) (v : α) :
    mapGet (mapSet m k v) l = if l = k then some v else mapGet m l := by
  split_ifs with h
  · rw [h, mapGet_mapSet_same]
  · exact mapGet_mapSet_other m v h

theorem mem_usedFrames (h : mapSorted s.pt) :
    f ∈ usedFrames s ↔ f = s.cfg.deviceFrame ∨ ∃ p, mapGet s.pt p = some f := by
  have hpt : f ∈ s.pt.map Prod.snd ↔ ∃ p, mapGet s.pt p = some f := by
    rw [List.mem_map]
    constructor
    · rintro ⟨⟨p, _⟩, he, rfl⟩
      exact ⟨p, mapGet_of_mem h he⟩
    · rintro ⟨p, hp⟩
      exact ⟨(p, f), mem_of_mapGet hp, rfl⟩
  rw [usedFrames, List.mem_cons, hpt]

theorem lowestFree_isLowestFree (h : mapSorted s.pt) : Spec.IsLowestFree s (lowestFree s) := by
  have hfree := mt (mem_usedFrames h).mpr (lowestFree_not_used s)
  obtain ⟨hdevice, hmapped⟩ := not_or.mp hfree
  exact ⟨hdevice, not_exists.mp hmapped, fun g hg => (mem_usedFrames h).mp (lt_lowestFree_used hg)⟩

theorem beyondFrames_eq_true : beyondFrames s f = true ↔ ¬ Spec.FrameExists s f := by
  rw [← Bool.not_eq_false, beyondFrames_eq_false]

theorem allocatePage_of_exists (h : Spec.FrameExists s (lowestFree s)) :
    allocatePage p s = .ok () (mapPage p (lowestFree s) s) := by
  simp [allocatePage, beyondFrames_eq_false.mpr h]

theorem allocatePage_of_not_exists (h : ¬ Spec.FrameExists s (lowestFree s)) :
    allocatePage p s = .fatal .outOfFrames s :=
  if_pos (beyondFrames_eq_true.mpr h)

theorem allocatePageAt_of_exists (hd : f ≠ s.cfg.deviceFrame) (h : Spec.FrameExists s f) :
    allocatePageAt p f s = .ok () (mapPage p f s) := by
  simp [allocatePageAt, hd, beyondFrames_eq_false.mpr h]

end Sys2Proof.Machine
end

section
/-! SUPPORT. The stack and IVT operations once their checks have passed (20_memory.md R76, R77, R80, R81). -/

namespace Sys2Proof.Machine

variable {s : State} {n v id : Nat} {t : Addr}

theorem push_of_stack (h : s.stackBaseValid = true) :
    push n v s = memWrite (s.stackBase - (s.stackPos + BitVec.ofNat 32 n)) n v
      { s with stackPos := s.stackPos + BitVec.ofNat 32 n } :=
  if_pos h

theorem pop_of_stack (h : s.stackBaseValid = true) :
    pop n s = (memRead (s.stackBase - s.stackPos) n s).bind fun v t =>
      .ok v { t with stackPos := t.stackPos - BitVec.ofNat 32 n } :=
  if_pos h

theorem registerInt_overflow (h : s.cfg.ivtMaxId < id) : registerInt id t s = .raise .ivtOverflow s :=
  if_pos h

theorem registerInt_noIvt (hid : id ≤ s.cfg.ivtMaxId) (h : s.ivtBaseValid = false) :
    registerInt id t s = .fatal .unsetBase s := by
  simp [registerInt, hid.not_gt, h]

theorem registerInt_of_ivt (hid : id ≤ s.cfg.ivtMaxId) (h : s.ivtBaseValid = true) :
    registerInt id t s = memWrite (s.ivtBase + BitVec.ofNat 32 (4 * id)) 4 t.toNat s := by
  rw [registerInt, if_neg hid.not_gt, if_pos h, ivtSlot]

theorem findInt_noIvt (h : s.ivtBaseValid = false) : findInt id s = .fatal .unsetBase s := by
  simp [findInt, h]

theorem findInt_of_ivt (h : s.ivtBaseValid = true) :
    findInt id s = (memRead (s.ivtBase + BitVec.ofNat 32 (4 * id)) 4 s).bind fun v t =>
      if v = 0 ∧ id < 0x100 then .raise .undefinedInterrupt t else .ok v t :=
  if_pos h

/-- An entry that stands in memory is found, unless it is 0 and the id below 0x100 (20_memory.md R81). -/
theorem findInt_of_holds (h : s.ivtBaseValid = true)
    (hb : HoldsBytes s (s.ivtBase + BitVec.ofNat 32 (4 * id)) (leBytes 4 t.toNat)) (ht : t ≠ 0 ∨ 0x100 ≤ id) :
    findInt id s = .ok t.toNat s := by
  have hread : memRead (s.ivtBase + BitVec.ofNat 32 (4 * id)) 4 s = .ok t.toNat s := by
    rw [memRead_of_leBytes hb, Nat.mod_eq_of_lt t.isLt]
  have hentry : ¬ (t.toNat = 0 ∧ id < 0x100) := by
    rintro ⟨h0, hid⟩
    exact ht.elim (fun hne => hne (BitVec.toNat_inj.mp h0)) hid.not_ge
  rw [findInt_of_ivt h, hread, Res.bind_ok, if_neg hentry]

end Sys2Proof.Machine
end

section
/-! PROOFS. The statements on memory, page table, stack and IVT (20_memory.md). -/

namespace Sys2Proof.Machine

/-- Settles O11: the read of the bytes before byte `i` splits off (`memRead_eq_load_bind`), and what follows a raise or
a fatal does not run. -/
theorem memReadAscending : Obligations.MemReadAscending := by
  unfold Obligations.MemReadAscending
  intro a s
  refine ⟨rfl, fun i v t h => ⟨fun b u hb => ?_, fun k u hk n hi => ?_, fun r u hr n hi => ?_⟩⟩
  · rw [memRead_succ h hb, two_pow_eight_mul, Nat.mul_comm]
  · obtain ⟨m, rfl⟩ := Nat.exists_eq_add_of_lt hi
    rw [memRead_eq_load_bind h, hk, Res.bind_raise]
  · obtain ⟨m, rfl⟩ := Nat.exists_eq_add_of_lt hi
    rw [memRead_eq_load_bind h, hr, Res.bind_fatal]

/-- Settles O12: as O11, by `memWrite_eq_store_bind`. -/
theorem memWriteAscending : Obligations.MemWriteAscending := by
  unfold Obligations.MemWriteAscending
  intro a v s
  refine ⟨rfl, fun i t h => ⟨fun u => memWrite_succ h, fun k u hk n hi => ?_, fun r u hr n hi => ?_⟩⟩
  · obtain ⟨m, rfl⟩ := Nat.exists_eq_add_of_lt hi
    rw [memWrite_eq_store_bind h, hk, Res.bind_raise]
  · obtain ⟨m, rfl⟩ := Nat.exists_eq_add_of_lt hi
    rw [memWrite_eq_store_bind h, hr, Res.bind_fatal]

/-- Settles O13: the write leaves the value's bytes, which are read as they stand. -/
theorem writeThenRead : Obligations.WriteThenRead := by
  unfold Obligations.WriteThenRead
  intro a n v s hn hmem
  obtain ⟨f, hwrite, hbytes, hframe⟩ := memWrite_inMemory (hn.trans (by norm_num)) v hmem
  exact ⟨_, hwrite, memRead_of_leBytes hbytes, rfl, hframe⟩

/-- Settles O14: both pages translate an offset to the same cell, and freeing a page touches no cell. -/
theorem aliasedPages : Obligations.AliasedPages := by
  unfold Obligations.AliasedPages
  intro p q o f b s hp hq hpf
  have hcell := translate_append o hp hpf
  refine ⟨fun hqf => ⟨_, store_cell hcell, ?_⟩, fun hd hf c hc => ?_⟩
  · rw [load_cell (key := cellKey f o), Memory.read_write_same]
    exact translate_append o hq hqf
  · have hbyte : s.frames.read (cellKey f o) = c := by
      rw [load_cell hcell] at hc
      injection hc
    refine ⟨_, allocatePageAt_of_exists hd hf, ?_⟩
    rw [load_cell (key := cellKey f o)]
    · exact congrArg (Res.ok · _) hbyte
    · exact translate_append o hq (mapGet_mapSet_same _ _ f)

/-- Settles O15: each access goes through the ports byte by byte, the last at port `k + n - 1` (`memRead_ports`,
`memWrite_ports`). -/
theorem consecutivePorts : Obligations.ConsecutivePorts := by
  unfold Obligations.ConsecutivePorts
  exact fun a k n v s ha hpage hports => ⟨memRead_ports ha hpage hports, memWrite_ports v ha hpage hports⟩

/-- Settles O16: in a sorted page table the used frames are those that some page maps to, and DEVICE_FRAME. -/
theorem lowestFreeFrame : Obligations.LowestFreeFrame := by
  unfold Obligations.LowestFreeFrame
  exact fun p s hpt => ⟨lowestFree_isLowestFree hpt,
    fun hf => ⟨_, allocatePage_of_exists hf, fun q => mapGet_mapSet _ _ q _⟩, allocatePage_of_not_exists⟩

/-- Settles O17: the write starts from the state whose stack_pos is already up. -/
theorem pushRule : Obligations.PushRule := by
  unfold Obligations.PushRule
  exact fun n v s hn => ⟨push_noStack, push_of_stack, push_pushed (hn.trans (by norm_num)) v⟩

/-- Settles O19: the pop reads the slot that the push has written, because the push keeps stack_base. -/
theorem pushThenPop : Obligations.PushThenPop := by
  unfold Obligations.PushThenPop
  intro n v s hn hpush
  obtain ⟨t, ht, heq, hbytes, -⟩ := push_pushed (hn.trans (by norm_num)) v hpush
  refine ⟨t, ht, ?_⟩
  have hvalid : t.stackBaseValid = true := by rw [heq]; exact hpush.1
  have hbase : t.stackBase = s.stackBase := by rw [heq]
  have hpos : t.stackPos = s.stackPos + BitVec.ofNat 32 n := by rw [heq]
  have hread : memRead (t.stackBase - t.stackPos) n t = .ok (v % 2 ^ (8 * n)) t := by
    rw [hbase, hpos, memRead_of_leBytes hbytes]
  rw [pop_of_stack hvalid, hread, Res.bind_ok, hpos, BitVec.add_sub_cancel]

/-- Settles O20: the checks in their order, then the write of the entry. -/
theorem registerIntRule : Obligations.RegisterIntRule := by
  unfold Obligations.RegisterIntRule
  intro id t s
  refine ⟨registerInt_overflow, registerInt_noIvt, fun hid h => ⟨registerInt_of_ivt hid h, fun hmem => ?_⟩⟩
  obtain ⟨f, hwrite, hbytes, -⟩ := memWrite_inMemory (by norm_num) t.toNat hmem
  exact ⟨f, (registerInt_of_ivt hid h).trans hwrite, hbytes⟩

/-- Settles O22: the entry's bytes are those of the target in every state that has not changed them. -/
theorem registerThenFind : Obligations.RegisterThenFind := by
  unfold Obligations.RegisterThenFind
  intro id t s hid h hmem ht
  obtain ⟨f, hwrite, hbytes, -⟩ := memWrite_inMemory (by norm_num) t.toNat hmem
  refine ⟨_, (registerInt_of_ivt hid h).trans hwrite, fun w hw _ hsame => findInt_of_holds hw (fun k hk => ?_) ht⟩
  exact (hsame k (by simpa using hk)).trans (hbytes k hk)

/-- Settles O9: where the address translates to, in the three cases of R52 to R54, and the port's own check. -/
theorem loadByte : Obligations.LoadByte := by
  unfold Obligations.LoadByte
  refine fun a s => ⟨fun hp hk => ?_, fun hp hk => ?_, fun hp hf => ?_, fun f hp hf => ?_⟩
  · rw [load_port (translate_of_devicePage hp), portRead_of_lt hk]
  · rw [load_port (translate_of_devicePage hp), portRead_absent hk]
  · exact load_unmapped (translate_of_absent hp hf)
  · exact load_cell (translate_of_mapped hp hf)

/-- Settles O10: as O9, and a frame write changes the byte at its key alone (`Memory.read_write`). -/
theorem storeByte : Obligations.StoreByte := by
  unfold Obligations.StoreByte
  refine fun a b s => ⟨fun hp hk => ?_, fun hp hk => ?_, fun hp hf => ?_, fun f hp hf => ?_⟩
  · rw [store_port (translate_of_devicePage hp), portWrite_of_lt b hk]
  · rw [store_port (translate_of_devicePage hp), portWrite_absent b hk]
  · exact store_unmapped (translate_of_absent hp hf)
  · exact ⟨_, store_cell (translate_of_mapped hp hf), fun key => Memory.read_write _ _ key b⟩

/-- Settles O18: the decrement comes after the read, which keeps stack_pos (`memRead_ends`). -/
theorem popRule : Obligations.PopRule := by
  unfold Obligations.PopRule
  intro n s
  have hends := memRead_ends (s.stackBase - s.stackPos) n s
  refine ⟨pop_noStack, fun h => ⟨fun v t hv => ?_, fun k t hk => ?_, fun r t hr => ?_⟩⟩
  · obtain ⟨_, _, rfl⟩ := hends.of_eq_ok hv
    rw [pop_of_stack h, hv, Res.bind_ok]
  · rw [hk] at hends
    obtain ⟨_, _, rfl⟩ := hends
    exact ⟨by rw [pop_of_stack h, hk, Res.bind_raise], rfl⟩
  · rw [pop_of_stack h, hr, Res.bind_fatal]

/-- Settles O21: the base check, then the read of the entry with each of its outcomes. -/
theorem findIntRule : Obligations.FindIntRule := by
  unfold Obligations.FindIntRule
  intro id s
  refine ⟨findInt_noIvt, fun h => ⟨fun v t hv => ⟨fun h0 hid => ?_, fun hne => ?_⟩, fun k t hk => ?_, fun r t hr => ?_⟩⟩
  · rw [findInt_of_ivt h, hv, Res.bind_ok, if_pos ⟨h0, hid⟩]
  · have hentry : ¬ (v = 0 ∧ id < 0x100) := fun ⟨h0, hid⟩ => hne.elim (· h0) hid.not_ge
    rw [findInt_of_ivt h, hv, Res.bind_ok, if_neg hentry]
  · rw [findInt_of_ivt h, hk, Res.bind_raise]
  · rw [findInt_of_ivt h, hr, Res.bind_fatal]

end Sys2Proof.Machine
end

section
/-! SUPPORT. The decoder as one statement over lists of operand words: what it takes, and what the format makes of it
(30_encoding.md R93, R96, R97). -/

namespace Sys2Proof

open Sys2Proof.Machine Sys2Proof.Laws.Rebuild

variable {tbl : OpTable} {bs : BlockSize} {f : Format} {act : Action} {i : Instr} {b0 b1 : Byte}
  {l w x rest : List Byte} {vs : List Nat}

/-! ## What a format makes of operand words -/

/-- A format takes as many operand words as it counts (30_encoding.md R97). -/
theorem length_of_apply (h : apply f vs = some i) : vs.length = f.count := by
  unfold apply at h
  split at h
  case h_1 | h_2 | h_3 => rfl
  case h_4 => cases h

/-- An instruction that a format makes of words below `n` is one that it builds. -/
theorem Format.Builds.of_apply {P : Instr → Prop} {n : Nat} (hf : f.Builds P n) (hvs : ∀ v ∈ vs, v < n)
    (h : apply f vs = some i) : P i := by
  unfold apply at h
  split at h
  case h_1 =>
    cases h
    exact hf
  case h_2 v =>
    cases h
    exact hf v (hvs v (by simp))
  case h_3 v u =>
    cases h
    exact hf v (hvs v (by simp)) u (hvs u (by simp))
  case h_4 => cases h

/-! ## The operand words of a format in a list of bytes -/

theorem decodeOperands_f1 (build : Nat → Instr) (hw : w.length = bs.bytes) (rest : List Byte) :
    decodeOperands bs (.f1 build) (w ++ rest) = some (build (leValue w), rest) := by
  rw [decodeOperands, takeWord_append hw, Option.map_some]

theorem decodeOperands_f2 (build : Nat → Nat → Instr) (hw : w.length = bs.bytes) (hx : x.length = bs.bytes)
    (rest : List Byte) :
    decodeOperands bs (.f2 build) (w ++ (x ++ rest)) = some (build (leValue w) (leValue x), rest) := by
  rw [decodeOperands, takeWord_append hw, Option.bind_some, takeWord_append hx, Option.map_some]

/-- Operand words of WB bytes that a format makes an instruction of are read as it. -/
theorem decodeOperands_of_apply {ws : List (List Byte)} (hws : ∀ w ∈ ws, w.length = bs.bytes)
    (h : apply f (ws.map leValue) = some i) (rest : List Byte) :
    decodeOperands bs f (ws.flatten ++ rest) = some (i, rest) := by
  have hcount := length_of_apply h
  rw [List.length_map] at hcount
  cases f with
  | f0 j =>
    obtain rfl := List.length_eq_zero_iff.mp hcount
    cases h
    rfl
  | f1 build =>
    obtain ⟨w, rfl⟩ := List.length_eq_one_iff.mp hcount
    cases h
    simpa using decodeOperands_f1 build (hws w (by simp)) rest
  | f2 build =>
    obtain ⟨w, x, rfl⟩ := List.length_eq_two.mp hcount
    cases h
    simpa using decodeOperands_f2 build (hws w (by simp)) (hws x (by simp)) rest

/-- Operands that are read stand as operand words of WB bytes, of which the format makes the instruction. -/
theorem apply_of_decodeOperands (h : decodeOperands bs f l = some (i, rest)) :
    ∃ ws : List (List Byte), (∀ w ∈ ws, w.length = bs.bytes) ∧ l = ws.flatten ++ rest ∧
      apply f (ws.map leValue) = some i := by
  cases f with
  | f0 j =>
    cases h
    exact ⟨[], by simp, rfl, rfl⟩
  | f1 build =>
    obtain ⟨⟨v, m⟩, hv, he⟩ := Option.map_eq_some_iff.mp h
    cases he
    obtain ⟨w, hw, rfl, rfl⟩ := takeWord_eq_some hv
    exact ⟨[w], by simpa using hw, by simp, rfl⟩
  | f2 build =>
    obtain ⟨⟨v, m⟩, hv, he⟩ := Option.bind_eq_some_iff.mp h
    obtain ⟨⟨u, m'⟩, hu, he⟩ := Option.map_eq_some_iff.mp he
    cases he
    obtain ⟨w, hw, rfl, rfl⟩ := takeWord_eq_some hv
    obtain ⟨x, hx, rfl, rfl⟩ := takeWord_eq_some hu
    exact ⟨[w, x], by simp [hw, hx], by simp, rfl⟩

/-- An operand word of WB bytes is below 2^W (30_encoding.md R94). -/
theorem leValue_lt_width (hw : w.length = bs.bytes) : leValue w < 2 ^ bs.width := by
  rw [two_pow_width, ← hw]
  exact leValue_lt w

/-! ## Decoding past the opcode -/

theorem decode_of_action (ha : tbl.action (opcodeOf b0 b1) = some act)
    (h : decodeOperands bs (act.format bs) l = some (i, rest)) : decode tbl bs (b0 :: b1 :: l) = .ok (i, rest) := by
  simp only [decode, ha, h]

theorem decode_of_absent (ha : tbl.action (opcodeOf b0 b1) = none) (l : List Byte) :
    decode tbl bs (b0 :: b1 :: l) = .error (.unknownOpcode (opcodeOf b0 b1)) := by
  simp only [decode, ha]

/-- What decodes has an action, and its operands are read by the action's format (30_encoding.md R107). -/
theorem action_of_decode (h : decode tbl bs (b0 :: b1 :: l) = .ok (i, rest)) :
    ∃ act, tbl.action (opcodeOf b0 b1) = some act ∧ decodeOperands bs (act.format bs) l = some (i, rest) := by
  cases ha : tbl.action (opcodeOf b0 b1) with
  | none =>
    rw [decode_of_absent ha] at h
    cases h
  | some act =>
    cases hp : decodeOperands bs (act.format bs) l with
    | none => simp [decode, ha, hp] at h
    | some p =>
      rw [decode_of_action ha hp] at h
      cases h
      exact ⟨act, rfl, hp⟩

theorem decode_f1 {build : Nat → Instr} (ha : tbl.action (opcodeOf b0 b1) = some act)
    (hf : act.format bs = .f1 build) (hw : w.length = bs.bytes) (rest : List Byte) :
    decode tbl bs (b0 :: b1 :: (w ++ rest)) = .ok (build (leValue w), rest) :=
  decode_of_action ha (hf ▸ decodeOperands_f1 build hw rest)

theorem decode_f2 {build : Nat → Nat → Instr} (ha : tbl.action (opcodeOf b0 b1) = some act)
    (hf : act.format bs = .f2 build) (hw : w.length = bs.bytes) (hx : x.length = bs.bytes) (rest : List Byte) :
    decode tbl bs (b0 :: b1 :: (w ++ (x ++ rest))) = .ok (build (leValue w) (leValue x), rest) :=
  decode_of_action ha (hf ▸ decodeOperands_f2 build hw hx rest)

end Sys2Proof
end

section
/-! SUPPORT. The encoder: every instruction is rebuilt from its operand words, a fitting operand's word is below 2^W,
and a table whose opcodes are distinct has an opcode for every action in it (30_encoding.md R92, R94, R98). -/

namespace Sys2Proof

open Sys2Proof.Machine

variable {tbl : OpTable} {bs : BlockSize} {act : Action} {i : Instr} {op : Opcode} {o : Operand}

/-! ## Operand words -/

/-- The round trip of operands, for all 72 instructions. -/
theorem Laws.Rebuild.rebuild : ∀ i, Statement i
  | .add => add | .sub => sub | .mul => mul | .div => div | .mod => mod | .shl => shl | .shr => shr
  | .cmpi v => cmpi v | .cmp => cmp
  | .movax => movax | .movay => movay | .movxa => movxa | .movxy => movxy | .movya => movya | .movyx => movyx
  | .ldia v => ldia v | .ldix v => ldix v | .ldiy v => ldiy v
  | .ldba a => ldba a | .ldbx a => ldbx a | .ldby a => ldby a
  | .ldwa a => ldwa a | .ldwx a => ldwx a | .ldwy a => ldwy a
  | .ldda a => ldda a | .lddx a => lddx a | .lddy a => lddy a
  | .ldqa a => ldqa a | .ldqx a => ldqx a | .ldqy a => ldqy a
  | .stba a => stba a | .stbx a => stbx a | .stby a => stby a
  | .stwa a => stwa a | .stwx a => stwx a | .stwy a => stwy a
  | .stda a => stda a | .stdx a => stdx a | .stdy a => stdy a
  | .stqa a => stqa a | .stqx a => stqx a | .stqy a => stqy a
  | .pusha => pusha | .pushx => pushx | .pushy => pushy | .popa => popa | .popx => popx | .popy => popy
  | .setstack a => setstack a
  | .jmp d => jmp d | .jmpa t => jmpa t | .jz d => jz d | .jnz d => jnz d | .jc d => jc d | .jnc d => jnc d
  | .call d => call d | .calla t => calla t | .bz d => bz d | .bnz d => bnz d | .bc d => bc d | .bnc d => bnc d
  | .ret => ret
  | .int n => int n | .defint n t => defint n t | .setivt a => setivt a
  | .page p => page p | .pageat p f => pageat p f | .free p => free p
  | .reduce => reduce | .extend => extend | .halt => halt | .haltz => haltz

/-- The operand word of an operand that fits is below 2^W; that of a displacement always is. -/
theorem word_lt_of_fits (h : o.fits bs = true) : o.word bs < 2 ^ bs.width := by
  cases o with
  | disp d => exact maskW_lt bs d
  | imm v | addr a | tgt t | id n | page p | frame f => exact of_decide_eq_true h

theorem leValue_leBytes_word (h : o.fits bs = true) : leValue (leBytes bs.bytes (o.word bs)) = o.word bs := by
  rw [leValue_leBytes, ← two_pow_width, Nat.mod_eq_of_lt (word_lt_of_fits h)]

/-- The operand bytes of a well-formed instruction are read back as its operands. -/
theorem decodeOperands_encoded (h : i.wellFormed bs = true) (rest : List Byte) :
    decodeOperands bs (i.action.format bs)
      ((i.operands.map fun o => leBytes bs.bytes (o.word bs)).flatten ++ rest) = some (i, rest) := by
  have hwords : (i.operands.map fun o => leBytes bs.bytes (o.word bs)).map leValue =
      i.operands.map (Operand.word bs) := by
    rw [List.map_map]
    exact List.map_congr_left fun o ho => leValue_leBytes_word (List.all_eq_true.mp h o ho)
  refine decodeOperands_of_apply (List.forall_mem_map.mpr fun o _ => length_leBytes _ _) ?_ rest
  rw [hwords]
  exact Laws.Rebuild.rebuild i bs h

/-! ## Opcodes -/

/-- In a table whose opcodes are distinct every entry counts (30_encoding.md R92). -/
theorem action_of_mem (hnd : (tbl.map Prod.fst).Nodup) (h : (op, act) ∈ tbl) : tbl.action op = some act := by
  cases hfind : tbl.find? fun e => e.1 == op with
  | none => exact absurd (List.find?_eq_none.mp hfind _ h) (by simp)
  | some e =>
    have hop : e.1 = op := by simpa using List.find?_some hfind
    have he : e = (op, act) := List.inj_on_of_nodup_map hnd (List.mem_of_find?_eq_some hfind) h hop
    rw [OpTable.action, hfind, he, Option.map_some]

/-- A table gives an opcode to every action that it reads an opcode as. -/
theorem opcodeFor_isSome (h : (op, act) ∈ tbl) (ha : tbl.action op = some act) :
    (tbl.opcodeFor act).isSome = true := by
  rw [OpTable.opcodeFor, Option.isSome_map, List.find?_isSome]
  exact ⟨_, h, by simp [ha]⟩

theorem exaTable_nodup : (exaTable.map Prod.fst).Nodup := by decide

theorem mem_exaTable (act : Action) : act ∈ exaTable.map Prod.snd := by
  cases act <;> decide

/-- EXA has an opcode for every action (95_test_vectors.md Part 2). -/
theorem exaTable_opcodeFor_isSome (act : Action) : (exaTable.opcodeFor act).isSome = true := by
  obtain ⟨⟨op, _⟩, he, rfl⟩ := List.mem_map.mp (mem_exaTable act)
  exact opcodeFor_isSome he (action_of_mem exaTable_nodup he)

/-! ## Little-endian values -/

/-- The little-endian value as a sum over the bytes: byte `k` counts 2^(8k) (30_encoding.md R96). -/
theorem leValue_eq_sum (l : List Byte) :
    leValue l = ((List.range l.length).map fun k => (l.getD k 0).toNat * 2 ^ (8 * k)).sum := by
  induction l with
  | nil => rfl
  | cons b l ih =>
    have hstep : ∀ n k, n * 2 ^ (8 * (k + 1)) = 256 * (n * 2 ^ (8 * k)) := fun n k => by
      rw [Nat.mul_add, Nat.pow_add, ← Nat.mul_assoc, Nat.mul_comm]
    rw [leValue, ih, ← List.sum_map_mul_left]
    simp [List.range_succ_eq_map, Function.comp_def, hstep]

end Sys2Proof
end

section
/-! SUPPORT. The opcode fetch of a step, for reads that complete in any memory (40_cycle.md R112, R113). -/

namespace Sys2Proof.Machine

/-- Two loads that complete make the opcode fetch: `start` is latched, pc is past both bytes, and what the loads left
stays. -/
theorem fetchOpcode_latch {s t u : State} {b0 b1 : Byte} (h0 : load s.pc s = .ok b0 t)
    (h1 : load (s.pc + 1#32) t = .ok b1 u) :
    fetchOpcode (latch s) = .ok (opcodeOf b0 b1) { u with start := s.pc, pc := s.pc + 2#32 } := by
  have hlatch := unread_pc s.pc s.pc
  have h0' : load (latch s).pc (latch s) = .ok b0 { t with pc := s.pc, start := s.pc } := by
    rw [latch_pc]
    exact (hlatch.load s.pc s).trans (congrArg _ h0)
  have h1' : load (s.pc + 1#32) { t with pc := s.pc, start := s.pc } = .ok b1 { u with pc := s.pc, start := s.pc } :=
    (hlatch.load _ t).trans (congrArg _ h1)
  rw [fetchOpcode, h0', Res.bind_ok, h1', Res.bind_ok]
  rfl

/-- A load leaves the parameters as they were, and with them the dispatch table. -/
theorem load_cfg {a : Addr} {s t : State} {b : Byte} (h : load a s = .ok b t) : t.cfg = s.cfg := by
  obtain ⟨_, _, rfl⟩ := (load_ends a s).of_eq_ok h
  rfl

/-- A fetch whose opcode is absent raises UnknownOpcode before it reads any operand (40_cycle.md R114). -/
theorem fetch_of_absent {s t u : State} {b0 b1 : Byte} (h0 : load s.pc s = .ok b0 t)
    (h1 : load (s.pc + 1#32) t = .ok b1 u) (ha : s.cfg.opTable.action (opcodeOf b0 b1) = none) :
    fetch s = .raise .unknownOpcode { u with start := s.pc, pc := s.pc + 2#32 } := by
  have hcfg : u.cfg = s.cfg := (load_cfg h1).trans (load_cfg h0)
  simp only [fetch, fetchOpcode_latch h0 h1, Res.bind_ok, hcfg, ha]

end Sys2Proof.Machine
end

section
/-! PROOFS. The statements on encoding (30_encoding.md), and on the opcode that is absent (40_cycle.md R114). -/

namespace Sys2Proof

open Sys2Proof.Machine

/-- Settles O1: the opcode's bytes select the instruction's action (`action_of_opcodeFor`), and its format reads the
operand words back (`decodeOperands_encoded`). -/
theorem decodeOfEncode : Obligations.DecodeOfEncode := by
  unfold Obligations.DecodeOfEncode
  intro tbl bs i l rest hwf hl
  obtain ⟨op, hop, rfl⟩ := Option.map_eq_some_iff.mp hl
  refine decode_of_action ?_ (decodeOperands_encoded hwf rest)
  rw [opcodeOf_bytes]
  exact action_of_opcodeFor hop

/-- Settles O3: the operands stand as words of WB bytes, below 2^W, of which the format of the opcode's action makes
the instruction. -/
theorem decodedInstruction : Obligations.DecodedInstruction := by
  unfold Obligations.DecodedInstruction
  intro tbl bs b0 b1 l rest i h
  obtain ⟨act, hact, hops⟩ := action_of_decode h
  obtain ⟨ws, hws, rfl, happly⟩ := apply_of_decodeOperands hops
  have hbound : ∀ v ∈ ws.map leValue, v < 2 ^ bs.width :=
    List.forall_mem_map.mpr fun w hw => leValue_lt_width (hws w hw)
  have hwf := (format_wellFormed bs act).of_apply hbound happly
  obtain rfl := (format_action bs act _).of_apply hbound happly
  have hcount := length_of_apply happly
  have hlen : ws.flatten.length = (i.action.format bs).count * (2 * bs.count) := by
    rw [List.length_flatten, List.map_congr_left hws, List.map_const', List.sum_replicate, ← hcount, List.length_map]
    rfl
  refine ⟨hwf, hact, ?_⟩
  simp only [List.length_cons, List.length_append, hlen]
  omega

/-- Settles O2: EXA's opcodes are distinct and cover every action, and the words are evaluated. -/
theorem exaWordsDecode : Obligations.ExaWordsDecode := by
  unfold Obligations.ExaWordsDecode
  refine ⟨fun bs i => ?_, rfl, rfl, rfl, rfl, rfl, rfl, rfl⟩
  rw [encode, Option.isSome_map]
  exact exaTable_opcodeFor_isSome i.action

/-- Settles O4: one operand word is taken by an F1 action (`decode_f1`) and two by an F2 action (`decode_f2`), with the
reduction that the action's format names. -/
theorem operandReduction : Obligations.OperandReduction := by
  unfold Obligations.OperandReduction
  intro tbl bs b0 b1 w w' rest hw hw'
  have hopcode : (opcodeOf b0 b1).toNat = b0.toNat * 256 + b1.toNat := by
    have := b0.isLt
    have := b1.isLt
    rw [opcodeOf, BitVec.toNat_ofNat]
    omega
  refine ⟨hopcode, ⟨leValue_eq_sum w, leValue_lt_width hw⟩, fun act ha => ⟨?_, ?_, ?_, ?_, ?_, ?_, ?_⟩,
    fun ha => decode_of_absent ha _⟩
  case refine_7 =>
    rintro rfl
    exact decode_f2 ha rfl hw hw' rest
  all_goals
    rintro rfl
    exact decode_f1 ha rfl hw rest

/-- Settles O7: the fetch raises at the opcode (`fetch_of_absent`), and the step routes what it raises. -/
theorem unknownOpcodeRaises : Obligations.UnknownOpcodeRaises := by
  unfold Obligations.UnknownOpcodeRaises
  intro s t u b0 b1 hrun h0 h1 ha
  simp only [step, hrun, fetch_of_absent h0 h1 ha, afterFetch]

end Sys2Proof
end

section
/-! SUPPORT. The fetch of a step part by part (40_cycle.md R112 to R116): where it gets to once the reads before have
completed, in any memory, and what the step comes to there. -/

namespace Sys2Proof.Machine

variable {α : Type} {s t u w : State} {a p : Addr} {b0 b1 : Byte} {bs : BlockSize} {act : Action}
  {f : Format} {i j m n v : Nat}

theorem Res.bind_assoc {α β γ : Type} (l : Res α) (f : α → State → Res β) (g : β → State → Res γ) :
    (l.bind f).bind g = l.bind fun x t => (f x t).bind g := by
  cases l <;> rfl

/-! ## A state in the middle of a fetch -/

/-- `s` in the middle of the fetch of the instruction at `q`, with pc at the fetch unit at `p` (40_cycle.md R112,
R113). -/
def fetchAt (q p : Addr) (s : State) : State := { s with pc := p, start := q }

theorem latch_eq_fetchAt (s : State) : latch s = fetchAt s.pc s.pc s := rfl

@[simp] theorem fetchAt_pc (q p : Addr) (s : State) : (fetchAt q p s).pc = p := rfl
@[simp] theorem fetchAt_bs (q p : Addr) (s : State) : (fetchAt q p s).bs = s.bs := rfl
@[simp] theorem fetchAt_cfg (q p : Addr) (s : State) : (fetchAt q p s).cfg = s.cfg := rfl
@[simp] theorem advance_fetchAt (n : Nat) (q p : Addr) (s : State) :
    advance n (fetchAt q p s) = fetchAt q (p + BitVec.ofNat 32 n) s := rfl

theorem load_fetchAt (a q p : Addr) (s : State) : load a (fetchAt q p s) = (load a s).map (fetchAt q p) :=
  (unread_pc p q).load a s

theorem memRead_fetchAt (a q p : Addr) (n : Nat) (s : State) :
    memRead a n (fetchAt q p s) = (memRead a n s).map (fetchAt q p) :=
  (unread_pc p q).memRead a n s

/-- A load leaves pc alone, so after one the opcode fetch still has it at `start`. -/
theorem fetchAt_of_load (h : load a s = .ok b0 t) (q : Addr) : fetchAt q s.pc t = { t with start := q } := by
  obtain ⟨_, _, rfl⟩ := (load_ends a s).of_eq_ok h
  rfl

theorem load_bs (h : load a s = .ok b0 t) : t.bs = s.bs := ((load_ends a s).of_eq_ok h).fetch.bs

theorem memRead_bs (h : memRead a n s = .ok v t) : t.bs = s.bs := ((memRead_ends a n s).of_eq_ok h).fetch.bs

theorem load_absent (h : translate s a = .port n) (hn : s.ports ≤ n) : load a s = .fatal .noPort s :=
  (load_port h).trans (portRead_absent hn)

theorem addr_add (a : Addr) (m n : Nat) : a + BitVec.ofNat 32 m + BitVec.ofNat 32 n = a + BitVec.ofNat 32 (m + n) := by
  rw [BitVec.add_assoc, BitVec.ofNat_add]

/-- A read of `m + n` bytes that completes completed in its first `m` bytes and in the next `n`. -/
theorem memRead_split (h : memRead a (m + n) s = .ok v u) :
    ∃ x t y, memRead a m s = .ok x t ∧ memRead (a + BitVec.ofNat 32 m) n t = .ok y u := by
  rw [memRead_append] at h
  obtain ⟨x, t, hx, h⟩ := Res.bind_eq_ok h
  obtain ⟨y, _, hy, h⟩ := Res.bind_eq_ok h
  cases h
  exact ⟨x, t, y, hx, hy⟩

/-! ## Operand words -/

/-- The fetch of an operand word is the read of its bytes, and pc moves past them only if it completes (40_cycle.md
R115). -/
theorem fetchWord_fetchAt (q p : Addr) (s : State) :
    fetchWord (fetchAt q p s) =
      ((memRead p s.bs.bytes s).map (fetchAt q p)).bind fun v t => .ok v (advance t.bs.bytes t) := by
  rw [fetchWord, fetchAt_pc, fetchAt_bs, memRead_fetchAt]

theorem fetchWord_of_read (hbs : s.bs = bs) (h : memRead p bs.bytes s = .ok v t) (q : Addr) :
    fetchWord (fetchAt q p s) = .ok v (fetchAt q (p + BitVec.ofNat 32 bs.bytes) t) := by
  rw [fetchWord_fetchAt, hbs, h, Res.map_ok, Res.bind_ok, advance_fetchAt, fetchAt_bs, memRead_bs h, hbs]

theorem fetchOperands_f1_of_read {build : Nat → Instr} (hbs : s.bs = bs) (h : memRead p bs.bytes s = .ok v t)
    (q : Addr) :
    fetchOperands (.f1 build) (fetchAt q p s) = .ok (build v) (fetchAt q (p + BitVec.ofNat 32 bs.bytes) t) := by
  rw [fetchOperands, fetchWord_of_read hbs h, Res.bind_ok]

theorem fetchOperands_f2_of_read {build : Nat → Nat → Instr} (hbs : s.bs = bs) (h : memRead p bs.bytes s = .ok v t)
    (h' : memRead (p + BitVec.ofNat 32 bs.bytes) bs.bytes t = .ok n u) (q : Addr) :
    fetchOperands (.f2 build) (fetchAt q p s) =
      .ok (build v n) (fetchAt q (p + BitVec.ofNat 32 (2 * bs.bytes)) u) := by
  have ht : t.bs = bs := (memRead_bs h).trans hbs
  rw [fetchOperands, fetchWord_of_read hbs h, Res.bind_ok, fetchWord_of_read ht h', Res.bind_ok, addr_add,
    Nat.two_mul]

/-- Once its first `j` operand words are read, the operand fetch is the fetch of the next one, and then the rest. -/
theorem fetchOperands_eq_fetchWord_bind (hbs : s.bs = bs) (hj : j < f.count)
    (h : memRead p (j * bs.bytes) s = .ok v t) (q : Addr) :
    ∃ g, fetchOperands f (fetchAt q p s) =
      (fetchWord (fetchAt q (p + BitVec.ofNat 32 (j * bs.bytes)) t)).bind g := by
  match f, j, hj with
  | .f1 build, 0, _ | .f2 build, 0, _ =>
    rw [Nat.zero_mul] at h ⊢
    cases h
    exact ⟨_, by rw [addr_zero, fetchOperands]⟩
  | .f2 build, 1, _ =>
    rw [Nat.one_mul] at h ⊢
    exact ⟨_, by rw [fetchOperands, fetchWord_of_read hbs h, Res.bind_ok]⟩

/-! ## The whole fetch -/

/-- Past an opcode that selects `act`, the fetch is the operand fetch of its format, with pc past the opcode
(40_cycle.md R113 to R115). -/
theorem fetch_of_action (h0 : load s.pc s = .ok b0 t) (h1 : load (s.pc + 1#32) t = .ok b1 u)
    (ha : s.cfg.opTable.action (opcodeOf b0 b1) = some act) :
    fetch s = fetchOperands (act.format s.bs) (fetchAt s.pc (s.pc + 2#32) u) := by
  have hop : fetchOpcode (latch s) = .ok (opcodeOf b0 b1) (fetchAt s.pc (s.pc + 2#32) u) := fetchOpcode_latch h0 h1
  have hcfg : u.cfg = s.cfg := (load_cfg h1).trans (load_cfg h0)
  have hbs : u.bs = s.bs := (load_bs h1).trans (load_bs h0)
  simp only [fetch, hop, Res.bind_ok, fetchAt_cfg, fetchAt_bs, hcfg, hbs, ha]

/-! ## How far a fetch gets -/

/-- The fetch of `s` gets to the access `m` with pc at `p`: where `m` raises or is fatal, so does the fetch, with pc
there. -/
structure FetchReaches (s : State) (p : Addr) (m : Res α) : Prop where
  raise : ∀ k t, m = .raise k t → fetch s = .raise k (fetchAt s.pc p t)
  fatal : ∀ r t, m = .fatal r t → fetch s = .fatal r (fetchAt s.pc p t)

/-- A fetch that is `m` and then something more gets to `m`. -/
theorem FetchReaches.of_eq_bind {m : Res α} {g : α → State → Res Instr}
    (h : fetch s = (m.map (fetchAt s.pc p)).bind g) : FetchReaches s p m where
  raise := by
    rintro k t rfl
    exact h
  fatal := by
    rintro r t rfl
    exact h

/-- A fetch that gets to two accesses in sequence gets to the first. -/
theorem FetchReaches.of_bind {β : Type} {l : Res β} {g : β → State → Res α} (h : FetchReaches s p (l.bind g)) :
    FetchReaches s p l where
  raise := by
    rintro k t rfl
    exact h.raise k t rfl
  fatal := by
    rintro r t rfl
    exact h.fatal r t rfl

/-- The opcode fetch reads its first byte at pc (40_cycle.md R113). -/
theorem fetchReaches_first (s : State) : FetchReaches s s.pc (load s.pc s) :=
  .of_eq_bind (by rw [← load_fetchAt, ← latch_eq_fetchAt, fetch, fetchOpcode, Res.bind_assoc, latch_pc])

/-- The opcode fetch reads its second byte after the first, and pc is still at `start` (40_cycle.md R113). -/
theorem fetchReaches_second (h0 : load s.pc s = .ok b0 t) : FetchReaches s s.pc (load (s.pc + 1#32) t) := by
  have h0' : load (latch s).pc (latch s) = .ok b0 (fetchAt s.pc s.pc t) := by
    rw [latch_eq_fetchAt, fetchAt_pc, load_fetchAt, h0, Res.map_ok]
  exact .of_eq_bind (by rw [← load_fetchAt, fetch, fetchOpcode, h0', Res.bind_ok, fetchAt_pc, Res.bind_assoc])

/-- The operand fetch reads operand word `j` after the words before it, with pc at that word (40_cycle.md R115). -/
theorem fetchReaches_operand (h0 : load s.pc s = .ok b0 t) (h1 : load (s.pc + 1#32) t = .ok b1 u)
    (ha : s.cfg.opTable.action (opcodeOf b0 b1) = some act) (hj : j < (act.format s.bs).count)
    (h : memRead (s.pc + 2#32) (j * s.bs.bytes) u = .ok v w) :
    FetchReaches s (s.pc + BitVec.ofNat 32 (2 + j * s.bs.bytes))
      (memRead (s.pc + BitVec.ofNat 32 (2 + j * s.bs.bytes)) s.bs.bytes w) := by
  have hu : u.bs = s.bs := (load_bs h1).trans (load_bs h0)
  have hw : w.bs = s.bs := (memRead_bs h).trans hu
  obtain ⟨g, hg⟩ := fetchOperands_eq_fetchWord_bind hu hj h s.pc
  rw [addr_add, fetchWord_fetchAt, hw, Res.bind_assoc] at hg
  exact .of_eq_bind ((fetch_of_action h0 h1 ha).trans hg)

/-- As `fetchReaches_operand`, at byte `i` of the word. -/
theorem fetchReaches_operandByte (h0 : load s.pc s = .ok b0 t) (h1 : load (s.pc + 1#32) t = .ok b1 u)
    (ha : s.cfg.opTable.action (opcodeOf b0 b1) = some act) (hj : j < (act.format s.bs).count) (hi : i < s.bs.bytes)
    (h : memRead (s.pc + 2#32) (j * s.bs.bytes + i) u = .ok v w) :
    FetchReaches s (s.pc + BitVec.ofNat 32 (2 + j * s.bs.bytes))
      (load (s.pc + BitVec.ofNat 32 (2 + j * s.bs.bytes + i)) w) := by
  obtain ⟨_, x, _, hwords, hbytes⟩ := memRead_split h
  rw [addr_add] at hbytes
  obtain ⟨m, hm⟩ := Nat.exists_eq_add_of_lt hi
  have hread := memRead_eq_load_bind hbytes m
  rw [← hm, addr_add] at hread
  have hreach := fetchReaches_operand h0 h1 ha hj hwords
  rw [hread] at hreach
  exact hreach.of_bind

/-! ## The step of a fetch -/

/-- While `run` is Running, a step is the fetch and what follows from its end (40_cycle.md R111, R122). -/
theorem step_of_running (hrun : s.run = .running) : step s = afterFetch exec (fetch s) := by
  rw [step, hrun]

theorem step_of_not_running (hrun : s.run ≠ .running) : step s = .fault .notRunning := by
  rw [step]
  cases h : s.run with
  | running => exact absurd h hrun
  | haltedBy k => rfl
  | haltedFatal r => rfl

/-- A fetch that completes is followed by the execute phase (40_cycle.md R117). -/
theorem step_of_fetch (hrun : s.run = .running) {i : Instr} (h : fetch s = .ok i t) : step s = exec i t := by
  rw [step_of_running hrun, h, afterFetch]

/-- A fetch that gets to an unmapped byte faults there: the fault is routed with pc where the fetch has it (40_cycle.md
R113, R115, R118). -/
theorem FetchReaches.step_unmapped (h : FetchReaches s p (load a t)) (hrun : s.run = .running)
    (hplace : translate t a = .unmapped) : step s = finish (.raise .pageFault (fetchAt s.pc p t)) := by
  rw [step_of_running hrun, h.raise _ _ (load_unmapped hplace), afterFetch]

/-- A fetch that gets to an absent port halts there (20_memory.md R71, 40_cycle.md R119). -/
theorem FetchReaches.step_noPort (h : FetchReaches s p (load a t)) (hrun : s.run = .running)
    (hplace : translate t a = .port n) (hn : t.ports ≤ n) :
    step s = .next (haltFatal .noPort (fetchAt s.pc p t)) := by
  rw [step_of_running hrun, h.fatal _ _ (load_absent hplace hn), afterFetch, finish_fatal]

end Sys2Proof.Machine
end

section
/-! PROOFS. The statements on the cycle (40_cycle.md). -/

namespace Sys2Proof.Machine

/-- The operand fetch of every action ends at a byte it cannot read, with pc at the operand word of that byte
(40_cycle.md R115). -/
theorem operandFault (act : Action) : Spec.OperandFault act := by
  intro s t u w b0 b1 j i v hrun h0 h1 ha hj hi h
  have hreach := fetchReaches_operandByte h0 h1 ha hj hi h
  exact ⟨hreach.step_unmapped hrun, fun _ => hreach.step_noPort hrun⟩

/-- Settles O6: the fetch gets to the byte of the opcode or of the operand (`FetchReaches`), and ends there if the byte
is unmapped or at an absent port. -/
theorem fetchFaults : Obligations.FetchFaults := by
  unfold Obligations.FetchFaults
  refine ⟨fun s => (fetchReaches_first s).step_unmapped, fun s t b0 hrun h0 => ?_,
    fun s _ => (fetchReaches_first s).step_noPort, fun s t b0 _ hrun h0 => ?_, operandFault⟩
  · rw [← fetchAt_of_load h0]
    exact (fetchReaches_second h0).step_unmapped hrun
  · rw [← fetchAt_of_load h0]
    exact (fetchReaches_second h0).step_noPort hrun

/-- Settles O5: bytes in memory are fetched as they stand (`fetch_of_holds`), and otherwise each operand word of the
action's format is read where pc then is (`fetchOperands_f1_of_read`, `fetchOperands_f2_of_read`). -/
theorem stepRunsDecoded : Obligations.StepRunsDecoded := by
  unfold Obligations.StepRunsDecoded
  refine ⟨fun s l i hrun hl hd => step_of_fetch hrun (fetch_of_holds hl hd), ?_⟩
  intro s t u b0 b1 act hrun h0 h1 ha
  have hfetch := fetch_of_action h0 h1 ha
  have hu : u.bs = s.bs := (load_bs h1).trans (load_bs h0)
  refine ⟨fun i hf => ?_, fun i v w hf hv => ?_, fun i v w v' x hf hv hv' => ?_⟩
  · rw [hf, fetchOperands] at hfetch
    exact step_of_fetch hrun hfetch
  · rw [hf, fetchOperands_f1_of_read hu hv, addr_add] at hfetch
    exact step_of_fetch hrun hfetch
  · rw [← addr_add] at hv'
    rw [hf, fetchOperands_f2_of_read hu hv hv', addr_add] at hfetch
    exact step_of_fetch hrun hfetch

/-- Settles O8: a Running step is settled into its next state (`step_eq_next`), and no other step is enabled. -/
theorem stepEnabled : Obligations.StepEnabled := by
  unfold Obligations.StepEnabled
  exact fun s => ⟨fun hrun => ⟨_, step_eq_next.mpr ⟨hrun, rfl⟩⟩, step_of_not_running⟩

end Sys2Proof.Machine
end

section
/-! SUPPORT. The execute phase of arithmetic, shift and compare as the rules write it (41_arithmetic.md R126): the
answer of `exec` from the work of the instruction, and what `setArith` makes of a result. -/

namespace Sys2Proof.Machine

variable {i : Instr} {s t : State}

/-! ## The answer of an instruction whose work is known -/

theorem exec_of_work_ok (h : work i s = .ok () t) : exec i s = .next t := by
  rw [exec_eq_finish, h, finish_ok]

theorem exec_of_work_fatal {r : FatalReason} (h : work i s = .fatal r t) : exec i s = .next (haltFatal r t) := by
  rw [exec_eq_finish, h, finish_fatal]

/-! ## What `setArith` makes of a result -/

/-- A natural result: C is the carry out of W bits (41_arithmetic.md R127, R129, R132). -/
theorem setArith_natCast (n : Nat) (s : State) :
    setArith (n : Int) s = { s with
      a := BitVec.ofNat 64 (n % 2 ^ s.bs.width)
      c := decide (2 ^ s.bs.width ≤ n)
      z := decide (n % 2 ^ s.bs.width = 0) } := by
  rw [setArith, maskedCell, maskW_natCast, carryOf_natCast, zeroOf_natCast]

/-- A natural result below 2^W needs no masking, so C is 0 (41_arithmetic.md R130, R131, R133). -/
theorem setArith_of_lt {n : Nat} (h : n < 2 ^ s.bs.width) :
    setArith (n : Int) s = { s with a := BitVec.ofNat 64 n, c := false, z := decide (n = 0) } := by
  have hcarry : decide (2 ^ s.bs.width ≤ n) = false := decide_eq_false (Nat.not_le.mpr h)
  rw [setArith_natCast, Nat.mod_eq_of_lt h, hcarry]

/-- Masking changes a result below 2^W exactly when it is negative: C is the borrow (41_arithmetic.md R128). -/
theorem carryOf_eq_borrow {bs : BlockSize} {r : Int} (h : r < 2 ^ bs.width) : carryOf bs r = decide (r < 0) := by
  rw [carryOf, maskW_cast, decide_eq_decide]
  rcases lt_or_ge r 0 with hneg | hpos
  · have hmask : 0 ≤ r % 2 ^ bs.width := Int.emod_nonneg r (by positivity)
    exact iff_of_true (by omega) hneg
  · exact iff_of_false (by simp [Int.emod_eq_of_lt hpos h]) (not_lt.mpr hpos)

/-- A result below 2^W that may be negative (41_arithmetic.md R128). -/
theorem setArith_borrow {r : Int} (h : r < 2 ^ s.bs.width) :
    setArith r s = { s with
      a := BitVec.ofInt 64 (r % 2 ^ s.bs.width)
      c := decide (r < 0)
      z := decide (r % 2 ^ s.bs.width = 0) } := by
  rw [setArith, maskedCell, zeroOf, carryOf_eq_borrow h, ← maskW_cast, BitVec.ofInt_natCast]
  simp only [Nat.cast_eq_zero]

theorem setCompare_eq (v w : Word) (s : State) : setCompare v w s = { s with z := decide (v.toNat = w.toNat) } := by
  simp only [setCompare, BitVec.toNat_inj]

end Sys2Proof.Machine
end

section
/-! PROOFS. The statements on arithmetic, shift and compare instructions (41_arithmetic.md). -/

namespace Sys2Proof.Machine

/-- Settles O31: the sum and the product are natural results (`setArith_natCast`). -/
theorem addAndMul : Obligations.AddAndMul := by
  unfold Obligations.AddAndMul
  refine ⟨fun _ => rfl, fun _ => rfl, fun s => ⟨?_, ?_⟩⟩
  · rw [← setArith_natCast, Nat.cast_add]
    exact exec_of_work_ok rfl
  · rw [← setArith_natCast, Nat.cast_mul]
    exact exec_of_work_ok rfl

/-- Settles O32: the difference is below 2^W because X is, so it is masked exactly when it is negative
(`setArith_borrow`). -/
theorem subtract : Obligations.Subtract := by
  unfold Obligations.Subtract
  refine ⟨fun _ => rfl, fun s hfit => ?_⟩
  obtain ⟨-, hx, -⟩ := hfit
  have hdiff : (s.x.toNat : Int) - s.y.toNat < 2 ^ s.bs.width := by
    zify at hx
    omega
  rw [← setArith_borrow hdiff]
  exact exec_of_work_ok rfl

/-- Settles O33: the quotient and the remainder of the division on naturals are at most X, so neither is masked
(`setArith_of_lt`). -/
theorem divAndMod : Obligations.DivAndMod := by
  unfold Obligations.DivAndMod
  refine ⟨fun _ => rfl, fun _ => rfl, fun s hfit => ⟨fun hy => ?_, fun hy => ?_⟩⟩
  · exact ⟨exec_of_work_fatal (if_pos hy), exec_of_work_fatal (if_pos hy)⟩
  · obtain ⟨-, hx, -⟩ := hfit
    have hpos : 0 < s.y.toNat := Nat.pos_of_ne_zero fun h0 => hy (BitVec.eq_of_toNat_eq h0)
    have hquot : s.x.toNat / s.y.toNat < 2 ^ s.bs.width := (Nat.div_le_self _ _).trans_lt hx
    have hrem : s.x.toNat % s.y.toNat < 2 ^ s.bs.width := (Nat.mod_le _ _).trans_lt hx
    refine ⟨s.x.toNat / s.y.toNat, s.x.toNat % s.y.toNat, (Nat.div_add_mod _ _).symm, Nat.mod_lt _ hpos, ?_, ?_⟩
    · rw [← setArith_of_lt hquot]
      exact exec_of_work_ok (if_neg hy)
    · rw [← setArith_of_lt hrem]
      exact exec_of_work_ok (if_neg hy)

/-- Settles O34: the cut counts of the model give what the whole counts give (`setArith_shiftedLeft`,
`shiftedRight_eq`), and a right shift is at most X. -/
theorem shifts : Obligations.Shifts := by
  unfold Obligations.Shifts
  refine ⟨fun _ => rfl, fun _ => rfl, fun s => ⟨?_, fun hfit => ?_⟩⟩
  · rw [← setArith_natCast, ← setArith_shiftedLeft]
    exact exec_of_work_ok rfl
  · obtain ⟨-, hx, -⟩ := hfit
    rw [← setArith_of_lt ((Nat.div_le_self _ _).trans_lt hx), ← shiftedRight_eq]
    exact exec_of_work_ok rfl

/-- Settles O35: a compare writes Z alone, and two cells are equal when their numbers are (`setCompare_eq`). -/
theorem compares : Obligations.Compares := by
  unfold Obligations.Compares
  refine ⟨⟨fun _ => rfl, operandFault .cmpi⟩, fun _ => rfl, fun s => ⟨fun v => ?_, ?_⟩⟩
  · exact exec_of_work_ok (congrArg _ (setCompare_eq s.a v s))
  · exact exec_of_work_ok (congrArg _ (setCompare_eq s.x s.y s))

end Sys2Proof.Machine
end

section
/-! SUPPORT. The answer of an instruction that reads or writes memory, in every case of `Spec.Reads` and `Spec.Writes`
(20_memory.md R63, R64, R68, R71), and from it the loads and stores (42_data_movement.md R142, R143). -/

namespace Sys2Proof.Machine

variable {act : Action} {i : Addr → Instr} {a : Addr} {n v : Nat} {s : State}
  {o : Host.Outcome State Fault Refusal}

theorem Res.bind_ok_self (m : Res Unit) : (m.bind fun _ t => .ok () t) = m := by
  cases m <;> rfl

/-! ## An access and what follows it -/

/-- An answer that is a read and then `f` goes on with `f` where the read completes, and ends where it does not. -/
theorem reads_of_eq_bind {f : Nat → State → Res Unit} {k : Nat → State → Host.Outcome State Fault Refusal}
    (ho : o = finish ((memRead a n s).bind f)) (hk : ∀ v t, memRead a n s = .ok v t → finish (f v t) = k v t) :
    Spec.Reads a n s o k := by
  have hok : ∀ v t, memRead a n s = .ok v t → o = k v t := fun v t h => by rw [ho, h, Res.bind_ok, hk v t h]
  refine ⟨fun l hl hbytes => ?_, hok, fun j v t hj h hplace => ?_, fun j v t p hj h hplace hp => ?_⟩
  · subst hl
    exact hok _ _ (memRead_of_holds hbytes)
  · rw [ho, memRead_fault hj h hplace, Res.bind_raise]
  · rw [ho, memRead_noPort hj h hplace hp, Res.bind_fatal, finish_fatal, haltFatal]

/-- An answer that is a write and then the update `g` updates the state that the write leaves where it completes, and
ends where it does not. -/
theorem writes_of_eq_bind {g : State → State} (hn : n ≤ 4096)
    (ho : o = finish ((memWrite a n v s).bind fun _ t => .ok () (g t))) : Spec.Writes a n v s o g := by
  have hok : ∀ t, memWrite a n v s = .ok () t → o = .next (g t) := fun t h => by rw [ho, h, Res.bind_ok, finish_ok]
  refine ⟨fun hmem => ?_, hok, fun j t hj h hplace => ?_, fun j t p hj h hplace hp => ?_⟩
  · obtain ⟨f, hwrite, hbytes, hframe⟩ := memWrite_inMemory hn v hmem
    exact ⟨{ s with frames := f }, rfl, hbytes, hframe, hok _ hwrite⟩
  · rw [ho, memWrite_fault hj h hplace, Res.bind_raise]
  · rw [ho, memWrite_noPort hj h hplace hp, Res.bind_fatal, finish_fatal, haltFatal]

/-! ## Loads and stores -/

/-- The mask is that of the block size before the load, because a read leaves bs alone (`memRead_bs`). -/
theorem isLoad_of_loadReg (r : Reg) (hformat : ∀ bs, act.format bs = .f1 fun v => i (BitVec.ofNat 32 v))
    (hwork : ∀ a s, work (i a) s = loadReg r n a s) : Spec.IsLoad act i n (setReg r) := by
  refine ⟨⟨hformat, operandFault act⟩, fun a s => ?_⟩
  have ho : exec (i a) s = finish (loadReg r n a s) := by rw [exec_eq_finish, hwork]
  refine reads_of_eq_bind ho fun v t h => ?_
  rw [finish_ok, setRegMasked, maskedCell, maskW_natCast, memRead_bs h]

theorem isStore_of_storeReg (r : Reg) (hformat : ∀ bs, act.format bs = .f1 fun v => i (BitVec.ofNat 32 v))
    (hwork : ∀ a s, work (i a) s = storeReg r n a s) (hn : n ≤ 4096 := by norm_num) :
    Spec.IsStore act i n (getReg r) := by
  refine ⟨⟨hformat, operandFault act⟩, fun a s => writes_of_eq_bind hn ?_⟩
  rw [exec_eq_finish, hwork, storeReg]
  exact congrArg finish (Res.bind_ok_self _).symm

end Sys2Proof.Machine
end

section
/-! PROOFS. The statements on data movement (42_data_movement.md). -/

namespace Sys2Proof.Machine

/-- Settles O36: a move writes its destination register and nothing else. -/
theorem moves : Obligations.Moves := by
  unfold Obligations.Moves
  refine ⟨fun _ => rfl, fun _ => rfl, fun _ => rfl, fun _ => rfl, fun _ => rfl, fun _ => rfl, fun s => ?_⟩
  exact ⟨exec_of_work_ok rfl, exec_of_work_ok rfl, exec_of_work_ok rfl, exec_of_work_ok rfl, exec_of_work_ok rfl,
    exec_of_work_ok rfl⟩

/-- Settles O37: an immediate load writes its register with the operand word as it stands, and only the operand fetch
can fault (`operandFault`). -/
theorem immediateLoads : Obligations.ImmediateLoads := by
  unfold Obligations.ImmediateLoads
  refine ⟨⟨fun _ => rfl, operandFault .ldia⟩, ⟨fun _ => rfl, operandFault .ldix⟩,
    ⟨fun _ => rfl, operandFault .ldiy⟩, fun v s => ?_⟩
  exact ⟨exec_of_work_ok rfl, exec_of_work_ok rfl, exec_of_work_ok rfl⟩

/-- Settles O38: all twelve are `loadReg`, of 1, 2, 4 and 8 bytes into each register (`isLoad_of_loadReg`). -/
theorem loads : Obligations.Loads := by
  unfold Obligations.Loads
  refine ⟨isLoad_of_loadReg .A ?_ ?_, isLoad_of_loadReg .X ?_ ?_, isLoad_of_loadReg .Y ?_ ?_,
    isLoad_of_loadReg .A ?_ ?_, isLoad_of_loadReg .X ?_ ?_, isLoad_of_loadReg .Y ?_ ?_,
    isLoad_of_loadReg .A ?_ ?_, isLoad_of_loadReg .X ?_ ?_, isLoad_of_loadReg .Y ?_ ?_,
    isLoad_of_loadReg .A ?_ ?_, isLoad_of_loadReg .X ?_ ?_, isLoad_of_loadReg .Y ?_ ?_⟩ <;> intros <;> rfl

/-- Settles O39: all twelve are `storeReg`, of 1, 2, 4 and 8 bytes from each register (`isStore_of_storeReg`). -/
theorem stores : Obligations.Stores := by
  unfold Obligations.Stores
  refine ⟨isStore_of_storeReg .A ?_ ?_, isStore_of_storeReg .X ?_ ?_, isStore_of_storeReg .Y ?_ ?_,
    isStore_of_storeReg .A ?_ ?_, isStore_of_storeReg .X ?_ ?_, isStore_of_storeReg .Y ?_ ?_,
    isStore_of_storeReg .A ?_ ?_, isStore_of_storeReg .X ?_ ?_, isStore_of_storeReg .Y ?_ ?_,
    isStore_of_storeReg .A ?_ ?_, isStore_of_storeReg .X ?_ ?_, isStore_of_storeReg .Y ?_ ?_⟩ <;> intros <;> rfl

end Sys2Proof.Machine
end

section
/-! SUPPORT. The answer of an instruction that pushes or pops, in every case of `Spec.Pushes` and `Spec.Pops`
(20_memory.md R76, R77), and from it the pushes and pops of a register (43_stack.md R181). -/

namespace Sys2Proof.Machine

variable {i : Instr} {n v : Nat} {s : State} {o : Host.Outcome State Fault Refusal}

/-! ## A push or a pop and what follows it -/

/-- An answer that is a push and then the update `g`: with a stack it is the write of the slot, from the state whose
stack_pos is already up. -/
theorem pushes_of_eq_bind {g : State → State} (hn : n ≤ 4096)
    (ho : o = finish ((push n v s).bind fun _ t => .ok () (g t))) : Spec.Pushes n v s o g := by
  refine ⟨fun h => ?_, fun h => ?_, fun h => writes_of_eq_bind hn ?_⟩
  · rw [ho, push_noStack h, Res.bind_fatal, finish_fatal, haltFatal]
  · obtain ⟨t, hpush, hpushed⟩ := push_pushed hn v h
    exact ⟨t, hpushed, by rw [ho, hpush, Res.bind_ok, finish_ok]⟩
  · rw [ho, push_of_stack h]

/-- An answer that is a pop and then the update `k`: with a stack it is the read of the slot, and stack_pos goes down
only in what follows a read that completes. -/
theorem pops_of_eq_bind {k : Nat → State → State}
    (ho : o = finish ((pop n s).bind fun v t => .ok () (k v t))) : Spec.Pops n s o k := by
  refine ⟨fun h => ?_, fun h => ?_⟩
  · rw [ho, pop_noStack h, Res.bind_fatal, finish_fatal, haltFatal]
  · rw [pop_of_stack h, Res.bind_assoc] at ho
    exact reads_of_eq_bind ho fun _ _ _ => finish_ok _

/-! ## The pushes and pops of a register -/

theorem pushes_of_pushReg (r : Reg) (hwork : work i s = pushReg r s) :
    Spec.Pushes s.bs.bytes (getReg r s).toNat s (exec i s) id := by
  have hn : s.bs.bytes ≤ 4096 := by cases s.bs <;> decide
  refine pushes_of_eq_bind hn ?_
  rw [exec_eq_finish, hwork, pushReg]
  exact congrArg finish (Res.bind_ok_self _).symm

theorem pops_of_popReg (r : Reg) (hwork : work i s = popReg r s) :
    Spec.Pops s.bs.bytes s (exec i s) fun v t => setReg r (BitVec.ofNat 64 v) t := by
  refine pops_of_eq_bind ?_
  rw [exec_eq_finish, hwork, popReg]

end Sys2Proof.Machine
end

section
/-! PROOFS. The statements on the stack (43_stack.md), with SETIVT (45_system.md R214). -/

namespace Sys2Proof.Machine

/-- Settles O40: all three are `pushReg`, of WB bytes at every block size (`pushes_of_pushReg`). -/
theorem registerPushes : Obligations.RegisterPushes := by
  unfold Obligations.RegisterPushes
  refine ⟨fun _ => rfl, fun _ => rfl, fun _ => rfl, fun s => ?_⟩
  exact ⟨pushes_of_pushReg .A rfl, pushes_of_pushReg .X rfl, pushes_of_pushReg .Y rfl⟩

/-- Settles O41: all three are `popReg`, which writes its register once stack_pos is down (`pops_of_popReg`). -/
theorem registerPops : Obligations.RegisterPops := by
  unfold Obligations.RegisterPops
  refine ⟨fun _ => rfl, fun _ => rfl, fun _ => rfl, fun s => ?_⟩
  exact ⟨pops_of_popReg .A rfl, pops_of_popReg .X rfl, pops_of_popReg .Y rfl⟩

/-- Settles O42: each writes its base as the operand gives it, and only the operand fetch can fault
(`operandFault`). -/
theorem setBases : Obligations.SetBases := by
  unfold Obligations.SetBases
  refine ⟨⟨fun _ => rfl, operandFault .setstack⟩, ⟨fun _ => rfl, operandFault .setivt⟩, fun a s => ?_⟩
  exact ⟨exec_of_work_ok rfl, exec_of_work_ok rfl⟩

end Sys2Proof.Machine
end

section
/-! SUPPORT. The answer of a transfer in terms of its target (44_control_transfer.md R191, R192): the jumps and the
calls under a condition, and the call and the return as the push and the pop of 4 bytes. -/

namespace Sys2Proof.Machine

variable {act : Action} {s : State}

/-! ## Relative targets -/

/-- The model's 32-bit sum is the exact sum modulo 2^32 (44_control_transfer.md R191). -/
theorem relTarget_eq_relative (d : Int) (s : State) : relTarget d s = Spec.relative d s := by
  have hmod : Spec.relative d s = BitVec.ofInt 32 (s.start.toNat + d) := by
    apply BitVec.eq_of_toNat_eq
    rw [BitVec.toNat_ofInt, BitVec.toNat_ofInt, Nat.cast_pow, Nat.cast_ofNat, Int.emod_emod]
  rw [hmod, BitVec.ofInt_add, BitVec.ofInt_natCast, BitVec.ofNat_toNat, BitVec.setWidth_eq, relTarget]

/-- The format of an action with a displacement, as the model writes it (30_encoding.md R98). -/
theorem isDisp_of_format {i : Int → Instr} (hformat : ∀ bs, act.format bs = .f1 fun v => i (dispOperand bs v)) :
    Spec.IsDisp act i :=
  ⟨hformat, operandFault act⟩

/-! ## Jumps -/

theorem jumpIf_true (d : Int) (s : State) : jumpIf true d s = .ok () { s with pc := Spec.relative d s } := by
  rw [← relTarget_eq_relative]
  rfl

theorem jumpIf_false (d : Int) (s : State) : jumpIf false d s = .ok () s := rfl

theorem isJump_of_jumpIf {i : Int → Instr} {cond : State → Bool}
    (hformat : ∀ bs, act.format bs = .f1 fun v => i (dispOperand bs v))
    (hwork : ∀ d s, work (i d) s = jumpIf (cond s) d s) : Spec.IsJump act i cond := by
  refine ⟨isDisp_of_format hformat, fun d s => ⟨fun hc => exec_of_work_ok ?_, fun hc => exec_of_work_ok ?_⟩⟩
  · rw [hwork, hc, jumpIf_true]
  · rw [hwork, hc, jumpIf_false]

/-! ## Calls -/

/-- A call pushes the 4 bytes of pc, whatever the block size, and only then jumps (44_control_transfer.md R192,
R199). -/
theorem pushes_of_callTo {i : Instr} {t : Addr} (hwork : work i s = callTo t s) :
    Spec.Pushes 4 s.pc.toNat s (exec i s) fun u => { u with pc := t } := by
  refine pushes_of_eq_bind (by norm_num) ?_
  rw [exec_eq_finish, hwork]
  rfl

theorem callIf_true (d : Int) (s : State) : callIf true d s = callTo (Spec.relative d s) s := by
  rw [← relTarget_eq_relative]
  rfl

theorem callIf_false (d : Int) (s : State) : callIf false d s = .ok () s := rfl

theorem isCall_of_callIf {i : Int → Instr} {cond : State → Bool}
    (hformat : ∀ bs, act.format bs = .f1 fun v => i (dispOperand bs v))
    (hwork : ∀ d s, work (i d) s = callIf (cond s) d s) : Spec.IsCall act i cond := by
  refine ⟨isDisp_of_format hformat, fun d s => ⟨fun hc => pushes_of_callTo ?_, fun hc => exec_of_work_ok ?_⟩⟩
  · rw [hwork, hc, callIf_true]
  · rw [hwork, hc, callIf_false]

/-! ## Return -/

/-- A return pops 4 bytes, whatever the block size, into pc (44_control_transfer.md R205, 60_exceptions.md R240). -/
theorem pops_of_returnPc {i : Instr} (hwork : work i s = returnPc s) :
    Spec.Pops 4 s (exec i s) fun v t => { t with pc := BitVec.ofNat 32 v } := by
  refine pops_of_eq_bind ?_
  rw [exec_eq_finish, hwork]
  rfl

end Sys2Proof.Machine
end

section
/-! PROOFS. The statements on control transfer (44_control_transfer.md). -/

namespace Sys2Proof.Machine

/-- Settles O43: the conditional jumps are `jumpIf` on their flag (`isJump_of_jumpIf`), and JMP is `jumpIf` with the
condition always met. -/
theorem jumps : Obligations.Jumps := by
  unfold Obligations.Jumps
  refine ⟨isJump_of_jumpIf ?_ ?_, isJump_of_jumpIf ?_ ?_, isJump_of_jumpIf ?_ ?_, isJump_of_jumpIf ?_ ?_,
    isDisp_of_format ?_, ⟨?_, operandFault .jmpa⟩,
    fun d t s => ⟨exec_of_work_ok (jumpIf_true d s), exec_of_work_ok rfl⟩⟩ <;> intros <;> rfl

/-- Settles O44: the conditional calls are `callIf` on their flag (`isCall_of_callIf`), and CALL is `callIf` with the
condition always met. -/
theorem calls : Obligations.Calls := by
  unfold Obligations.Calls
  refine ⟨isCall_of_callIf ?_ ?_, isCall_of_callIf ?_ ?_, isCall_of_callIf ?_ ?_, isCall_of_callIf ?_ ?_,
    isDisp_of_format ?_, ⟨?_, operandFault .calla⟩,
    fun d t s => ⟨pushes_of_callTo (callIf_true d s), pushes_of_callTo rfl⟩⟩ <;> intros <;> rfl

/-- Settles O45: RET is `returnPc`, the pop of 4 bytes and a jump (`pops_of_returnPc`). -/
theorem returnRule : Obligations.Return := by
  unfold Obligations.Return
  exact ⟨fun _ => rfl, fun s => pops_of_returnPc rfl⟩

end Sys2Proof.Machine
end

section
/-! SUPPORT. INT once its entry has been read (45_system.md R212), the one value that LowestFree can have (20_memory.md
R60), and the block sizes that REDUCE and EXTEND come to (45_system.md R218, R219). -/

namespace Sys2Proof.Machine

variable {s t : State} {n : Word} {id v : Nat}

/-! ## INT -/

/-- What INT of vector `id` comes to once its entry has been read as `v` (45_system.md R212); `interrupt_of_ivt` ties it
to `interrupt`. -/
def takeEntry (id v : Nat) (s : State) : Res Unit :=
  if v = 0 then if id < 0x100 then .raise .undefinedInterrupt s else .ok () s
  else pushPcAndJump (BitVec.ofNat 32 v) s

theorem takeEntry_zero_of_lt (hid : id < 0x100) (s : State) : takeEntry id 0 s = .raise .undefinedInterrupt s := by
  rw [takeEntry, if_pos rfl, if_pos hid]

theorem takeEntry_zero_of_ge (hid : 0x100 ≤ id) (s : State) : takeEntry id 0 s = .ok () s := by
  rw [takeEntry, if_pos rfl, if_neg hid.not_gt]

theorem takeEntry_of_ne_zero (hv : v ≠ 0) (s : State) :
    takeEntry id v s = (push 4 s.pc.toNat s).bind fun _ u => .ok () (jump (BitVec.ofNat 32 v) u) := by
  rw [takeEntry, if_neg hv, pushPcAndJump]

/-- With a base, INT is the read of its entry and what that comes to. -/
theorem interrupt_of_ivt (h : s.ivtBaseValid = true) :
    interrupt id s = (memRead (s.ivtBase + BitVec.ofNat 32 (4 * id)) 4 s).bind (takeEntry id) := by
  rw [interrupt, findInt_of_ivt h, Res.bind_assoc]
  congr 1
  funext v t
  by_cases hv : v = 0
  · subst hv
    rcases lt_or_ge id 0x100 with hid | hid
    · rw [takeEntry_zero_of_lt hid, if_pos ⟨rfl, hid⟩, Res.bind_raise]
    · rw [takeEntry_zero_of_ge hid, if_neg fun h => hid.not_gt h.2, Res.bind_ok, if_pos rfl]
  · rw [takeEntry, if_neg hv, if_neg fun h => hv h.1, Res.bind_ok, if_neg hv]

theorem interrupt_noIvt (h : s.ivtBaseValid = false) : interrupt id s = .fatal .unsetBase s := by
  rw [interrupt, findInt_noIvt h, Res.bind_fatal]

/-- The read of the entry that INT makes, in every case (45_system.md R212). -/
theorem reads_of_int (n : Word) (h : s.ivtBaseValid = true) :
    Spec.Reads (s.ivtBase + BitVec.ofNat 32 (4 * n.toNat)) 4 s (exec (.int n) s)
      fun v t => finish (takeEntry n.toNat v t) := by
  refine reads_of_eq_bind ?_ fun _ _ _ => rfl
  rw [exec_eq_finish, work, interrupt_of_ivt h]

/-- An entry that is not 0 is entered as a call, from the state its read has left. -/
theorem pushes_of_takeEntry {o : Host.Outcome State Fault Refusal} (hv : v ≠ 0)
    (ho : o = finish (takeEntry id v t)) :
    Spec.Pushes 4 t.pc.toNat t o fun u => { u with pc := BitVec.ofNat 32 v } := by
  refine pushes_of_eq_bind (by norm_num) ?_
  rw [ho, takeEntry_of_ne_zero hv]
  rfl

/-! ## The page table -/

/-- Two frames that are both LowestFree are equal: each is free, so neither lies below the other. -/
theorem isLowestFree_unique {f g : Nat} (hf : Spec.IsLowestFree s f) (hg : Spec.IsLowestFree s g) : f = g := by
  have notBelow : ∀ {i j}, Spec.IsLowestFree s i → Spec.IsLowestFree s j → ¬ i < j := by
    rintro i j ⟨hdevice, hfree, -⟩ ⟨-, -, hleast⟩ hlt
    rcases hleast i hlt with h | ⟨p, h⟩
    · exact hdevice h
    · exact hfree p h
  exact le_antisymm (not_lt.mp (notBelow hg hf)) (not_lt.mp (notBelow hf hg))

theorem allocatePageAt_deviceFrame {p : PageNo} {f : Nat} (h : f = s.cfg.deviceFrame) :
    allocatePageAt p f s = .fatal .reservedFrame s :=
  if_pos h

theorem allocatePageAt_of_not_exists {p : PageNo} {f : Nat} (hd : f ≠ s.cfg.deviceFrame)
    (h : ¬ Spec.FrameExists s f) : allocatePageAt p f s = .fatal .outOfFrames s := by
  rw [allocatePageAt, if_neg hd, if_pos (beyondFrames_eq_true.mpr h)]

theorem mapGet_mapErase {α : Type} (m : List (Nat × α)) (k l : Nat) :
    mapGet (mapErase m k) l = if l = k then none else mapGet m l := by
  split_ifs with h
  · rw [h, mapGet_mapErase_same]
  · exact mapGet_mapErase_other m h

/-! ## The block size -/

theorem count_halve (bs : BlockSize) : bs.halve.count = max 1 (bs.count / 2) := by
  cases bs <;> rfl

theorem count_double (bs : BlockSize) : bs.double.count = min 4 (2 * bs.count) := by
  cases bs <;> rfl

theorem shrinkTo_eq (bs : BlockSize) (s : State) :
    shrinkTo bs s = { s with
      bs := bs
      a := BitVec.ofNat 64 (s.a.toNat % 2 ^ bs.width)
      x := BitVec.ofNat 64 (s.x.toNat % 2 ^ bs.width)
      y := BitVec.ofNat 64 (s.y.toNat % 2 ^ bs.width) } := by
  simp only [shrinkTo, maskedCell, maskW_natCast]

end Sys2Proof.Machine
end

section
/-! PROOFS. The statements on interrupt, paging, block-size and halt instructions (45_system.md); SETIVT stands with the
stack's. -/

namespace Sys2Proof.Machine

/-- Settles O46: the read of the entry ends in each of its cases (`reads_of_int`), and the entry is taken as its value
says (`takeEntry`). -/
theorem softwareInterrupt : Obligations.SoftwareInterrupt := by
  unfold Obligations.SoftwareInterrupt
  refine ⟨⟨fun _ => rfl, operandFault .int⟩, fun n s => ⟨fun h => ?_, fun h => ?_⟩⟩
  · exact exec_of_work_fatal (interrupt_noIvt h)
  · obtain ⟨-, hread, hfault, hport⟩ := reads_of_int n h
    refine ⟨fun v t hv => ⟨?_, ?_, fun hne => pushes_of_takeEntry hne (hread v t hv)⟩, hfault, hport⟩
    · rintro rfl hid
      exact (hread 0 t hv).trans (congrArg finish (takeEntry_zero_of_lt hid t))
    · rintro rfl hid
      exact (hread 0 t hv).trans (congrArg finish (takeEntry_zero_of_ge hid t))

/-- Settles O47: an entry in mapped memory is read as it stands and changes nothing, and a push whose slot is in mapped
memory completes. -/
theorem softwareInterruptFromMemory : Obligations.SoftwareInterruptFromMemory := by
  unfold Obligations.SoftwareInterruptFromMemory
  intro n s l h hl hbytes
  obtain ⟨hread, -⟩ := reads_of_int n h
  have hexec := hread l hl hbytes
  refine ⟨fun h0 hid => ?_, fun hne hpush => ?_⟩
  · rw [h0] at hexec
    exact hexec.trans (congrArg finish (takeEntry_zero_of_ge hid s))
  · obtain ⟨-, hmem, -⟩ := pushes_of_takeEntry hne hexec
    exact hmem hpush

/-- Settles O48: the checks of `registerInt` in their order, then the write of the entry (`writes_of_eq_bind`). -/
theorem defineInterrupt : Obligations.DefineInterrupt := by
  unfold Obligations.DefineInterrupt
  refine ⟨fun _ => rfl, operandFault .defint, fun n t s => ⟨fun hid => ?_, fun hid h => ?_, fun hid h => ?_⟩⟩
  · rw [exec_eq_finish, work, registerInt_overflow hid]
  · exact exec_of_work_fatal (registerInt_noIvt hid h)
  · refine writes_of_eq_bind (by norm_num) ?_
    rw [exec_eq_finish, work, registerInt_of_ivt hid h]
    exact congrArg finish (Res.bind_ok_self _).symm

/-- Settles O49: PAGE takes the only frame that is LowestFree (`isLowestFree_unique`), and setting or erasing a key of
the page table changes the entry of that page alone. -/
theorem pageTable : Obligations.PageTable := by
  unfold Obligations.PageTable
  refine ⟨⟨fun _ => rfl, operandFault .page⟩, ⟨fun _ => rfl, operandFault .free⟩, fun _ => rfl,
    operandFault .pageat, fun p f w s hpt => ?_⟩
  have hlowest : ∀ {g}, Spec.IsLowestFree s g → g = lowestFree s :=
    fun hg => isLowestFree_unique hg (lowestFree_isLowestFree hpt)
  refine ⟨fun hf he => ?_, fun hf he => ?_, fun hw => ?_, fun hd he => ?_, fun hd he => ?_, ?_⟩
  · obtain rfl := hlowest hf
    exact ⟨_, exec_of_work_ok (allocatePage_of_exists he), fun q => mapGet_mapSet _ _ q _⟩
  · obtain rfl := hlowest hf
    exact exec_of_work_fatal (allocatePage_of_not_exists he)
  · exact exec_of_work_fatal (allocatePageAt_deviceFrame hw)
  · exact exec_of_work_fatal (allocatePageAt_of_not_exists hd he)
  · exact ⟨_, exec_of_work_ok (allocatePageAt_of_exists hd he), fun q => mapGet_mapSet _ _ q _⟩
  · exact ⟨_, exec_of_work_ok rfl, fun q => mapGet_mapErase _ _ q⟩

/-- Settles O50: the new block sizes by their counts (`count_halve`, `count_double`), and the masks of REDUCE as
remainders (`shrinkTo_eq`). -/
theorem blockSizeChange : Obligations.BlockSizeChange := by
  unfold Obligations.BlockSizeChange
  refine ⟨fun _ => rfl, fun _ => rfl, fun s => ⟨?_, ?_⟩⟩
  · refine ⟨s.bs.halve, count_halve s.bs, ?_⟩
    rw [← shrinkTo_eq]
    exact exec_of_work_ok rfl
  · exact ⟨s.bs.double, count_double s.bs, exec_of_work_ok rfl⟩

/-- Settles O51: a halting instruction writes `run` alone, and a state that is not Running has no step
(`step_of_not_running`). -/
theorem halts : Obligations.Halts := by
  unfold Obligations.Halts
  refine ⟨fun _ => rfl, fun _ => rfl, fun s => ⟨exec_of_work_ok rfl, exec_of_work_ok rfl, fun k t => ?_⟩⟩
  have hrun : ({ s with run := .haltedBy k } : State).run ≠ .running := RunState.noConfusion
  rw [step_of_not_running hrun]
  nofun

end Sys2Proof.Machine
end

section
/-! SUPPORT. One attempt of the fault router (60_exceptions.md R232): the ends that it can come to, and what the policies
make of a zero entry and of a fault inside (R233, R234). -/

namespace Sys2Proof.Machine

variable {k : FaultKind} {v : Nat} {r : FatalReason} {s t u : State} {l : List Byte}
  {missing nested : State → Res Unit}

/-! ## The ends of an attempt -/

/-- The fault `k` inside the router's attempt at vector `v`, which leaves `u` (R234): in the read of the entry, or in
the push of pc; `transaction_of_faultsInside` ties it to the router. -/
def FaultsInside (v : Nat) (k : FaultKind) (s u : State) : Prop :=
  memRead (Spec.entryAt v s) 4 s = .raise k u ∨
    ∃ n w, memRead (Spec.entryAt v s) 4 s = .ok n w ∧ n ≠ 0 ∧ push 4 w.pc.toNat w = .raise k u

/-- The attempt at vector `v` is fatal for the reason `r` and leaves `u` (R230, R232): there is no IVT base, or the read
of the entry or the push of pc is fatal; `transaction_of_stopsInside` ties it to the router. -/
def StopsInside (v : Nat) (r : FatalReason) (s u : State) : Prop :=
  (s.ivtBaseValid = false ∧ r = .unsetBase ∧ u = s) ∨
    s.ivtBaseValid = true ∧ (memRead (Spec.entryAt v s) 4 s = .fatal r u ∨
      ∃ n w, memRead (Spec.entryAt v s) 4 s = .ok n w ∧ n ≠ 0 ∧ push 4 w.pc.toNat w = .fatal r u)

/-- An attempt has no other ends than these four: the handler is entered, the entry is 0, a fault inside, a fatal
outcome. -/
theorem attempt_cases (v : Nat) (s : State) :
    (∃ t, Spec.Enters v s t) ∨
      (s.ivtBaseValid = true ∧ ∃ u, memRead (Spec.entryAt v s) 4 s = .ok 0 u) ∨
      (s.ivtBaseValid = true ∧ ∃ k u, FaultsInside v k s u) ∨
      ∃ r u, StopsInside v r s u := by
  cases hv : s.ivtBaseValid with
  | false => exact .inr (.inr (.inr ⟨_, s, .inl ⟨hv, rfl, rfl⟩⟩))
  | true =>
    cases hread : memRead (Spec.entryAt v s) 4 s with
    | raise k u => exact .inr (.inr (.inl ⟨rfl, k, u, .inl hread⟩))
    | fatal r u => exact .inr (.inr (.inr ⟨r, u, .inr ⟨hv, .inl hread⟩⟩))
    | ok n u =>
      rcases eq_or_ne n 0 with rfl | hn
      · exact .inr (.inl ⟨rfl, u, rfl⟩)
      · cases hpush : push 4 u.pc.toNat u with
        | ok _ w => exact .inl ⟨_, hv, n, u, w, hread, hn, hpush, rfl⟩
        | raise k w => exact .inr (.inr (.inl ⟨rfl, k, w, .inr ⟨n, u, hread, hn, hpush⟩⟩))
        | fatal r w => exact .inr (.inr (.inr ⟨r, w, .inr ⟨hv, .inr ⟨n, u, hread, hn, hpush⟩⟩⟩))

/-- A handler is entered from memory: the entry stands there and is not 0, and the push finds its slot there. -/
theorem enters_of_holds (hv : s.ivtBaseValid = true) (hl : l.length = 4) (hbytes : HoldsBytes s (Spec.entryAt v s) l)
    (hne : leValue l ≠ 0) (hstack : CanPush 4 s) :
    ∃ t, push 4 s.pc.toNat s = .ok () t ∧ Pushed 4 s.pc.toNat s t ∧
      Spec.Enters v s { t with pc := BitVec.ofNat 32 (leValue l), routing := none } := by
  obtain ⟨t, hpush, hpushed⟩ := push_pushed (by norm_num) s.pc.toNat hstack
  have hread := memRead_of_holds hbytes
  rw [hl] at hread
  exact ⟨t, hpush, hpushed, hv, _, s, t, hread, hne, hpush, rfl⟩

/-! ## One transaction -/

theorem transaction_of_enters (h : Spec.Enters v s t) : transaction v missing nested s = .ok () t := by
  obtain ⟨hv, n, u, w, hread, hn, hpush, rfl⟩ := h
  simp only [transaction_attempt hv, hread, if_neg hn, hpush]

theorem transaction_of_zero (hv : s.ivtBaseValid = true) (h : memRead (Spec.entryAt v s) 4 s = .ok 0 u) :
    transaction v missing nested s = missing (servicing v u) := by
  simp only [transaction_attempt hv, h, if_pos]

theorem transaction_of_faultsInside (hv : s.ivtBaseValid = true) (h : FaultsInside v k s u) :
    transaction v missing nested s = nested (servicing v u) := by
  obtain hread | ⟨n, w, hread, hn, hpush⟩ := h
  · simp only [transaction_attempt hv, hread]
  · simp only [transaction_attempt hv, hread, if_neg hn, hpush]

theorem transaction_of_stopsInside (h : StopsInside v r s u) :
    transaction v missing nested s = .fatal r (servicing v u) := by
  obtain ⟨hv, rfl, rfl⟩ | ⟨hv, hread | ⟨n, w, hread, hn, hpush⟩⟩ := h
  · exact transaction_noIvt hv
  · simp only [transaction_attempt hv, hread]
  · simp only [transaction_attempt hv, hread, if_neg hn, hpush]

/-! ## The policies -/

/-- What a zero entry of the vector of `k` comes to (R233); `route_eq` ties it to `route`. -/
def onMissing (k : FaultKind) (s : State) : Res Unit :=
  if k = .undefinedInterrupt then .fatal .noHandler s else missingVector s

/-- What a fault inside the attempt at the vector of `k` comes to (R234); `route_eq` ties it to `route`. -/
def onNested (k : FaultKind) (s : State) : Res Unit :=
  if k = .undefinedInterrupt then .fatal .doubleFault s else nestedFault s

theorem onMissing_fatal (h : s.cfg.missingVector = .fatal ∨ k = .undefinedInterrupt) :
    onMissing k s = .fatal .noHandler s := by
  unfold onMissing missingVector
  split_ifs with hk
  · rfl
  · rw [h.resolve_right hk]

theorem onMissing_escalate (h : s.cfg.missingVector = .escalate) (hk : k ≠ .undefinedInterrupt) :
    onMissing k s = routeLast s := by
  rw [onMissing, if_neg hk, missingVector, h]

theorem onNested_fatal (h : s.cfg.routerFault = .fatal ∨ k = .undefinedInterrupt) :
    onNested k s = .fatal .doubleFault s := by
  unfold onNested nestedFault
  split_ifs with hk
  · rfl
  · rw [h.resolve_right hk]

theorem onNested_escalate (h : s.cfg.routerFault = .escalate) (hk : k ≠ .undefinedInterrupt) :
    onNested k s = routeLast s := by
  rw [onNested, if_neg hk, nestedFault, h]

/-- Routing is one transaction for every fault kind, and the policies are all that the kinds differ in besides their
vector. -/
theorem route_eq (k : FaultKind) (s : State) :
    route k s = transaction (Spec.vector k) (onMissing k) (onNested k) s := by
  cases k <;> rfl

end Sys2Proof.Machine
end

section
/-! SUPPORT. The state that an attempt of the router leaves, the two attempts that a fault can make, and the way back
(60_exceptions.md R226, R233, R234, R236, R240). -/

namespace Sys2Proof.Machine

variable {k : FaultKind} {v : Nat} {r : FatalReason} {s t u w : State}

/-! ## What an attempt leaves -/

/-- The router has begun a push from `s` and got to `u`: stack_pos is up, and only the slot's bytes and what port
accesses leave may have changed besides. -/
def PushBegun (s u : State) : Prop :=
  (∃ f d l, u = { s with stackPos := s.stackPos + 4#32, frames := f, draws := d, portLog := l }) ∧
    ∀ b, Apart s (s.stackBase - (s.stackPos + 4#32)) 4 b → peek u b = peek s b

/-- What an attempt from `s` leaves, up to the jump to the handler: no push was begun, or one was. -/
def AttemptOnly (s u : State) : Prop := PortsOnly s u ∨ PushBegun s u

theorem AttemptOnly.refl (s : State) : AttemptOnly s s := .inl (.refl s)

theorem AttemptOnly.cfg (h : AttemptOnly s u) : u.cfg = s.cfg := by
  obtain ⟨_, _, rfl⟩ | ⟨⟨_, _, _, rfl⟩, -⟩ := h <;> rfl

theorem AttemptOnly.run (h : AttemptOnly s u) : u.run = s.run := by
  obtain ⟨_, _, rfl⟩ | ⟨⟨_, _, _, rfl⟩, -⟩ := h <;> rfl

theorem AttemptOnly.ivtBase (h : AttemptOnly s u) : u.ivtBase = s.ivtBase := by
  obtain ⟨_, _, rfl⟩ | ⟨⟨_, _, _, rfl⟩, -⟩ := h <;> rfl

theorem AttemptOnly.stackPos (h : AttemptOnly s u) : u.stackPos = s.stackPos ∨ u.stackPos = s.stackPos + 4#32 := by
  obtain ⟨_, _, rfl⟩ | ⟨⟨_, _, _, rfl⟩, -⟩ := h
  · exact .inl rfl
  · exact .inr rfl

/-! ## Where an attempt ends -/

theorem Res.Ends.of_eq_raise {α : Type} {P : State → Prop} {m : Res α} (h : m.Ends P) (he : m = .raise k s) : P s := by
  subst he
  exact h

theorem Res.Ends.of_eq_fatal {α : Type} {P : State → Prop} {m : Res α} (h : m.Ends P) (he : m = .fatal r s) : P s := by
  subst he
  exact h

/-- With a stack, the push after the entry's read has begun wherever it ends. -/
theorem push_pushBegun (h : PortsOnly s w) (hv : w.stackBaseValid = true) (x : Nat) :
    (push 4 x w).Ends (PushBegun s) := by
  obtain ⟨_, _, rfl⟩ := h
  refine (push_apart x hv).imp fun u hu => ?_
  obtain ⟨⟨f, l, rfl⟩, hframe⟩ := hu
  exact ⟨⟨f, _, l, rfl⟩, hframe⟩

theorem memRead_portsOnly {a : Addr} {m n : Nat} (h : memRead a m s = .ok n w) : PortsOnly s w :=
  (memRead_ends a m s).of_eq_ok h

theorem stackBaseValid_of_push {x : Nat} (h : push 4 x s ≠ .fatal .unsetBase s) : s.stackBaseValid = true := by
  by_contra hv
  exact h (push_noStack (Bool.eq_false_iff.mpr hv))

/-- A handler is entered after one push, at an address that is not 0: an entry of 4 bytes is below 2^32. -/
theorem enters_pushBegun (h : Spec.Enters v s t) :
    ∃ (a : Addr) (w : State), a ≠ 0 ∧ PushBegun s w ∧ t = { w with pc := a, routing := none } := by
  obtain ⟨-, n, u, w, hread, hn, hpush, rfl⟩ := h
  have hlt : n < 2 ^ 32 := memRead_bound hread
  have hne : BitVec.ofNat 32 n ≠ 0#32 := fun h0 => by
    have := congrArg BitVec.toNat h0
    rw [BitVec.toNat_ofNat, Nat.mod_eq_of_lt hlt] at this
    exact hn this
  have hv : u.stackBaseValid = true := stackBaseValid_of_push (by rw [hpush]; nofun)
  exact ⟨_, w, hne, (push_pushBegun (memRead_portsOnly hread) hv _).of_eq_ok hpush, rfl⟩

theorem enters_run_pc_stackPos (h : Spec.Enters v s t) :
    t.run = s.run ∧ t.pc ≠ 0 ∧ t.stackPos = s.stackPos + 4#32 := by
  obtain ⟨a, w, ha, ⟨⟨_, _, _, rfl⟩, -⟩, rfl⟩ := enters_pushBegun h
  exact ⟨rfl, ha, rfl⟩

theorem attemptOnly_of_faultsInside (h : FaultsInside v k s u) : AttemptOnly s u := by
  obtain hread | ⟨n, w, hread, -, hpush⟩ := h
  · exact .inl ((memRead_ends _ 4 s).of_eq_raise hread)
  · have hv : w.stackBaseValid = true := stackBaseValid_of_push (by rw [hpush]; nofun)
    exact .inr ((push_pushBegun (memRead_portsOnly hread) hv _).of_eq_raise hpush)

theorem attemptOnly_of_stopsInside (h : StopsInside v r s u) : AttemptOnly s u := by
  obtain ⟨-, -, rfl⟩ | ⟨-, hread | ⟨n, w, hread, -, hpush⟩⟩ := h
  · exact .refl u
  · exact .inl ((memRead_ends _ 4 s).of_eq_fatal hread)
  · have hw := memRead_portsOnly hread
    cases hv : w.stackBaseValid with
    | false =>
      rw [push_noStack hv] at hpush
      cases hpush
      exact .inl hw
    | true => exact .inr ((push_pushBegun hw hv _).of_eq_fatal hpush)

theorem attemptOnly_of_escalates (h : Spec.Escalates v s u) : AttemptOnly s u := by
  obtain ⟨-, ⟨-, hread⟩ | ⟨-, k, hfault⟩⟩ := h
  · exact .inl (memRead_portsOnly hread)
  · exact attemptOnly_of_faultsInside hfault

/-! ## What a fault comes to after its first attempt -/

theorem finish_raise (k : FaultKind) (s : State) : finish (.raise k s) = .next (afterRoute (route k s)) := rfl

/-- The router sets its marker anew, so it makes no difference which vector it was servicing. -/
theorem afterRoute_routeLast_servicing (v : Nat) (s : State) :
    Host.Outcome.next (afterRoute (routeLast (servicing v s))) = finish (.raise .undefinedInterrupt s) := rfl

theorem finish_raise_of_enters (h : Spec.Enters (Spec.vector k) s t) : finish (.raise k s) = .next t := by
  rw [finish_raise, route_eq, transaction_of_enters h, afterRoute]

theorem finish_raise_of_stopsInside (h : StopsInside (Spec.vector k) r s u) :
    finish (.raise k s) = .next (Spec.fatal r u) := by
  rw [finish_raise, route_eq, transaction_of_stopsInside h]
  rfl

/-- A zero entry where the policy does not escalate (R233). -/
theorem finish_raise_of_zero_fatal (hv : s.ivtBaseValid = true)
    (h : memRead (Spec.entryAt (Spec.vector k) s) 4 s = .ok 0 u)
    (hpolicy : s.cfg.missingVector = .fatal ∨ k = .undefinedInterrupt) :
    finish (.raise k s) = .next (Spec.fatal .noHandler u) := by
  have hcfg : u.cfg = s.cfg := AttemptOnly.cfg (.inl (memRead_portsOnly h))
  rw [finish_raise, route_eq, transaction_of_zero hv h, onMissing_fatal (by rwa [servicing_cfg, hcfg])]
  rfl

/-- A fault inside the router where the policy does not escalate (R234). -/
theorem finish_raise_of_faultsInside_fatal {k' : FaultKind} (hv : s.ivtBaseValid = true)
    (h : FaultsInside (Spec.vector k) k' s u) (hpolicy : s.cfg.routerFault = .fatal ∨ k = .undefinedInterrupt) :
    finish (.raise k s) = .next (Spec.fatal .doubleFault u) := by
  have hcfg := (attemptOnly_of_faultsInside h).cfg
  rw [finish_raise, route_eq, transaction_of_faultsInside hv h, onNested_fatal (by rwa [servicing_cfg, hcfg])]
  rfl

/-- An attempt that the policies escalate leads to the attempt at vector 0x100, from where it got to. -/
theorem finish_raise_of_escalates (hk : k ≠ .undefinedInterrupt) (h : Spec.Escalates (Spec.vector k) s u) :
    finish (.raise k s) = finish (.raise .undefinedInterrupt u) := by
  have hcfg := (attemptOnly_of_escalates h).cfg
  obtain ⟨hv, ⟨hpolicy, hread⟩ | ⟨hpolicy, k', hfault⟩⟩ := h
  · rw [finish_raise, route_eq, transaction_of_zero hv hread,
      onMissing_escalate (by rwa [servicing_cfg, hcfg]) hk, afterRoute_routeLast_servicing]
  · rw [finish_raise, route_eq, transaction_of_faultsInside hv hfault,
      onNested_escalate (by rwa [servicing_cfg, hcfg]) hk, afterRoute_routeLast_servicing]

/-- What a fault comes to after its first attempt, for every kind: its handler is entered, or the attempt is escalated,
which it is not at vector 0x100, or the run ends where the attempt got to. -/
theorem finish_raise_cases (k : FaultKind) (s : State) :
    (∃ t, Spec.Enters (Spec.vector k) s t ∧ finish (.raise k s) = .next t) ∨
      (k ≠ .undefinedInterrupt ∧ ∃ u, Spec.Escalates (Spec.vector k) s u ∧
        finish (.raise k s) = finish (.raise .undefinedInterrupt u)) ∨
      ∃ r u, AttemptOnly s u ∧ finish (.raise k s) = .next (Spec.fatal r u) := by
  rcases attempt_cases (Spec.vector k) s with ⟨t, h⟩ | ⟨hv, u, h⟩ | ⟨hv, k', u, h⟩ | ⟨r, u, h⟩
  · exact .inl ⟨t, h, finish_raise_of_enters h⟩
  · have hends := memRead_portsOnly h
    cases hpolicy : s.cfg.missingVector with
    | fatal => exact .inr (.inr ⟨_, u, .inl hends, finish_raise_of_zero_fatal hv h (.inl hpolicy)⟩)
    | escalate =>
      rcases eq_or_ne k .undefinedInterrupt with hk | hk
      · exact .inr (.inr ⟨_, u, .inl hends, finish_raise_of_zero_fatal hv h (.inr hk)⟩)
      · have hesc : Spec.Escalates (Spec.vector k) s u := ⟨hv, .inl ⟨hpolicy, h⟩⟩
        exact .inr (.inl ⟨hk, u, hesc, finish_raise_of_escalates hk hesc⟩)
  · have hends := attemptOnly_of_faultsInside h
    cases hpolicy : s.cfg.routerFault with
    | fatal => exact .inr (.inr ⟨_, u, hends, finish_raise_of_faultsInside_fatal hv h (.inl hpolicy)⟩)
    | escalate =>
      rcases eq_or_ne k .undefinedInterrupt with hk | hk
      · exact .inr (.inr ⟨_, u, hends, finish_raise_of_faultsInside_fatal hv h (.inr hk)⟩)
      · have hesc : Spec.Escalates (Spec.vector k) s u := ⟨hv, .inr ⟨hpolicy, k', h⟩⟩
        exact .inr (.inl ⟨hk, u, hesc, finish_raise_of_escalates hk hesc⟩)
  · exact .inr (.inr ⟨r, u, attemptOnly_of_stopsInside h, finish_raise_of_stopsInside h⟩)

/-! ## Two attempts -/

/-- What a fault comes to in the end: an escalated attempt is followed by one at vector 0x100, which escalates no
further. -/
theorem finish_raise_ends (k : FaultKind) (s : State) :
    (∃ t, Spec.Enters (Spec.vector k) s t ∧ finish (.raise k s) = .next t) ∨
      (k ≠ .undefinedInterrupt ∧ ∃ u t, Spec.Escalates (Spec.vector k) s u ∧ Spec.Enters 0x100 u t ∧
        finish (.raise k s) = .next t) ∨
      ∃ r u w, AttemptOnly s u ∧ AttemptOnly u w ∧ finish (.raise k s) = .next (Spec.fatal r w) := by
  rcases finish_raise_cases k s with h | ⟨hk, u, hesc, heq⟩ | ⟨r, u, hu, hnext⟩
  · exact .inl h
  · rcases finish_raise_cases .undefinedInterrupt u with ⟨t, h, hnext⟩ | ⟨hne, -⟩ | ⟨r, w, hw, hnext⟩
    · exact .inr (.inl ⟨hk, u, t, hesc, h, heq.trans hnext⟩)
    · exact absurd rfl hne
    · exact .inr (.inr ⟨r, u, w, attemptOnly_of_escalates hesc, hw, heq.trans hnext⟩)
  · exact .inr (.inr ⟨r, u, u, hu, .refl u, hnext⟩)

/-- What the attempts of one fault leave, up to the jump (R236): stack_pos as far up as pushes were begun, and nothing
outside their slots. -/
structure TrapOnly (s w : State) : Prop where
  fields : ∃ p f d l, w = { s with stackPos := p, frames := f, draws := d, portLog := l }
  stackPos : w.stackPos = s.stackPos ∨ w.stackPos = s.stackPos + 4#32 ∨ w.stackPos = s.stackPos + 8#32
  noPush : w.stackPos = s.stackPos → w.frames = s.frames
  bytes : ∀ b, Apart s (s.stackBase - (s.stackPos + 4#32)) 4 b →
    (w.stackPos = s.stackPos + 8#32 → Apart s (s.stackBase - (s.stackPos + 8#32)) 4 b) → peek w b = peek s b

theorem PortsOnly.trapOnly (h : PortsOnly s w) : TrapOnly s w := by
  obtain ⟨d, l, rfl⟩ := h
  exact ⟨⟨_, _, d, l, rfl⟩, .inl rfl, fun _ => rfl, fun _ _ _ => rfl⟩

theorem PushBegun.trapOnly (h : PushBegun s w) : TrapOnly s w := by
  obtain ⟨⟨f, d, l, rfl⟩, hbytes⟩ := h
  exact ⟨⟨_, f, d, l, rfl⟩, .inr (.inl rfl), fun hpos => absurd hpos (add_ne_left.mpr (by decide)),
    fun b h4 _ => hbytes b h4⟩

theorem add_four_add_four (p : Addr) : p + 4#32 + 4#32 = p + 8#32 := BitVec.add_assoc p 4#32 4#32

/-- Two pushes begun: the second slot is the one that stack_pos + 8 gives. -/
theorem PushBegun.trapOnly_push (h : PushBegun s u) (g : PushBegun u w) : TrapOnly s w := by
  obtain ⟨⟨f, d, l, rfl⟩, hfirst⟩ := h
  obtain ⟨⟨f', d', l', rfl⟩, hsecond⟩ := g
  simp only [add_four_add_four] at hsecond ⊢
  exact ⟨⟨_, f', d', l', rfl⟩, .inr (.inr rfl), fun hpos => absurd hpos (add_ne_left.mpr (by decide)),
    fun b h4 h8 => (hsecond b (h8 rfl)).trans (hfirst b h4)⟩

/-- Port accesses before an attempt or after it change nothing that `TrapOnly` speaks of. -/
theorem AttemptOnly.trapOnly (h : AttemptOnly s u) (g : AttemptOnly u w) : TrapOnly s w := by
  obtain hports | hpush := h
  · obtain gports | ⟨⟨f, d, l, rfl⟩, hbytes⟩ := g
    · exact (hports.trans gports).trapOnly
    · obtain ⟨_, _, rfl⟩ := hports
      exact PushBegun.trapOnly ⟨⟨f, d, l, rfl⟩, hbytes⟩
  · obtain ⟨d, l, rfl⟩ | gpush := g
    · obtain ⟨⟨f, _, _, rfl⟩, hbytes⟩ := hpush
      exact PushBegun.trapOnly ⟨⟨f, d, l, rfl⟩, hbytes⟩
    · exact hpush.trapOnly_push gpush

/-- Trap entry gets to a state that `TrapOnly` describes, and there jumps to the handler or ends the run. -/
theorem finish_raise_trapOnly (k : FaultKind) (s : State) :
    ∃ w, TrapOnly s w ∧
      ((∃ a, finish (.raise k s) = .next { w with pc := a, routing := none }) ∨
        ∃ r, finish (.raise k s) = .next (Spec.fatal r w)) := by
  rcases finish_raise_ends k s with ⟨t, h, hnext⟩ | ⟨-, u, t, hesc, h, hnext⟩ | ⟨r, u, w, hu, hw, hnext⟩
  · obtain ⟨a, w, -, hpush, rfl⟩ := enters_pushBegun h
    exact ⟨w, hpush.trapOnly, .inl ⟨a, hnext⟩⟩
  · obtain ⟨a, w, -, hpush, rfl⟩ := enters_pushBegun h
    exact ⟨w, (attemptOnly_of_escalates hesc).trapOnly (.inr hpush), .inl ⟨a, hnext⟩⟩
  · exact ⟨w, hu.trapOnly hw, .inr ⟨r, hnext⟩⟩

/-! ## The way back -/

/-- RET of an address that stands in the current slot jumps to it and takes the slot off the stack (R240). -/
theorem exec_ret_of_holds {a : Addr} (hv : s.stackBaseValid = true)
    (h : HoldsBytes s (s.stackBase - s.stackPos) (leBytes 4 a.toNat)) :
    exec .ret s = .next { s with pc := a, stackPos := s.stackPos - 4#32 } := by
  obtain ⟨-, hpop⟩ := pops_of_returnPc (i := .ret) (s := s) rfl
  obtain ⟨hread, -⟩ := hpop hv
  have ha : a.toNat < 256 ^ 4 := a.isLt
  refine (hread _ (length_leBytes 4 _) h).trans ?_
  dsimp only
  rw [leValue_leBytes, Nat.mod_eq_of_lt ha, BitVec.ofNat_toNat, BitVec.setWidth_eq]

end Sys2Proof.Machine
end

section
/-! PROOFS. The statements on taking a fault and returning from it (60_exceptions.md). -/

namespace Sys2Proof.Machine

/-- Settles O23: an attempt that enters the handler is the answer (`finish_raise_of_enters`), and an absent port stops
the read or the push in which it is met (`finish_raise_of_stopsInside`). -/
theorem routerEnters : Obligations.RouterEnters := by
  unfold Obligations.RouterEnters
  intro k s hv
  refine ⟨fun l hl hbytes hne hstack => ?_, fun t => finish_raise_of_enters, fun j v t p hj hread hplace hp => ?_,
    fun v t j u p hread hne hstack hj hwrite hplace hp => ?_⟩
  · obtain ⟨t, -, hpushed, henters⟩ := enters_of_holds hv hl hbytes hne hstack
    exact ⟨t, hpushed, finish_raise_of_enters henters⟩
  · exact finish_raise_of_stopsInside (.inr ⟨hv, .inl (memRead_noPort hj hread hplace hp)⟩)
  · refine finish_raise_of_stopsInside (.inr ⟨hv, .inr ⟨v, t, hread, hne, ?_⟩⟩)
    obtain ⟨d, l, rfl⟩ := memRead_portsOnly hread
    exact (push_of_stack (s := { s with draws := d, portLog := l }) hstack).trans (memWrite_noPort hj hwrite hplace hp)

/-- Settles O24: each missing base stops the attempt, the stack's only once the entry has been read. -/
theorem routerWithoutBase : Obligations.RouterWithoutBase := by
  unfold Obligations.RouterWithoutBase
  refine fun k s => ⟨fun hv => finish_raise_of_stopsInside (.inl ⟨hv, rfl, rfl⟩), fun hv hstack v t hread hne => ?_⟩
  refine finish_raise_of_stopsInside (.inr ⟨hv, .inr ⟨v, t, hread, hne, push_noStack ?_⟩⟩)
  obtain ⟨_, _, rfl⟩ := memRead_portsOnly hread
  exact hstack

/-- Settles O25: under `escalate` the attempt is one of those that `finish_raise_of_escalates` speaks of. -/
theorem missingVectorRule : Obligations.MissingVectorRule := by
  unfold Obligations.MissingVectorRule
  exact fun k s t hv hread => ⟨finish_raise_of_zero_fatal hv hread,
    fun hpolicy hk => finish_raise_of_escalates hk ⟨hv, .inl ⟨hpolicy, hread⟩⟩⟩

/-- Settles O26: as O25, for a fault inside the attempt. -/
theorem faultInsideRouter : Obligations.FaultInsideRouter := by
  unfold Obligations.FaultInsideRouter
  exact fun k k' s u hv hfault => ⟨finish_raise_of_faultsInside_fatal hv hfault,
    fun hpolicy hk => finish_raise_of_escalates hk ⟨hv, .inr ⟨hpolicy, k', hfault⟩⟩⟩

/-- Settles O27: the three ends of `finish_raise_ends`, with what the attempts leave of run, pc and stack_pos. -/
theorem noFaultSwallowed : Obligations.NoFaultSwallowed := by
  unfold Obligations.NoFaultSwallowed
  intro k s
  rcases finish_raise_ends k s with ⟨t, henters, hnext⟩ | ⟨hk, u, t, hesc, henters, hnext⟩ | ⟨r, u, w, -, -, hnext⟩
  · obtain ⟨hrun, hpc, hpos⟩ := enters_run_pc_stackPos henters
    exact ⟨t, hnext, .inr ⟨hrun, hpc, .inl ⟨henters, hpos⟩⟩⟩
  · obtain ⟨hrun, hpc, hpos⟩ := enters_run_pc_stackPos henters
    have hu := attemptOnly_of_escalates hesc
    have hpushes : t.stackPos = s.stackPos + 4#32 ∨ t.stackPos = s.stackPos + 8#32 :=
      hu.stackPos.imp (fun h => by rw [hpos, h]) (fun h => by rw [hpos, h, add_four_add_four])
    exact ⟨t, hnext, .inr ⟨hrun.trans hu.run, hpc, .inr ⟨hk, u, hesc, hu.ivtBase, henters, hpushes⟩⟩⟩
  · exact ⟨_, hnext, .inl ⟨r, rfl⟩⟩

/-- Settles O28: `TrapOnly` says all but what the jump or the fatal end changes after it, pc or `run`. -/
theorem trapEntryFrame : Obligations.TrapEntryFrame := by
  unfold Obligations.TrapEntryFrame
  intro k s t h
  obtain ⟨w, ⟨⟨p, f, d, l, rfl⟩, hpos, hframes, hbytes⟩, ⟨a, hnext⟩ | ⟨r, hnext⟩⟩ := finish_raise_trapOnly k s
  · cases h.symm.trans hnext
    exact ⟨rfl, hpos, hframes, hbytes, .inl rfl⟩
  · cases h.symm.trans hnext
    exact ⟨rfl, hpos, hframes, hbytes, .inr ⟨⟨r, rfl⟩, rfl⟩⟩

/-- Settles O29: both push pc from the same state and jump to the same entry; the router clears a marker that is clear
already. -/
theorem intEntersAsFault : Obligations.IntEntersAsFault := by
  unfold Obligations.IntEntersAsFault
  intro k s l hv hidle hl hbytes hne hstack
  obtain ⟨t, hpush, ⟨heq, -⟩, henters⟩ := enters_of_holds hv hl hbytes hne hstack
  have hid : (BitVec.ofNat 64 (Spec.vector k)).toNat = Spec.vector k := by cases k <;> rfl
  have hmarker : t.routing = none := by rw [heq]; exact hidle
  have hexec : exec (.int (BitVec.ofNat 64 (Spec.vector k))) s = finish (takeEntry (Spec.vector k) (leValue l) s) := by
    obtain ⟨hread, -⟩ := reads_of_int (BitVec.ofNat 64 (Spec.vector k)) hv
    rw [hid] at hread
    exact hread l hl hbytes
  rw [hexec, takeEntry_of_ne_zero hne, hpush, Res.bind_ok, finish_ok, finish_raise_of_enters henters, jump, ← hmarker]

/-- Settles O30: the slot that the router has pushed still holds pc at the handler's entry, and RET pops it. -/
theorem retResumes : Obligations.RetResumes := by
  unfold Obligations.RetResumes
  intro k s t l hv hl hbytes hne hstack h
  obtain ⟨u, -, ⟨heq, hslot, -⟩, henters⟩ := enters_of_holds hv hl hbytes hne hstack
  have ht : t = { u with pc := BitVec.ofNat 32 (leValue l), routing := none } :=
    Host.Outcome.next.inj (h.symm.trans (finish_raise_of_enters henters))
  have hvalid : t.stackBaseValid = true := by rw [ht, heq]; exact hstack.1
  have hbase : t.stackBase = s.stackBase := by rw [ht, heq]
  have hpos : t.stackPos = s.stackPos + 4#32 := by rw [ht, heq]
  have hpc : HoldsBytes t (t.stackBase - t.stackPos) (leBytes 4 s.pc.toNat) := by
    rw [hbase, hpos, ht]
    exact hslot
  rw [exec_ret_of_holds hvalid hpc, hpos, BitVec.add_sub_cancel]

end Sys2Proof.Machine
end

section
/-! SUPPORT. Pages that are mapped to frames of their own, as `allocate_page` without a frame maps them (20_memory.md
R59, R60): how many of them there are frames for, and why two addresses in them never reach the same byte. -/

namespace Sys2Proof.Machine

variable {s : State} {P : Finset PageNo} {p : PageNo} {a b : Addr} {n : Nat}

/-- Setting a key that is absent adds one entry. -/
theorem mapSet_perm_of_absent {α : Type} {m : List (Nat × α)} {k : Nat} (v : α) (h : mapGet m k = none) :
    (mapSet m k v).Perm ((k, v) :: m) := by
  induction m with
  | nil => exact .refl _
  | cons e m ih =>
    obtain ⟨j, u⟩ := e
    simp only [mapGet] at h
    split_ifs at h with hkj
    simp only [mapSet, if_neg hkj]
    split_ifs
    · exact .refl _
    · exact ((ih h).cons _).trans (.swap _ _ _)

/-! ## Frames of their own -/

/-- The pages `P` and no others are mapped, each to a frame of its own. -/
structure State.Maps (s : State) (P : Finset PageNo) : Prop where
  fits : s.pageTableFits
  frames : (s.pt.map Prod.snd).Nodup
  mapped : ∀ p, p ∈ P ↔ (mapGet s.pt p.toNat).isSome = true
  count : s.pt.length = P.card

/-- There are frames for `k` pages: with a finite NUM_FRAMES, that many lie below it that are not DEVICE_FRAME
(20_memory.md R60). -/
def FramesFor (cfg : Config) (k : Nat) : Prop :=
  ∀ n, cfg.numFrames = some n → k + (if cfg.deviceFrame < n then 1 else 0) ≤ n

theorem FramesFor.mono {cfg : Config} {j k : Nat} (hjk : j ≤ k) (h : FramesFor cfg k) : FramesFor cfg j :=
  fun n hn => (Nat.add_le_add_right hjk _).trans (h n hn)

theorem maps_empty (h : s.pt = []) : s.Maps ∅ where
  fits := by simp [State.pageTableFits, h]
  frames := by simp [h]
  mapped := by simp [h, mapGet]
  count := by simp [h]

/-- Below a finite NUM_FRAMES the used frames are those of the mapped pages, and DEVICE_FRAME if it lies there. -/
theorem State.Maps.card_used_below (h : s.Maps P) (hn : s.cfg.numFrames = some n) :
    ((usedFrames s).toFinset.filter (· < n)).card = P.card + if s.cfg.deviceFrame < n then 1 else 0 := by
  obtain ⟨-, hpt⟩ := h.fits
  have hbelow : (s.pt.map Prod.snd).toFinset.filter (· < n) = (s.pt.map Prod.snd).toFinset := by
    refine Finset.filter_true_of_mem fun f hf => ?_
    obtain ⟨e, he, rfl⟩ := List.mem_map.mp (List.mem_toFinset.mp hf)
    exact (hpt e he).2.2 n hn
  have hdevice : s.cfg.deviceFrame ∉ (s.pt.map Prod.snd).toFinset := fun hf => by
    obtain ⟨e, he, hef⟩ := List.mem_map.mp (List.mem_toFinset.mp hf)
    exact (hpt e he).2.1 hef
  have hcard : (s.pt.map Prod.snd).toFinset.card = P.card := by
    rw [List.toFinset_card_of_nodup h.frames, List.length_map, h.count]
  rw [usedFrames, List.toFinset_cons, Finset.filter_insert, hbelow]
  split_ifs
  · rw [Finset.card_insert_of_notMem hdevice, hcard]
  · exact hcard

theorem used_below_subset (s : State) (n : Nat) : (usedFrames s).toFinset.filter (· < n) ⊆ Finset.range n :=
  fun _ hf => Finset.mem_range.mpr (Finset.mem_filter.mp hf).2

/-- There are frames for the pages that have one. -/
theorem State.Maps.framesFor (h : s.Maps P) : FramesFor s.cfg P.card := fun n hn => by
  rw [← h.card_used_below hn]
  exact (Finset.card_le_card (used_below_subset s n)).trans_eq (Finset.card_range n)

/-- The lowest free frame exists just if there are frames for one page more: else all below NUM_FRAMES are used. -/
theorem State.Maps.frameExists_lowestFree_iff (h : s.Maps P) :
    Spec.FrameExists s (lowestFree s) ↔ FramesFor s.cfg (P.card + 1) := by
  refine forall₂_congr fun n hn => ?_
  rw [Nat.add_right_comm, ← h.card_used_below hn, Nat.succ_le_iff]
  constructor
  · intro hlt
    have hne : (usedFrames s).toFinset.filter (· < n) ≠ Finset.range n := fun he =>
      lowestFree_not_used s (List.mem_toFinset.mp (Finset.mem_filter.mp (he ▸ Finset.mem_range.mpr hlt)).1)
    simpa using Finset.card_lt_card ((used_below_subset s n).ssubset_of_ne hne)
  · intro hcard
    by_contra hge
    have hall : Finset.range n ⊆ (usedFrames s).toFinset.filter (· < n) := fun f hf => by
      have hfn := Finset.mem_range.mp hf
      exact Finset.mem_filter.mpr ⟨List.mem_toFinset.mpr (lt_lowestFree_used (by omega)), hfn⟩
    have hle := Finset.card_le_card hall
    rw [Finset.card_range] at hle
    omega

/-- The allocation for a page that has none, where a frame is left. -/
theorem State.Maps.mapPage_lowestFree (h : s.Maps P) (hp : p ∉ P) (hf : Spec.FrameExists s (lowestFree s)) :
    (mapPage p (lowestFree s) s).Maps (insert p P) := by
  have habsent : mapGet s.pt p.toNat = none := by simpa using mt (h.mapped p).mpr hp
  have hperm := mapSet_perm_of_absent (lowestFree s) habsent
  have hfresh : lowestFree s ∉ s.pt.map Prod.snd := fun hm => lowestFree_not_used s (List.mem_cons_of_mem _ hm)
  refine ⟨(allocatePage_pageTableFits p h.fits).of_eq_ok (allocatePage_of_exists hf), ?_, fun q => ?_, ?_⟩
  · rw [mapPage_pt, (hperm.map Prod.snd).nodup_iff]
    exact List.nodup_cons.mpr ⟨hfresh, h.frames⟩
  · rw [mapPage_pt, mapGet_mapSet, Finset.mem_insert, h.mapped q, ← BitVec.toNat_inj]
    split_ifs with hq <;> simp [hq]
  · rw [mapPage_pt, hperm.length_eq, List.length_cons, h.count, Finset.card_insert_of_notMem hp]

/-! ## Mapping an image -/

/-- The pages of an image at `a`. -/
def imagePageSet (a : Addr) (l : List Byte) : Finset PageNo := (Spec.imagePages a l).toFinset

@[simp] theorem imagePageSet_nil (a : Addr) : imagePageSet a [] = ∅ := rfl

theorem imagePageSet_cons (a : Addr) (b : Byte) (l : List Byte) :
    imagePageSet a (b :: l) = insert (pageOf a) (imagePageSet (a + 1#32) l) := by
  simp [imagePageSet, Spec.imagePages, List.range_succ_eq_map, Function.comp_def, addr_succ]

theorem framesEnough_iff {cfg : Config} {l m : List Byte} :
    Spec.FramesEnough cfg l m ↔ FramesFor cfg (imagePageSet cfg.bootBase l ∪ imagePageSet cfg.biosBase m).card := by
  rw [imagePageSet, imagePageSet, ← List.toFinset_append, List.card_toFinset]
  exact Iff.rfl

/-- A page that has a frame keeps it, and one that has none gets one if there is one left. -/
theorem State.Maps.ensureMapped_cases (h : s.Maps P) (a : Addr) :
    (∃ m, ensureMapped a s = .ok () { s with pt := m } ∧ State.Maps { s with pt := m } (insert (pageOf a) P)) ∨
      ensureMapped a s = .fatal .outOfFrames s ∧ ¬ FramesFor s.cfg (insert (pageOf a) P).card := by
  unfold ensureMapped
  by_cases hp : pageOf a ∈ P
  · obtain ⟨f, hf⟩ := Option.isSome_iff_exists.mp ((h.mapped _).mp hp)
    rw [hf, Finset.insert_eq_of_mem hp]
    exact .inl ⟨s.pt, rfl, h⟩
  · have habsent : mapGet s.pt (pageOf a).toNat = none := by simpa using mt (h.mapped _).mpr hp
    rw [habsent, Finset.card_insert_of_notMem hp, ← h.frameExists_lowestFree_iff]
    by_cases hf : Spec.FrameExists s (lowestFree s)
    · exact .inl ⟨_, allocatePage_of_exists hf, h.mapPage_lowestFree hp hf⟩
    · exact .inr ⟨allocatePage_of_not_exists hf, hf⟩

/-- An image's pages are all mapped in the end, or there were not frames enough for them. -/
theorem State.Maps.mapImage_cases (h : s.Maps P) (a : Addr) (l : List Byte) :
    (∃ m, mapImage a l s = .ok () { s with pt := m } ∧ State.Maps { s with pt := m } (P ∪ imagePageSet a l)) ∨
      (∃ t, mapImage a l s = .fatal .outOfFrames t) ∧ ¬ FramesFor s.cfg (P ∪ imagePageSet a l).card := by
  induction l generalizing a s P with
  | nil => exact .inl ⟨s.pt, rfl, by simpa using h⟩
  | cons b l ih =>
    rw [imagePageSet_cons, Finset.union_insert, ← Finset.insert_union, mapImage]
    rcases h.ensureMapped_cases a with ⟨m, hok, hm⟩ | ⟨hfatal, hframes⟩
    · rw [hok, Res.bind_ok]
      exact ih hm (a + 1#32)
    · rw [hfatal, Res.bind_fatal]
      exact .inr ⟨⟨s, rfl⟩, mt (FramesFor.mono (Finset.card_le_card Finset.subset_union_left)) hframes⟩

/-! ## Where the addresses of mapped pages go -/

/-- An image whose pages are mapped, none of them the device page, lies in memory. -/
theorem State.Maps.inMemory (h : s.Maps P) {l : List Byte} (hl : imagePageSet a l ⊆ P)
    (hd : s.cfg.devicePage ∉ Spec.imagePages a l) : InMemory s a l.length := fun k hk => by
  have hpage : pageOf (a + BitVec.ofNat 32 k) ∈ Spec.imagePages a l :=
    List.mem_map.mpr ⟨k, List.mem_range.mpr hk, rfl⟩
  obtain ⟨f, hf⟩ := Option.isSome_iff_exists.mp ((h.mapped _).mp (hl (List.mem_toFinset.mpr hpage)))
  have hplace : translate s (a + BitVec.ofNat 32 k) = .cell (cellKey f (offsetOf (a + BitVec.ofNat 32 k))) := by
    rw [translate, if_neg (ne_of_mem_of_not_mem hpage hd), hf]
  rw [peek_cell hplace, Option.isSome_some]

/-- No two addresses reach the same byte of a frame. -/
def State.NoAlias (s : State) : Prop :=
  ∀ a b key, translate s a = .cell key → translate s b = .cell key → a = b

theorem State.Maps.noAlias (h : s.Maps P) : s.NoAlias := fun a b key ha hb => by
  obtain ⟨-, f, hf, hfkey⟩ := translate_eq_cell ha
  obtain ⟨-, g, hg, hgkey⟩ := translate_eq_cell hb
  obtain rfl : f = g := by omega
  have hentry : ((pageOf a).toNat, f) = ((pageOf b).toNat, f) :=
    List.inj_on_of_nodup_map h.frames (mem_of_mapGet hf) (mem_of_mapGet hg) rfl
  have hpage : a.toNat / 4096 = b.toNat / 4096 := by
    simpa only [toNat_pageOf] using congrArg Prod.fst hentry
  exact BitVec.eq_of_toNat_eq (by omega)

/-- Without aliasing, an address that is none of those of a block in memory reaches none of its bytes. -/
theorem State.NoAlias.apart (h : s.NoAlias) (hmem : InMemory s a n) (hb : ∀ k < n, b ≠ a + BitVec.ofNat 32 k) :
    Apart s a n b := fun k hk heq => by
  obtain ⟨key, hkey⟩ := peek_isSome (hmem k hk)
  exact hb k hk (h _ _ key (heq.trans hkey) hkey)

end Sys2Proof.Machine
end

section
/-! SUPPORT. Flashing an image (70_reset_and_hazards.md R253 step 4) as one multi-byte write, and what it leaves in
memory without aliasing. -/

namespace Sys2Proof.Machine

variable {s t : State} {a : Addr} {l : List Byte}

theorem flash_eq_memWrite (a : Addr) (l : List Byte) (s : State) : flash a l s = memWrite a l.length (leValue l) s := by
  induction l generalizing a s with
  | nil => rfl
  | cons b l ih =>
    have hb := b.isLt
    have hlow : BitVec.ofNat 8 (b.toNat + 256 * leValue l) = b := by
      apply BitVec.eq_of_toNat_eq
      rw [BitVec.toNat_ofNat]
      omega
    have hhigh : (b.toNat + 256 * leValue l) / 256 = leValue l := by omega
    simp only [flash, List.length_cons, memWrite, leValue, hlow, hhigh, ih]

theorem flash_fits (a : Addr) (l : List Byte) (hs : s.Fits) : (flash a l s).Ends State.Fits := by
  rw [flash_eq_memWrite]
  exact memWrite_fits a _ _ hs

/-- Storing bytes changes neither where addresses go nor, so, what lies in memory. -/
theorem InMemory.of_frames {n : Nat} (h : InMemory s a n) (f : Memory) : InMemory { s with frames := f } a n :=
  fun k hk => by
    obtain ⟨key, hkey⟩ := peek_isSome (h k hk)
    rw [peek_cell (s := { s with frames := f }) (key := key) hkey, Option.isSome_some]

theorem flash_inMemory (h : InMemory s a l.length) : ∃ f, flash a l s = .ok () { s with frames := f } := by
  induction l generalizing a s with
  | nil => exact ⟨s.frames, rfl⟩
  | cons b l ih =>
    obtain ⟨key, hkey⟩ := peek_isSome (h 0 (Nat.succ_pos _))
    rw [addr_zero] at hkey
    rw [flash, store_cell hkey, Res.bind_ok]
    exact ih (h.tail.of_frames _)

/-- Flashing changes no address outside the image. -/
theorem flash_peek_outside (h : s.NoAlias) (hmem : InMemory s a l.length) (hf : flash a l s = .ok () t) {b : Addr}
    (hb : ∀ k < l.length, b ≠ a + BitVec.ofNat 32 k) : peek t b = peek s b := by
  rw [flash_eq_memWrite] at hf
  obtain ⟨-, houtside⟩ := (memWrite_apart a _ _ s).of_eq_ok hf
  exact houtside b (h.apart hmem hb)

/-- An image that does not wrap round onto itself stands in memory once it is flashed. -/
theorem flash_holds (h : s.NoAlias) (hmem : InMemory s a l.length) (hl : l.length ≤ 2 ^ 32)
    (hf : flash a l s = .ok () t) : HoldsBytes t a l := by
  induction l generalizing a s with
  | nil => exact fun k hk => absurd hk (Nat.not_lt_zero k)
  | cons b l ih =>
    obtain ⟨key, hkey⟩ := peek_isSome (hmem 0 (Nat.succ_pos _))
    rw [addr_zero] at hkey
    rw [flash, store_cell hkey, Res.bind_ok] at hf
    have h' : State.NoAlias { s with frames := s.frames.write key b } := h
    have hmem' := hmem.tail.of_frames (s.frames.write key b)
    rw [List.length_cons] at hl
    have hfirst : ∀ k < l.length, a ≠ a + 1#32 + BitVec.ofNat 32 k := fun k hk => by
      rw [addr_succ]
      intro he
      have := congrArg BitVec.toNat he
      rw [BitVec.toNat_add, BitVec.toNat_ofNat] at this
      omega
    refine HoldsBytes.cons ?_ (ih h' hmem' (by omega) hf)
    rw [flash_peek_outside h' hmem' hf hfirst,
      peek_cell (s := { s with frames := s.frames.write key b }) (key := key) hkey, Memory.read_write_same]

end Sys2Proof.Machine
end

section
/-! SUPPORT. The boot sequence (70_reset_and_hazards.md R253, R254): what it can leave in every case, and in the three
cases of its end. -/

namespace Sys2Proof.Machine

variable {s t u : State} {cfg : Config} {n : Nat} {l m : List Byte}

/-! ## What the boot sequence keeps -/

/-- Steps 3 to 5 of R253 for two images; `boot_some` ties it to `boot`. -/
def bootImages (cfg : Config) (l m : List Byte) (s : State) : Res Unit :=
  (mapImage cfg.bootBase l s).bind fun _ s =>
  (mapImage cfg.biosBase m s).bind fun _ s =>
  (flash cfg.bootBase l s).bind fun _ s =>
  (flash cfg.biosBase m s).bind fun _ s => .ok () { s with pc := cfg.biosEntry }

theorem boot_some (cfg : Config) (n : Nat) (l m : List Byte) :
    boot cfg n (some l) (some m) = hostState (bootImages cfg l m (registerPorts n (State.resetWith cfg))) := rfl

theorem boot_missing {p q : Option (List Byte)} (h : p = none ∨ q = none) :
    boot cfg n p q = haltFatal .missingImage (registerPorts n (State.resetWith cfg)) := by
  cases p with
  | none => rfl
  | some l =>
    cases q with
    | none => rfl
    | some m => simp at h

/-- `t` is `s` but for pc, the page table, stored bytes and the record of port calls, and meets the invariant. -/
def Boots (s t : State) : Prop :=
  (∃ p q f l, t = { s with pc := p, pt := q, frames := f, portLog := l }) ∧ t.Fits

theorem Boots.trans (h : Boots s t) (g : Boots t u) : Boots s u := by
  obtain ⟨⟨_, _, _, _, rfl⟩, -⟩ := h
  obtain ⟨⟨_, _, _, _, rfl⟩, hu⟩ := g
  exact ⟨⟨_, _, _, _, rfl⟩, hu⟩

theorem mapImage_boots (a : Addr) (l : List Byte) (hs : s.Fits) : (mapImage a l s).Ends (Boots s) :=
  ((mapImage_ends a l s).and (mapImage_pageTableFits a l hs.pageTable)).imp fun _ ⟨hm, hp⟩ =>
    ⟨hm.elim fun _ h => ⟨_, _, _, _, h⟩, pageTable_fits hm hp hs⟩

theorem flash_boots (a : Addr) (l : List Byte) (hs : s.Fits) : (flash a l s).Ends (Boots s) :=
  ((flash_ends a l s).and (flash_fits a l hs)).imp fun _ ⟨⟨_, _, h⟩, hf⟩ => ⟨⟨_, _, _, _, h⟩, hf⟩

theorem Res.Ends.bind_boots {α β : Type} {m : Res α} {f : α → State → Res β} (h : m.Ends (Boots s))
    (hf : ∀ v {t : State}, t.Fits → (f v t).Ends (Boots t)) : (m.bind f).Ends (Boots s) :=
  h.bind (fun _ h => h) fun v _ _ ht => (hf v ht.2).imp fun _ => ht.trans

theorem bootImages_boots (cfg : Config) (l m : List Byte) (hs : s.Fits) : (bootImages cfg l m s).Ends (Boots s) :=
  (mapImage_boots _ l hs).bind_boots fun _ _ ht =>
    (mapImage_boots _ m ht).bind_boots fun _ _ ht =>
      (flash_boots _ l ht).bind_boots fun _ _ ht =>
        (flash_boots _ m ht).bind_boots fun _ _ ht => ⟨⟨_, _, _, _, rfl⟩, { ht with }⟩

theorem hostState_ends {P : State → Prop} {m : Res Unit} (h : m.Ends P) :
    ∃ u, P u ∧ (hostState m = u ∨ ∃ r, hostState m = haltFatal r u) := by
  cases m with
  | ok v u => exact ⟨u, h, .inl rfl⟩
  | raise k u => exact ⟨u, h, .inl rfl⟩
  | fatal r u => exact ⟨u, h, .inr ⟨r, rfl⟩⟩

theorem registered_fits (cfg : Config) (n : Nat) : (registerPorts n (State.resetWith cfg)).Fits :=
  { (State.inv_iff.mp (resetMeetsInvariant cfg)).1 with portCount := Nat.min_le_right _ _ }

/-- Boot ends in a state that its parts can leave, or in that state halted. -/
theorem boot_ends (cfg : Config) (n : Nat) (p q : Option (List Byte)) :
    ∃ u, Boots (registerPorts n (State.resetWith cfg)) u ∧
      (boot cfg n p q = u ∨ ∃ r, boot cfg n p q = haltFatal r u) := by
  have hs := registered_fits cfg n
  by_cases h : p = none ∨ q = none
  · exact ⟨_, ⟨⟨_, _, _, _, rfl⟩, hs⟩, .inr ⟨_, boot_missing h⟩⟩
  · obtain ⟨hp, hq⟩ := not_or.mp h
    obtain ⟨l, rfl⟩ := Option.ne_none_iff_exists'.mp hp
    obtain ⟨m, rfl⟩ := Option.ne_none_iff_exists'.mp hq
    exact hostState_ends (bootImages_boots cfg l m hs)

theorem boot_inv (cfg : Config) (n : Nat) (p q : Option (List Byte)) : (boot cfg n p q).Inv := by
  obtain ⟨u, ⟨⟨_, _, _, _, rfl⟩, hu⟩, h | ⟨r, h⟩⟩ := boot_ends cfg n p q
  · rw [h]
    exact State.inv_iff.mpr ⟨hu, rfl⟩
  · rw [h]
    exact State.inv_iff.mpr ⟨haltFatal_fits r hu, rfl⟩

theorem boot_keeps_reset (cfg : Config) (n : Nat) (p q : Option (List Byte)) :
    boot cfg n p q = { State.resetWith cfg with
      pc := (boot cfg n p q).pc
      pt := (boot cfg n p q).pt
      frames := (boot cfg n p q).frames
      run := (boot cfg n p q).run
      ports := min n 4096
      portLog := (boot cfg n p q).portLog } := by
  have hports : (registerPorts n (State.resetWith cfg)).ports = min n 4096 := by
    rw [registerPorts_ports, State.resetWith, Nat.zero_add]
  obtain ⟨u, ⟨⟨_, _, _, _, rfl⟩, -⟩, h⟩ := boot_ends cfg n p q
  rcases h with h | ⟨r, h⟩ <;> (rw [h, ← hports]; rfl)

/-! ## With both images -/

/-- With frames enough the pages of both images are mapped, each to a frame of its own, and else there is no frame
left. -/
theorem mapImages_cases (hs : s.pt = []) (cfg : Config) (l m : List Byte) :
    (∃ r, (mapImage cfg.bootBase l s).bind (fun _ t => mapImage cfg.biosBase m t) = .ok () { s with pt := r } ∧
      State.Maps { s with pt := r } (imagePageSet cfg.bootBase l ∪ imagePageSet cfg.biosBase m)) ∨
      (∃ t, (mapImage cfg.bootBase l s).bind (fun _ t => mapImage cfg.biosBase m t) = .fatal .outOfFrames t) ∧
        ¬ FramesFor s.cfg (imagePageSet cfg.bootBase l ∪ imagePageSet cfg.biosBase m).card := by
  rcases (maps_empty hs).mapImage_cases cfg.bootBase l with ⟨r, hok, hr⟩ | ⟨⟨t, hfatal⟩, hframes⟩
  · rw [hok, Res.bind_ok]
    rw [Finset.empty_union] at hr
    exact hr.mapImage_cases cfg.biosBase m
  · rw [hfatal, Res.bind_fatal]
    rw [Finset.empty_union] at hframes
    exact .inr ⟨⟨t, rfl⟩, mt (FramesFor.mono (Finset.card_le_card Finset.subset_union_left)) hframes⟩

theorem bootImages_eq_bind (cfg : Config) (l m : List Byte) (s : State) :
    bootImages cfg l m s =
      ((mapImage cfg.bootBase l s).bind fun _ t => mapImage cfg.biosBase m t).bind fun _ t =>
        (flash cfg.bootBase l t).bind fun _ u =>
        (flash cfg.biosBase m u).bind fun _ w => .ok () { w with pc := cfg.biosEntry } := by
  rw [Res.bind_assoc, bootImages]

theorem boot_outOfFrames (h : ¬ Spec.FramesEnough cfg l m) :
    (boot cfg n (some l) (some m)).run = .haltedFatal .outOfFrames := by
  rw [framesEnough_iff] at h
  rw [boot_some, bootImages_eq_bind]
  rcases mapImages_cases (s := registerPorts n (State.resetWith cfg)) rfl cfg l m with ⟨r, -, hr⟩ | ⟨⟨t, hfatal⟩, -⟩
  · exact absurd hr.framesFor h
  · rw [hfatal]
    rfl

/-- With frames enough and no image in the device page, boot maps the images' pages and flashes both images. -/
theorem boot_flashed (h : Spec.FramesEnough cfg l m) (hl : cfg.devicePage ∉ Spec.imagePages cfg.bootBase l)
    (hm : cfg.devicePage ∉ Spec.imagePages cfg.biosBase m) :
    ∃ t f g, t.NoAlias ∧ InMemory t cfg.bootBase l.length ∧ InMemory t cfg.biosBase m.length ∧
      flash cfg.bootBase l t = .ok () { t with frames := f } ∧
      flash cfg.biosBase m { t with frames := f } = .ok () { t with frames := g } ∧
      t.run = .running ∧ boot cfg n (some l) (some m) = { t with frames := g, pc := cfg.biosEntry } := by
  rw [framesEnough_iff] at h
  rw [boot_some, bootImages_eq_bind]
  rcases mapImages_cases (s := registerPorts n (State.resetWith cfg)) rfl cfg l m with ⟨r, hok, hr⟩ | ⟨-, hframes⟩
  · have hboot := hr.inMemory Finset.subset_union_left hl
    have hbios := hr.inMemory Finset.subset_union_right hm
    obtain ⟨f, hf⟩ := flash_inMemory hboot
    obtain ⟨g, hg⟩ := flash_inMemory (hbios.of_frames f)
    refine ⟨_, f, g, hr.noAlias, hboot, hbios, hf, hg, rfl, ?_⟩
    rw [hok, Res.bind_ok, hf, Res.bind_ok, hg, Res.bind_ok, hostState]
  · exact absurd h hframes

end Sys2Proof.Machine
end

section
/-! PROOFS. The statements on reset and boot (70_reset_and_hazards.md). -/

namespace Sys2Proof.Machine

/-- Settles O56: what boot keeps is what each of its parts keeps (`boot_ends`); with both images the pages are mapped
without aliasing or the frames run out (`mapImages_cases`), and without aliasing the BIOS image, flashed last, changes
the boot image only where the two overlap. -/
theorem bootRule : Obligations.BootRule := by
  unfold Obligations.BootRule
  intro cfg n p q
  refine ⟨fun h => by rw [boot_missing h, haltFatal], boot_inv cfg n p q, ⟨_, rfl, boot_keeps_reset cfg n p q⟩, ?_⟩
  rintro l m rfl rfl
  refine ⟨boot_outOfFrames, fun hframes hl hm => ?_⟩
  obtain ⟨t, f, g, halias, hboot, hbios, hf, hg, hrun, heq⟩ := boot_flashed (n := n) hframes hl hm
  rw [heq]
  have halias' : State.NoAlias { t with frames := f } := halias
  have hbios' := hbios.of_frames f
  have hholds (hlen : m.length ≤ 2 ^ 32) : HoldsBytes { t with frames := g } cfg.biosBase m :=
    flash_holds halias' hbios' hlen hg
  refine ⟨hrun, rfl, hholds, fun hlen i hi houtside => ?_⟩
  calc peek { t with frames := g } (cfg.bootBase + BitVec.ofNat 32 i)
      = peek { t with frames := f } (cfg.bootBase + BitVec.ofNat 32 i) :=
        flash_peek_outside halias' hbios' hg houtside
    _ = l[i]? := flash_holds halias hboot hlen hf i hi

/-- Settles O55: nothing is mapped, so the opcode fetch faults at its first byte, and the router has no IVT base. -/
theorem stepFromReset : Obligations.StepFromReset := by
  unfold Obligations.StepFromReset
  intro cfg h
  have hplace : translate (State.resetWith cfg) (State.resetWith cfg).pc = .unmapped := translate_of_absent h rfl
  rw [(fetchReaches_first _).step_unmapped rfl hplace, finish, settle_raise,
    route_eq_transaction FaultKind.noConfusion, transaction_noIvt rfl]
  rfl

end Sys2Proof.Machine
end
